-- ==== Sys2Proof/Word.lean ====
section
/-!
DEFINITION. The value types of the spec's notation (00_scope.md rules R8 and R9): a byte, and the byte string of a fixed
length that every byte-array register holds.
-/

namespace Sys2Proof

/-- A byte, 8 bits (rule R8). -/
abbrev Byte := BitVec 8

/-- `Bytes<n>` of rule R8: a byte string of length `n`, indexed from 0. The length is carried by the value, so a register
of the wrong length cannot be written down. -/
structure Bytes (n : Nat) where
  data : List Byte
  len : data.length = n
deriving DecidableEq, Repr

/-- `0^n` of rule R8: the byte string of `n` zero bytes. -/
def Bytes.zero (n : Nat) : Bytes n := ⟨List.replicate n 0#8, List.length_replicate⟩

end Sys2Proof
end

