-- ==== Sys2Proof/Config.lean ====
section
/-!
DEFINITION. What is fixed for the life of the machine: the constants the document fixes (00_scope.md rule R6), and the values
it leaves open as uninterpreted constants with no body (rule R7; 92_eei_decisions.md, "Open parameters"), so that a claim
holds for every value of them.
-/

namespace Sys2Proof.Config

/-- `TAG_BYTES` of rule R6. -/
abbrev tagBytes : Nat := 16

/-- `BLOCK_BYTES` of rule R6: the keystream block. -/
abbrev blockBytes : Nat := 64

/-- `PAD_BYTES` of rule R6: the MAC padding boundary. -/
abbrev padBytes : Nat := 16

/-- `MAX_BLOCKS` of rule R6: the exclusive bound on the buffer's block count. -/
abbrev maxBlocks : Nat := 2 ^ 32

/-- `MSG_FIRST_CTR` of rule R6: the block counter the message starts at. -/
abbrev msgFirstCtr : Nat := 1

/-- One past the last data address: `ADDR_BITS = 64` of rule R7, rule R60. -/
abbrev addrSpace : Nat := 2 ^ 64

/-- The size of the register window in bytes (rule R30). -/
abbrev windowBytes : Nat := 256

/-- OPEN parameter `KS` (rules R7 and R186): keystream block number `c` of the generator with key `k` and nonce `n`; the last
argument is the index of the byte in the 64-byte block. -/
opaque KS : Bytes 32 → Bytes 12 → BitVec 32 → Fin 64 → Byte

/-- OPEN parameter `MACFN` (rules R7 and R187): byte `i` of the 16-byte tag of the whole message under the one-time key. -/
opaque MACFN : Bytes 32 → List Byte → Fin 16 → Byte

/-- OPEN parameter `KDF` (rules R7 and R188): byte `i` of the 32-byte subkey of (key, salt). -/
opaque KDF : Bytes 32 → Bytes 16 → Fin 32 → Byte

/-- FREE VALUE (rule R226, 93_implementation_defined.md U13; assumption 5): how many byte writes a micro-operation had done when a platform reset
interrupted it. The spec does not say which part of the region had been processed; the argument is a plain counter of State. -/
opaque resetPoint : Nat → Nat

end Sys2Proof.Config
end

