-- ==== Sys2Proof/Syntax.lean ====
section
/-!
DEFINITION. The instructions of the opcode table, both levels (00_scope.md rule R13): the host's commands (format CMD) and the
sequencer's micro-operations (format UOP); the host's actions as bus transactions (30_encoding.md rule R85); the assembler
statements and pseudo-instructions of rules R89 and R90.
-/

namespace Sys2Proof

/-- One constructor per row of the opcode table. No row has an operand field (rules R83 and R86). -/
inductive Instr where
  /-- `NOP` (rule R175). -/
  | nop
  /-- `KEYLOAD.S` (rule R176). -/
  | keyloadS
  /-- `KEYLOAD.X` (rule R177). -/
  | keyloadX
  /-- `ZEROIZE` (rule R178). -/
  | zeroize
  /-- `ENC` (rule R149). -/
  | enc
  /-- `DEC` (rule R150). -/
  | dec
  /-- `ENCC` (rule R152). -/
  | encc
  /-- `DECC` (rule R153). -/
  | decc
  /-- `U_IDLE` (rule R29). -/
  | uIdle
  /-- `START` (rule R148). -/
  | start
  /-- `SEEDS` (rule R165). -/
  | seeds
  /-- `SPLIT` (rule R166). -/
  | split
  /-- `DERIVE` (rule R167). -/
  | derive
  /-- `SEEDX` (rule R168). -/
  | seedx
  /-- `MACKEY` (rule R101). -/
  | mackey
  /-- `SKIP` (rule R102). -/
  | skip
  /-- `SIZECHK` (rule R111). -/
  | sizechk
  /-- `ABSAAD` (rule R113). -/
  | absaad
  /-- `XOR` (rule R128). -/
  | xor
  /-- `ABSBUF` (rule R114). -/
  | absbuf
  /-- `ABSLEN` (rule R115). -/
  | abslen
  /-- `FINAL` (rule R116). -/
  | final
  /-- `CMP` (rule R136). -/
  | cmp
  /-- `TAGOUT` (rule R138). -/
  | tagout
  /-- `RETOK` (rule R154). -/
  | retok
  /-- `RETFAIL` (rule R156). -/
  | retfail
deriving DecidableEq, Repr

/-- The two formats of 30_encoding.md: a 32-bit command word (rule R80) and a 5-bit `PHASE` code (rule R86). -/
inductive Format where
  | cmd
  | uop
deriving DecidableEq, Repr

/-- The format of an instruction's row. -/
def Instr.format : Instr → Format
  | .nop | .keyloadS | .keyloadX | .zeroize | .enc | .dec | .encc | .decc => .cmd
  | .uIdle | .start | .seeds | .split | .derive | .seedx | .mackey | .skip | .sizechk | .absaad | .xor | .absbuf
  | .abslen | .final | .cmp | .tagout | .retok | .retfail => .uop

/-- The width of a register access (20_memory.md rule R65): only a 32-bit word has a meaning. -/
inductive AccessWidth where
  | byte
  | halfword
  | word
  | doubleword
deriving DecidableEq, Repr

/-- What the host does: a register write or read, which is a bus transaction `(kind, offset, data)` of rule R85, or a store
into the data memory it owns, the `MEM` statement of rule R89. The width is part of the action so that an access
of another width can be refused (rule R65); its data is then not looked at. -/
inductive HostAct where
  | write (width : AccessWidth) (offset : Nat) (data : BitVec 32)
  | read (width : AccessWidth) (offset : Nat)
  | mem (addr : BitVec 64) (bytes : List Byte)
deriving DecidableEq, Repr

/-- The 64-bit operand registers `x0` to `x4` (rules R22 and R84). -/
inductive NumReg where
  | bufAddr
  | bufLen
  | aadAddr
  | aadLen
  | resLen
deriving DecidableEq, Repr

/-- The number `i` of `x[i]` (rule R84). -/
def NumReg.index : NumReg → Nat
  | .bufAddr => 0
  | .bufLen => 1
  | .aadAddr => 2
  | .aadLen => 3
  | .resLen => 4

/-- The assembler statements of rule R89 and the pseudo-instructions of rule R90. -/
inductive Asm where
  /-- `CMD <mnemonic>`. -/
  | cmd (i : Instr)
  /-- `WRW <offset>, <word>`. -/
  | wrw (offset : Nat) (data : BitVec 32)
  /-- `RDW <offset>`. -/
  | rdw (offset : Nat)
  /-- `MEM <addr>, h"..."`. -/
  | mem (addr : BitVec 64) (bytes : List Byte)
  /-- `SET <reg64>, <v>`. -/
  | set (r : NumReg) (v : BitVec 64)
  /-- `SETB NONCE, h"..."`, 12 or 24 bytes. -/
  | setbNonce (bytes : List Byte)
  /-- `SETB TAG, h"..."`, 16 bytes. -/
  | setbTag (bytes : List Byte)
  /-- `SETB KEYIN, h"..."`, 32 bytes. -/
  | setbKeyin (bytes : List Byte)
  /-- `GET <reg64>`. -/
  | get (r : NumReg)
  /-- `GETB TAG`. -/
  | getbTag
  /-- `GETS`. -/
  | gets
deriving DecidableEq, Repr

end Sys2Proof
end

