-- ==== Sys2Proof/Machine/State.lean ====
section
/-!
DEFINITION. The state of the ACO as plain data (10_state.md rules R20 to R47), the data memory and the host that stand beside
it (20_memory.md rules R60 and R66, 00_scope.md rule R14), the reasons a step can stop, and the state after reset.
-/

namespace Sys2Proof.Machine

/-- The fields of `STATUS` (rule R32). Bits 31:5 read 0 and cannot be written, so the register is its five fields; the word the
host reads is `statusWord` of Flags.lean. -/
structure Status where
  kv : Bool
  xn : Bool
  done : Bool
  fail : Bool
  cmderr : Bool
deriving DecidableEq, Repr

/-- The ephemeral state `EPH` of rule R46, member by member. -/
structure Eph where
  seedKey : Bytes 32
  seedNonce : Bytes 12
  ctr : BitVec 32
  off : BitVec 6
  salt : Bytes 16
  inner : Bytes 8
  subkey : Bytes 32
  scratch : Bytes 32
  mackey : Bytes 32
  macmsg : List Byte
  mlen : BitVec 64
  etag : Bytes 16
  ctag : Bytes 16
  diff : BitVec 8
  eq : BitVec 1
deriving DecidableEq, Repr

/-- The reset values of `EPH` (rule R47). -/
def Eph.reset : Eph where
  seedKey := Bytes.zero 32
  seedNonce := Bytes.zero 12
  ctr := 0
  off := 0
  salt := Bytes.zero 16
  inner := Bytes.zero 8
  subkey := Bytes.zero 32
  scratch := Bytes.zero 32
  mackey := Bytes.zero 32
  macmsg := []
  mlen := 0
  etag := Bytes.zero 16
  ctag := Bytes.zero 16
  diff := 0
  eq := 0

/-- What stands at the addresses of a region of the platform's address map: ordinary memory that the ACO's port may read and
write (rule R66), or addresses whose reads or writes have side effects (rule R67). -/
inductive RegionKind where
  | ordinary
  | sideEffect
deriving DecidableEq, Repr

/-- A region of the platform's address map: the open parameter `Mem` of rule R7, as a list of these. -/
structure Region where
  base : Nat
  size : Nat
  kind : RegionKind
deriving DecidableEq, Repr

/-- The whole state. The first group is the host-visible registers (rules R22 to R33), the second the hidden ones (rules R34
to R46), the third the data memory and its map (rules R60 and R66), the last the host (rules R14 and R85), the platform's
resets to come (rules R225 and R226) and the model's own counter of free values. -/
structure State where
  bufAddr : BitVec 64
  bufLen : BitVec 64
  aadAddr : BitVec 64
  aadLen : BitVec 64
  resLen : BitVec 64
  nonce : Bytes 24
  tag : Bytes 16
  status : Status
  keyin : Bytes 32
  key : Bytes 32
  op : BitVec 2
  phase : BitVec 5
  cause : BitVec 2
  eph : Eph
  /-- The data memory: the cells that do not read 0, addresses strictly rising. -/
  mem : List Host.Cell
  /-- Which data addresses the platform has, and of which kind. No step changes it. -/
  memMap : List Region
  /-- What the host will do, the next action first. -/
  hostQ : List HostAct
  /-- The words the host's register reads returned, the oldest first. -/
  hostR : List (BitVec 32)
  /-- The platform's resets to come (rules R225 and R226), the next first: a number is how many steps pass before that reset,
  counted from the reset before it (assumption 5). -/
  resets : List Nat
  /-- MODEL'S OWN: how many free values have been drawn. -/
  freeCount : Nat
deriving DecidableEq, Repr

/-- Why the machine stops. -/
inductive Fault where
  /-- Raised by a micro-operation whose data access meets an address that the platform does not admit (rule R66): the sequencer
  is stuck; and by a host store to such an address (rule R60). SAFE: the spec gives the step no meaning, and no claim about a next
  state can be proved of it. -/
  | unadmittedAddress
deriving DecidableEq, Repr

/-- What the model gives no meaning. -/
inductive Refusal where
  /-- Raised by no arm of this model: an instruction with no meaning yet. SAFE. -/
  | notModelled (mnemonic : String)
  /-- Raised by the acceptance of an AEAD command whose region wraps past the top of the data space (rules R73 and R145). SAFE: the
  spec says refuse. -/
  | regionWrap
  /-- Raised by the acceptance of an AEAD command whose regions `W` and `A` overlap (rules R73 and R145). SAFE: the spec says refuse. -/
  | regionOverlap
  /-- Raised when a region or an access touches addresses with side effects (rule R67): by the acceptance of an AEAD command, by a
  micro-operation's access, and by a host store. SAFE: the spec says refuse. -/
  | sideEffectAddress
  /-- Raised by a register access that is not an aligned 32-bit word inside the window (rule R65). SAFE: the spec says refuse. -/
  | badRegisterAccess
  /-- Raised by the sequencer on a reserved `PHASE` code (rule R87), which no run reaches. SAFE: the spec says refuse. -/
  | reservedPhase
deriving DecidableEq, Repr

/-- The platform's memory map the model starts with: every data address is ordinary memory. `Mem` is an open parameter (rules
R7 and R66): DESIGN CHOICE, assumption 3. -/
def State.resetMap : List Region := [⟨0, Config.addrSpace, .ordinary⟩]

/-- The machine right after reset (rules R47 and R225), with nothing listed in memory, no host action pending and the reset
line quiet. -/
def State.reset : State where
  bufAddr := 0
  bufLen := 0
  aadAddr := 0
  aadLen := 0
  resLen := 0
  nonce := Bytes.zero 24
  tag := Bytes.zero 16
  status := ⟨false, false, false, false, false⟩
  keyin := Bytes.zero 32
  key := Bytes.zero 32
  op := 0
  phase := 0
  cause := 0
  eph := Eph.reset
  mem := []
  memMap := State.resetMap
  hostQ := []
  hostR := []
  resets := []
  freeCount := 0

end Sys2Proof.Machine
end

