-- ==== Sys2Proof/Machine/Ops.lean ====
section
/-!
DEFINITION. The named operations every meaning is written over: byte strings and the arithmetic helpers of 00_scope.md rule R9,
the data memory and the master port (20_memory.md rules R62, R66 and R67), the region duties (rule R73), and the shared
outcomes: raising a failure (60_exceptions.md rule R203), rejecting a command (rule R208), closing an operation
(44_aead_commands.md rule R155).
-/

namespace Sys2Proof

/-! Byte strings of fixed length (rule R10). -/

/-- `R[i]`, byte `i` of a byte-array register. -/
def Bytes.get {n : Nat} (b : Bytes n) (i : Nat) : Byte := b.data.getD i 0#8

/-- `R[i] <- x`. -/
def Bytes.set {n : Nat} (b : Bytes n) (i : Nat) (x : Byte) : Bytes n := ⟨b.data.set i x, by simp [b.len]⟩

/-- The byte string of length `n` whose byte `i` is `f i`. -/
def Bytes.ofFn {n : Nat} (f : Fin n → Byte) : Bytes n := ⟨List.ofFn f, List.length_ofFn⟩

/-- A list of `n` bytes as a byte-array register's value; a list of another length, which no rule hands over, is cut or filled
with zero bytes. -/
def Bytes.ofList (n : Nat) (l : List Byte) : Bytes n :=
  ⟨(l ++ List.replicate n 0#8).take n, by simp⟩

/-- `R[a..b)`, the slice of `m` bytes from byte `a` (rule R10). -/
def Bytes.slice {n : Nat} (b : Bytes n) (a m : Nat) : Bytes m := Bytes.ofList m (b.data.drop a)

end Sys2Proof

namespace Sys2Proof.Machine

/-- What a meaning answers. -/
abbrev Result := Host.Outcome State Fault Refusal

/-! Numbers (rule R9). -/

/-- `pad16(n) = (16 - n mod 16) mod 16` (rules R9 and R110). -/
def pad16 (n : Nat) : Nat := (Config.padBytes - n % Config.padBytes) % Config.padBytes

/-- `nblk(n)`, the block count (rules R9 and R112). -/
def nblk (n : Nat) : Nat := n / Config.blockBytes + if n % Config.blockBytes ≠ 0 then 1 else 0

/-- `le64(v)`: byte `i` is `(v div 2^(8i)) mod 256` (rules R9 and R63). -/
def le64 (v : BitVec 64) : List Byte := (List.range 8).map fun i => v.extractLsb' (8 * i) 8

/-- `0^n` as a list. -/
def zeros (n : Nat) : List Byte := List.replicate n 0#8

/-- Byte-wise `xor` of two byte strings (rule R9). -/
def xorList (a b : List Byte) : List Byte := List.zipWith (· ^^^ ·) a b

/-! The data memory: a list of cells, addresses strictly rising, none holding what an unlisted address reads as. -/

/-- What an address that the list does not name reads as. DESIGN CHOICE, assumption 2: the contents of `Mem` are open. -/
def Mem.default : Byte := 0#8

/-- One byte. -/
def Mem.read : List Host.Cell → Nat → Byte
  | [], _ => Mem.default
  | (a, b) :: rest, x => if a = x then b else Mem.read rest x

/-- The cell at `x` taken out or put in, keeping the order; a byte equal to the default is not listed. -/
def Mem.write : List Host.Cell → Nat → Byte → List Host.Cell
  | [], x, v => if v = Mem.default then [] else [(x, v)]
  | (a, b) :: rest, x, v =>
    if a < x then (a, b) :: Mem.write rest x v
    else
      let tail := if a = x then rest else (a, b) :: rest
      if v = Mem.default then tail else (x, v) :: tail

/-- `MemRead(addr, n)` (rule R62): `n` bytes in increasing address order. -/
def Mem.readRange (m : List Host.Cell) : Nat → Nat → List Byte
  | _, 0 => []
  | a, n + 1 => Mem.read m a :: Mem.readRange m (a + 1) n

/-- `MemWrite(addr, n, v)` (rule R62): the bytes of `v` in increasing address order. -/
def Mem.writeRange (m : List Host.Cell) : Nat → List Byte → List Host.Cell
  | _, [] => m
  | a, v :: rest => Mem.writeRange (Mem.write m a v) (a + 1) rest

/-- The canonical form, from address `lo` on: rising, inside the data space, no default byte. -/
def Mem.wfFrom : Nat → List Host.Cell → Bool
  | _, [] => true
  | lo, (a, b) :: rest => decide (lo ≤ a) && decide (a < Config.addrSpace) && b != Mem.default && Mem.wfFrom (a + 1) rest

/-- The canonical form of the data memory. -/
def Memory.wf (m : List Host.Cell) : Bool := Mem.wfFrom 0 m

/-! The master port (rules R62, R66 and R67). -/

/-- Two address ranges share an address; an empty one shares none (rule R73). -/
def overlaps (a n b m : Nat) : Bool := decide (0 < n) && decide (0 < m) && decide (a < b + m) && decide (b < a + n)

/-- A region of the map covers an address. -/
def Region.covers (r : Region) (kind : RegionKind) (a : Nat) : Bool :=
  r.kind == kind && decide (r.base ≤ a) && decide (a < r.base + r.size)

/-- What the port finds at a data address. -/
inductive PortKind where
  | ordinary
  | sideEffect
  | absent
deriving DecidableEq, Repr

/-- Admission (rule R66) and side effects (rule R67). An address that a region with side effects covers has side effects whatever
else covers it; an address outside the data space is absent. DEDUCED, assumptions 8, 10 and 12. -/
def portKind (s : State) (a : Nat) : PortKind :=
  if Config.addrSpace ≤ a then .absent
  else if s.memMap.any (·.covers .sideEffect a) then .sideEffect
  else if s.memMap.any (·.covers .ordinary a) then .ordinary
  else .absent

/-- An access to the `n` addresses from `a` on, in increasing order, and then `k`; the first address that is not ordinary memory
stops the step (rules R66 and R67). DEDUCED, assumption 9: the bytes written before it are not shown. -/
def withPort (s : State) (a : Nat) : Nat → Result → Result
  | 0, k => k
  | n + 1, k =>
    match portKind s a with
    | .ordinary => withPort s (a + 1) n k
    | .sideEffect => .refused .sideEffectAddress
    | .absent => .fault .unadmittedAddress

/-- How many of the `n` addresses from `a` on can be accessed before the first that stops the step. -/
def openRun (s : State) (a : Nat) : Nat → Nat
  | 0 => 0
  | n + 1 =>
    match portKind s a with
    | .ordinary => 1 + openRun s (a + 1) n
    | .sideEffect => 0
    | .absent => 0

/-! The sequencer's codes and the command held in `OP`. -/

/-- The codes of rule R86, `U_X` for micro-operation `X`. -/
abbrev uIdle : BitVec 5 := 0x00
abbrev uStart : BitVec 5 := 0x01
abbrev uSeeds : BitVec 5 := 0x02
abbrev uSplit : BitVec 5 := 0x03
abbrev uDerive : BitVec 5 := 0x04
abbrev uSeedx : BitVec 5 := 0x05
abbrev uMackey : BitVec 5 := 0x06
abbrev uSkip : BitVec 5 := 0x07
abbrev uSizechk : BitVec 5 := 0x08
abbrev uAbsaad : BitVec 5 := 0x09
abbrev uXor : BitVec 5 := 0x0a
abbrev uAbsbuf : BitVec 5 := 0x0b
abbrev uAbslen : BitVec 5 := 0x0c
abbrev uFinal : BitVec 5 := 0x0d
abbrev uCmp : BitVec 5 := 0x0e
abbrev uTagout : BitVec 5 := 0x0f
abbrev uRetok : BitVec 5 := 0x10
abbrev uRetfail : BitVec 5 := 0x11

/-- The values of `OP` (rule R35): bits 1:0 of the opcode. -/
abbrev opEnc : BitVec 2 := 0
abbrev opDec : BitVec 2 := 1
abbrev opEncc : BitVec 2 := 2
abbrev opDecc : BitVec 2 := 3

/-- `enc(OP)` of rule R35; `dec(OP)` is its negation. -/
def isEnc (op : BitVec 2) : Bool := op == opEnc || op == opEncc

/-- The codes of `CAUSE` (rules R45 and R201). -/
abbrev causeNone : BitVec 2 := 0
abbrev causeOversize : BitVec 2 := 1
abbrev causeUndersize : BitVec 2 := 2
abbrev causeAuthfail : BitVec 2 := 3

/-! The regions of an AEAD command (rules R61 and R73). -/

/-- The length of region `W`: `BUF_LEN + 16` for `ENCC`, else `BUF_LEN` (rule R61). -/
def span (op : BitVec 2) (s : State) : Nat := s.bufLen.toNat + if op = opEncc then Config.tagBytes else 0

/-- A region with side effects of the map shares an address with the range. -/
def touchesSideEffect (s : State) (a n : Nat) : Bool :=
  s.memMap.any fun r => r.kind == .sideEffect && overlaps a n r.base r.size

/-- The duties of rule R73 (a) and (b) and of rule R67, and which of them is breached. -/
def dutyBreach (op : BitVec 2) (s : State) : Option Refusal :=
  let w := s.bufAddr.toNat
  let a := s.aadAddr.toNat
  if Config.addrSpace < w + span op s || Config.addrSpace < a + s.aadLen.toNat then some .regionWrap
  else if overlaps w (span op s) a s.aadLen.toNat then some .regionOverlap
  else if touchesSideEffect s w (span op s) || touchesSideEffect s a s.aadLen.toNat then some .sideEffectAddress
  else none

/-! The shared outcomes. -/

/-- `raise Fail(c)` (rules R11 and R203), the ACO's one exception entry: it saves the cause and goes to `RETFAIL`. Nothing else
is saved and no mode changes (rule R206). -/
def raiseFail (c : BitVec 2) (s : State) : State := { s with cause := c, phase := uRetfail }

/-- Rejection of a `CMD` write (rule R208). -/
def reject (s : State) : State :=
  { s with status := { s.status with cmderr := true, done := false, fail := false } }

/-- `end_of_operation()` (rule R155): `zeroize(EPH)` and `NONCE <- 0^24`. -/
def endOfOperation (s : State) : State := { s with eph := Eph.reset, nonce := Bytes.zero 24 }

/-- The return from a command, common to `RETOK` and `RETFAIL` (rules R154 and R156): the result length, the outcome, the close of
the operation and the idle sequencer. -/
def returnWith (len : BitVec 64) (ok : Bool) (s : State) : State :=
  { endOfOperation s with
    resLen := len
    status := { s.status with done := ok, fail := !ok }
    phase := uIdle }

/-- Acceptance of an AEAD command (rule R145): rejection without a key, refusal of a breach of the region duties, else `OP`
latched, `CMDERR` cleared and the sequencer started. -/
def acceptAead (op : BitVec 2) (s : State) : Result :=
  if !s.status.kv then .next (reject s)
  else
    match dutyBreach op s with
    | some r => .refused r
    | none => .next { s with op := op, status := { s.status with cmderr := false }, phase := uStart }

/-- The outcome of an accepted key command (rules R176 to R178): the key valid and variant flags as given, `DONE` set, `FAIL`,
`CMDERR` and `CAUSE` cleared, and `KEYIN` cleared. -/
def finishKeyCommand (key : Bytes 32) (kv xn : Bool) (s : State) : State :=
  { s with
    key := key
    keyin := Bytes.zero 32
    status := ⟨kv, xn, true, false, false⟩
    cause := causeNone }

end Sys2Proof.Machine
end

