-- ==== Sys2Proof/Machine/AeadCommands.lean ====
section
/-!
DEFINITION. The AEAD commands and the micro-operations that open and close one (44_aead_commands.md). A command's own step is its
acceptance (rule R145); the micro-operations that follow, each a step of its own, are what rule R146 runs until `PHASE` is
`U_IDLE` again.
-/

namespace Sys2Proof.Machine

/-- `ENC` (rules R145 and R149). -/
def execEnc (s : State) : Result := acceptAead opEnc s

/-- `DEC` (rules R145 and R150). -/
def execDec (s : State) : Result := acceptAead opDec s

/-- `ENCC` (rules R145 and R152). -/
def execEncc (s : State) : Result := acceptAead opEncc s

/-- `DECC` (rules R145 and R153). -/
def execDecc (s : State) : Result := acceptAead opDecc s

/-- `U_IDLE` (rule R29): the sequencer has nothing to do and waits for the host. DEDUCED, assumption 4: a step in which neither
agent acts changes nothing. -/
def execUIdle (s : State) : Result := .next s

/-- The start of `START` (rule R148): the outcome of the previous command cleared. -/
def clearOutcome (s : State) : State :=
  { s with status := { s.status with done := false, fail := false }, cause := causeNone }

/-- The successor of `START` (rules R146 and R148): the seed mapper of the variant. -/
def seedPhase (s : State) : BitVec 5 := if s.status.xn then uSplit else uSeeds

/-- `START` (rule R148). -/
def execStart (s : State) : Result :=
  let s := clearOutcome s
  if s.op = opDecc then
    if s.bufLen.toNat < Config.tagBytes then .next (raiseFail causeUndersize s)
    else
      let mlen := s.bufLen - 16
      let at_ := s.bufAddr.toNat + mlen.toNat
      withPort s at_ Config.tagBytes <| .next
        { s with
          eph := { s.eph with mlen := mlen, ctag := Bytes.ofList 16 (Mem.readRange s.mem at_ Config.tagBytes) }
          phase := seedPhase s }
  else
    .next
      { s with
        eph := { s.eph with mlen := s.bufLen, ctag := if s.op = opDec then s.tag else s.eph.ctag }
        phase := seedPhase s }

/-- The result length of `RETOK` (rule R154). -/
def resultLength (s : State) : BitVec 64 := if s.op = opEncc then s.eph.mlen + 16 else s.eph.mlen

/-- `RETOK` (rule R154). -/
def execRetok (s : State) : Result := .next (returnWith (resultLength s) true s)

/-- `RETFAIL` (rule R156). -/
def execRetfail (s : State) : Result := .next (returnWith 0 false s)

end Sys2Proof.Machine
end

