-- ==== Sys2Proof/Machine/Comparator.lean ====
section
/-!
DEFINITION. The constant-time tag comparator and the tag output (43_tag_comparator.md): `CMP`, `TAGOUT`.
-/

namespace Sys2Proof.Machine

/-- The fold of `CMP` (rule R136): every byte pair XORed and ORed into the accumulator, with no exit before the last. -/
def foldDiff (a b : List Byte) : BitVec 8 := (xorList a b).foldl (· ||| ·) 0#8

/-- `CMP` (rule R136). -/
def execCmp (s : State) : Result :=
  let diff := foldDiff s.eph.etag.data s.eph.ctag.data
  let eq : BitVec 1 := if diff = 0 then 1 else 0
  let s := { s with eph := { s.eph with diff := diff, eq := eq } }
  if eq = 1 then .next { s with phase := uXor } else .next (raiseFail causeAuthfail s)

/-- `TAGOUT` (rule R138). -/
def execTagout (s : State) : Result :=
  if s.op = opEnc then .next { s with tag := s.eph.etag, phase := uRetok }
  else
    let at_ := s.bufAddr.toNat + s.eph.mlen.toNat
    withPort s at_ Config.tagBytes <| .next { s with mem := Mem.writeRange s.mem at_ s.eph.etag.data, phase := uRetok }

end Sys2Proof.Machine
end

