-- ==== Sys2Proof/Machine/KeyCommands.lean ====
section
/-!
DEFINITION. The key commands (46_key_commands.md): `NOP`, `KEYLOAD.S`, `KEYLOAD.X`, `ZEROIZE`. Each is one step and leaves
`PHASE` as it is.
-/

namespace Sys2Proof.Machine

/-- `NOP` (rule R175): nothing changes. -/
def execNop (s : State) : Result := .next s

/-- `KEYLOAD.S` (rule R176). -/
def execKeyloadS (s : State) : Result := .next (finishKeyCommand s.keyin true false s)

/-- `KEYLOAD.X` (rule R177). -/
def execKeyloadX (s : State) : Result := .next (finishKeyCommand s.keyin true true s)

/-- `ZEROIZE` (rule R178). -/
def execZeroize (s : State) : Result := .next (finishKeyCommand (Bytes.zero 32) false false s)

end Sys2Proof.Machine
end

