-- ==== Sys2Proof/Machine/Primitives.lean ====
section
/-!
DEFINITION. The primitive ports `KS`, `MACFN` and `KDF` (47_primitive_ports.md rules R185 to R188) as one record of pure total
functions, and the record the machine runs with: the uninterpreted constants of Config.
-/

namespace Sys2Proof.Machine

/-- A value of the three parameters (rule R185). -/
structure Prims where
  /-- `KS : Bytes32 x Bytes12 x {0..2^32-1} -> Bytes64` (rule R186). -/
  ks : Bytes 32 → Bytes 12 → BitVec 32 → Bytes 64
  /-- `MACFN : Bytes32 x ByteString -> Bytes16` (rule R187). -/
  macfn : Bytes 32 → List Byte → Bytes 16
  /-- `KDF : Bytes32 x Bytes16 -> Bytes32` (rule R188). -/
  kdf : Bytes 32 → Bytes 16 → Bytes 32

/-- The parameters of this machine: nothing is known of them but that they depend on their arguments alone. -/
def openPrims : Prims where
  ks k n c := Bytes.ofFn (Config.KS k n c)
  macfn k m := Bytes.ofFn (Config.MACFN k m)
  kdf k s := Bytes.ofFn (Config.KDF k s)

end Sys2Proof.Machine
end

