-- ==== Sys2Proof/Machine/Keystream.lean ====
section
/-!
DEFINITION. The keystream (42_keystream_sequencer.md) and the engine construction (40_engine_construction.md): the keystream-byte
primitive, `MACKEY`, `SKIP` and `XOR`.
-/

namespace Sys2Proof.Machine

/-- `ksbyte()` (rule R127): the byte at the position, and the position advanced; `OFF` is 6 bits and `CTR` 32, so both wrap as
the rule says. -/
def ksbyte (P : Prims) (e : Eph) : Byte × Eph :=
  let b := (P.ks e.seedKey e.seedNonce e.ctr).get e.off.toNat
  let off := e.off + 1
  (b, { e with off := off, ctr := if off = 0 then e.ctr + 1 else e.ctr })

/-- `n` calls of `ksbyte()` in order. -/
def ksbytes (P : Prims) : Nat → Eph → List Byte × Eph
  | 0, e => ([], e)
  | n + 1, e =>
    let (b, e1) := ksbyte P e
    let (rest, e2) := ksbytes P n e1
    (b :: rest, e2)

/-- `MACKEY` over a value of the parameters (rule R101): 32 keystream bytes XORed into the zeroed scratch, which becomes the MAC
key and is cleared again; the MAC is instantiated. -/
def mackeyOn (P : Prims) (s : State) : Result :=
  let (ks, e) := ksbytes P 32 { s.eph with scratch := Bytes.zero 32 }
  let scratch := Bytes.ofList 32 (xorList e.scratch.data ks)
  .next { s with eph := { e with mackey := scratch, scratch := Bytes.zero 32, macmsg := [] }, phase := uSkip }

/-- `MACKEY` (rule R101). -/
def execMackey (s : State) : Result := mackeyOn openPrims s

/-- `SKIP` (rule R102): an absolute write of the position. -/
def execSkip (s : State) : Result :=
  .next { s with eph := { s.eph with ctr := BitVec.ofNat 32 Config.msgFirstCtr, off := 0 }, phase := uSizechk }

/-- The loop of `XOR` (rule R128): `n` bytes from address `a` on, each read, XORed with the next keystream byte and written
back. -/
def xorBytes (P : Prims) : Nat → Nat → State → State
  | 0, _, s => s
  | n + 1, a, s =>
    let b := Mem.read s.mem a
    let (k, e) := ksbyte P s.eph
    xorBytes P n (a + 1) { s with mem := Mem.write s.mem a (b ^^^ k), eph := e }

/-- `XOR` over a value of the parameters (rule R128). -/
def xorOn (P : Prims) (s : State) : Result :=
  withPort s s.bufAddr.toNat s.eph.mlen.toNat <| .next
    { xorBytes P s.eph.mlen.toNat s.bufAddr.toNat s with phase := if isEnc s.op then uAbsbuf else uRetok }

/-- `XOR` (rule R128). -/
def execXor (s : State) : Result := xorOn openPrims s

end Sys2Proof.Machine
end

