-- ==== Sys2Proof/Machine/MacProcessor.lean ====
section
/-!
DEFINITION. The size check and the padding and length-binding processor (41_mac_processor.md): `SIZECHK`, `ABSAAD`, `ABSBUF`,
`ABSLEN`, `FINAL`.
-/

namespace Sys2Proof.Machine

/-- `absorb(s)` (rule R110). -/
def absorb (bytes : List Byte) (e : Eph) : Eph := { e with macmsg := e.macmsg ++ bytes }

/-- `absorb_padded(s)` (rule R110): zero bytes up to the next 16-byte boundary. -/
def absorbPadded (bytes : List Byte) (e : Eph) : Eph := absorb (bytes ++ zeros (pad16 bytes.length)) e

/-- `SIZECHK` (rule R111). -/
def execSizechk (s : State) : Result :=
  if Config.maxBlocks ≤ nblk s.eph.mlen.toNat then .next (raiseFail causeOversize s)
  else .next { s with phase := uAbsaad }

/-- `ABSAAD` (rule R113). -/
def execAbsaad (s : State) : Result :=
  withPort s s.aadAddr.toNat s.aadLen.toNat <| .next
    { s with
      eph := absorbPadded (Mem.readRange s.mem s.aadAddr.toNat s.aadLen.toNat) s.eph
      phase := if isEnc s.op then uXor else uAbsbuf }

/-- `ABSBUF` (rule R114). -/
def execAbsbuf (s : State) : Result :=
  withPort s s.bufAddr.toNat s.eph.mlen.toNat <| .next
    { s with
      eph := absorbPadded (Mem.readRange s.mem s.bufAddr.toNat s.eph.mlen.toNat) s.eph
      phase := uAbslen }

/-- `ABSLEN` (rule R115). -/
def execAbslen (s : State) : Result :=
  .next { s with eph := absorb (le64 s.eph.mlen) (absorb (le64 s.aadLen) s.eph), phase := uFinal }

/-- `FINAL` over a value of the parameters (rule R116). -/
def finalOn (P : Prims) (s : State) : Result :=
  .next
    { s with
      eph := { s.eph with etag := P.macfn s.eph.mackey s.eph.macmsg }
      phase := if isEnc s.op then uTagout else uCmp }

/-- `FINAL` (rule R116). -/
def execFinal (s : State) : Result := finalOn openPrims s

/-- The MAC input as a whole (rule R117). -/
def macInput (aad ciphertext : List Byte) (aadLen mlen : BitVec 64) : List Byte :=
  aad ++ zeros (pad16 aad.length) ++ ciphertext ++ zeros (pad16 ciphertext.length) ++ le64 aadLen ++ le64 mlen

end Sys2Proof.Machine
end

