-- ==== Sys2Proof/Machine/SeedMapper.lean ====
section
/-!
DEFINITION. The nonce-to-keystream-seed mapper and the subkey-derivation scheduler (45_seed_mapper.md): `SEEDS`, `SPLIT`,
`DERIVE`, `SEEDX`.
-/

namespace Sys2Proof.Machine

/-- `SEEDS` (rule R165). -/
def execSeeds (s : State) : Result :=
  .next
    { s with
      eph := { s.eph with seedKey := s.key, seedNonce := s.nonce.slice 0 12, ctr := 0, off := 0 }
      phase := uMackey }

/-- `SPLIT` (rule R166). -/
def execSplit (s : State) : Result :=
  .next { s with eph := { s.eph with salt := s.nonce.slice 0 16, inner := s.nonce.slice 16 8 }, phase := uDerive }

/-- `DERIVE` over a value of the parameters (rule R167). -/
def deriveOn (P : Prims) (s : State) : Result :=
  .next { s with eph := { s.eph with subkey := P.kdf s.key s.eph.salt }, phase := uSeedx }

/-- `DERIVE` (rule R167). -/
def execDerive (s : State) : Result := deriveOn openPrims s

/-- The inner nonce `0^4 ‖ INNER` (rule R168). -/
def innerNonce (inner : Bytes 8) : Bytes 12 := Bytes.ofList 12 (zeros 4 ++ inner.data)

/-- `SEEDX` (rule R168). -/
def execSeedx (s : State) : Result :=
  .next
    { s with
      eph :=
        { s.eph with
          seedKey := s.eph.subkey, seedNonce := innerNonce s.eph.inner, ctr := 0, off := 0
          subkey := Bytes.zero 32, salt := Bytes.zero 16, inner := Bytes.zero 8 }
      phase := uMackey }

/-- The seed mapper as one function of `KEY`, `XN` and `NONCE` (rule R169): the seed key. -/
def seedKeyOf (P : Prims) (key : Bytes 32) (xn : Bool) (nonce : Bytes 24) : Bytes 32 :=
  if xn then P.kdf key (nonce.slice 0 16) else key

/-- The seed mapper as one function of `XN` and `NONCE` (rule R169): the seed nonce. -/
def seedNonceOf (xn : Bool) (nonce : Bytes 24) : Bytes 12 :=
  if xn then innerNonce (nonce.slice 16 8) else nonce.slice 0 12

end Sys2Proof.Machine
end

