-- ==== Sys2Proof/Machine/Dispatch.lean ====
section
/-! DEFINITION. One arm per instruction of the opcode table. -/

namespace Sys2Proof.Machine

def exec (i : Instr) (s : State) : Host.Outcome State Fault Refusal :=
  match i with
  | .nop => Sys2Proof.Machine.execNop s
  | .keyloadS => Sys2Proof.Machine.execKeyloadS s
  | .keyloadX => Sys2Proof.Machine.execKeyloadX s
  | .zeroize => Sys2Proof.Machine.execZeroize s
  | .enc => Sys2Proof.Machine.execEnc s
  | .dec => Sys2Proof.Machine.execDec s
  | .encc => Sys2Proof.Machine.execEncc s
  | .decc => Sys2Proof.Machine.execDecc s
  | .uIdle => Sys2Proof.Machine.execUIdle s
  | .start => Sys2Proof.Machine.execStart s
  | .seeds => Sys2Proof.Machine.execSeeds s
  | .split => Sys2Proof.Machine.execSplit s
  | .derive => Sys2Proof.Machine.execDerive s
  | .seedx => Sys2Proof.Machine.execSeedx s
  | .mackey => Sys2Proof.Machine.execMackey s
  | .skip => Sys2Proof.Machine.execSkip s
  | .sizechk => Sys2Proof.Machine.execSizechk s
  | .absaad => Sys2Proof.Machine.execAbsaad s
  | .xor => Sys2Proof.Machine.execXor s
  | .absbuf => Sys2Proof.Machine.execAbsbuf s
  | .abslen => Sys2Proof.Machine.execAbslen s
  | .final => Sys2Proof.Machine.execFinal s
  | .cmp => Sys2Proof.Machine.execCmp s
  | .tagout => Sys2Proof.Machine.execTagout s
  | .retok => Sys2Proof.Machine.execRetok s
  | .retfail => Sys2Proof.Machine.execRetfail s

end Sys2Proof.Machine
end

