-- ==== Sys2Proof/WellFormed.lean ====
section
/-!
DEFINITION. Which terms the spec gives a meaning to. An instruction has no operand field (30_encoding.md rules R83 and R86), so
every term of Instr is well-formed; the checks are on what the host writes down: register accesses (20_memory.md rule R65),
its own memory stores (rule R60) and assembler statements (rules R89 and R90).
-/

namespace Sys2Proof

/-- Rule R65: a register access is 32 bits wide, inside the window, at an offset that is a multiple of 4. -/
def regAccessOk (width : AccessWidth) (offset : Nat) : Bool :=
  width == .word && decide (offset < Config.windowBytes) && offset % 4 == 0

/-- A host action the spec gives a meaning: an access of rule R65, or a store inside the data space of rule R60. -/
def HostAct.wf : HostAct → Bool
  | .write width offset _ => regAccessOk width offset
  | .read width offset => regAccessOk width offset
  | .mem addr bytes => decide (addr.toNat + bytes.length ≤ Config.addrSpace)

/-- `CMD` issues a command, never a micro-operation (rules R81 and R89). -/
def Instr.isCommand (i : Instr) : Bool := i.format == .cmd

/-- The operand forms of the assembler (rules R89 and R90): `SET` names one of the four host-writable 64-bit registers, `SETB` a
byte string of the register's length (12 or 24 bytes for `NONCE`). -/
def Asm.wf : Asm → Bool
  | .cmd i => i.isCommand
  | .wrw offset _ => regAccessOk .word offset
  | .rdw offset => regAccessOk .word offset
  | .mem addr bytes => decide (addr.toNat + bytes.length ≤ Config.addrSpace)
  | .set r _ => r != .resLen
  | .setbNonce bytes => bytes.length == 12 || bytes.length == 24
  | .setbTag bytes => bytes.length == 16
  | .setbKeyin bytes => bytes.length == 32
  | .get _ => true
  | .getbTag => true
  | .gets => true

end Sys2Proof
end

