-- ==== Sys2Proof/Decode.lean ====
section
/-!
DEFINITION. Decoding a command word (30_encoding.md rules R80 to R82) and a micro-operation code (rules R86 and R87), total on
any bytes and rejecting by name; after it the encoder, written from the word and code columns of the same rules, and the
assembler's encoding of a host program (rules R85, R89 and R90).
-/

namespace Sys2Proof

/-- Why a word is no instruction. -/
inductive DecodeError where
  /-- The byte string is not of the format's length. -/
  | badLength
  /-- Rule R82: `RSV != 0`. -/
  | reservedBits
  /-- Rule R82: `OPC` is none of the eight values of rule R81. -/
  | illegalOpcode
  /-- Rule R87: a reserved micro-operation code. -/
  | reservedCode
deriving DecidableEq, Repr

/-- The `OPC` column of rule R81. -/
def cmdTable : List (BitVec 8 × Instr) :=
  [(0x00#8, .nop), (0x01#8, .keyloadS), (0x02#8, .keyloadX), (0x03#8, .zeroize),
   (0x10#8, .enc), (0x11#8, .dec), (0x12#8, .encc), (0x13#8, .decc)]

/-- The code column of rule R86. -/
def uopTable : List (BitVec 5 × Instr) :=
  [(0x00#5, .uIdle), (0x01#5, .start), (0x02#5, .seeds), (0x03#5, .split), (0x04#5, .derive), (0x05#5, .seedx),
   (0x06#5, .mackey), (0x07#5, .skip), (0x08#5, .sizechk), (0x09#5, .absaad), (0x0a#5, .xor), (0x0b#5, .absbuf)]
  ++
  [(0x0c#5, .abslen), (0x0d#5, .final), (0x0e#5, .cmp), (0x0f#5, .tagout), (0x10#5, .retok), (0x11#5, .retfail)]

/-- The instruction a table gives for a code. -/
def lookupCode {n : Nat} (table : List (BitVec n × Instr)) (c : BitVec n) : Option Instr :=
  (table.find? fun row => row.1 == c).map (·.2)

/-- Format CMD (rules R80 and R82): bits 31:8 are `RSV` and must be 0, bits 7:0 are `OPC`. -/
def decodeCmd (w : BitVec 32) : Except DecodeError Instr :=
  if w.extractLsb' 8 24 ≠ 0#24 then .error .reservedBits
  else
    match lookupCode cmdTable (w.extractLsb' 0 8) with
    | some i => .ok i
    | none => .error .illegalOpcode

/-- Format UOP (rules R86 and R87): the 5-bit value of `PHASE`. -/
def decodeUop (c : BitVec 5) : Except DecodeError Instr :=
  match lookupCode uopTable c with
  | some i => .ok i
  | none => .error .reservedCode

/-- The 32-bit word of four bytes, byte 0 the least significant (rule R30). -/
def wordOfBytes (b0 b1 b2 b3 : Byte) : BitVec 32 := b3 ++ b2 ++ b1 ++ b0

/-- Byte `i` of a word, byte 0 the least significant (rule R30). -/
def wordByte (w : BitVec 32) (i : Nat) : Byte := w.extractLsb' (8 * i) 8

/-- Decoding bytes as they stand at the interface: a command is the four bytes of one register word (rules R30 and R80), a
micro-operation code one byte whose three high bits are 0. -/
def decode (f : Format) (bytes : List Byte) : Except DecodeError Instr :=
  match f, bytes with
  | .cmd, [b0, b1, b2, b3] => decodeCmd (wordOfBytes b0 b1 b2 b3)
  | .uop, [b] => if b.extractLsb' 5 3 ≠ 0#3 then .error .reservedCode else decodeUop (b.extractLsb' 0 5)
  | _, _ => .error .badLength

/-- The instruction of an opcode-table row's word. A row of format UOP is 5 bits, one byte when counted in whole bytes; every
other row is a 32-bit word of format CMD. -/
def decodeTableWord (nbits w : Nat) : Option Instr :=
  let bytes : List Byte := if nbits ≤ 8 then [BitVec.ofNat 8 w] else (List.range 4).map fun i => BitVec.ofNat 8 (w / 256 ^ i)
  let limit := if nbits ≤ 8 then 256 else 2 ^ 32
  if limit ≤ w then none
  else (decode (if nbits ≤ 8 then .uop else .cmd) bytes).toOption

/-! The encoder. -/

/-- The word column of rule R81. -/
def encodeCmd : Instr → Option (BitVec 32)
  | .nop => some 0x00000000#32
  | .keyloadS => some 0x00000001#32
  | .keyloadX => some 0x00000002#32
  | .zeroize => some 0x00000003#32
  | .enc => some 0x00000010#32
  | .dec => some 0x00000011#32
  | .encc => some 0x00000012#32
  | .decc => some 0x00000013#32
  | .uIdle | .start | .seeds | .split | .derive | .seedx | .mackey | .skip | .sizechk | .absaad | .xor | .absbuf
  | .abslen | .final | .cmp | .tagout | .retok | .retfail => none

/-- The code column of rule R86. -/
def encodeUop : Instr → Option (BitVec 5)
  | .uIdle => some 0x00#5
  | .start => some 0x01#5
  | .seeds => some 0x02#5
  | .split => some 0x03#5
  | .derive => some 0x04#5
  | .seedx => some 0x05#5
  | .mackey => some 0x06#5
  | .skip => some 0x07#5
  | .sizechk => some 0x08#5
  | .absaad => some 0x09#5
  | .xor => some 0x0a#5
  | .absbuf => some 0x0b#5
  | .abslen => some 0x0c#5
  | .final => some 0x0d#5
  | .cmp => some 0x0e#5
  | .tagout => some 0x0f#5
  | .retok => some 0x10#5
  | .retfail => some 0x11#5
  | .nop | .keyloadS | .keyloadX | .zeroize | .enc | .dec | .encc | .decc => none

/-- The bytes of an instruction, as `decode` takes them. -/
def encode (i : Instr) : List Byte :=
  match encodeCmd i, encodeUop i with
  | some w, _ => (List.range 4).map (wordByte w)
  | none, some c => [c.setWidth 8]
  | none, none => []

/-! The encoding of a host program. -/

/-- The window offset of the low word of a 64-bit operand register: `0x10 + 8*i` (rule R84). -/
def NumReg.offset (r : NumReg) : Nat := 0x10 + 8 * r.index

/-- The words of a byte string, four bytes a word, packed little-endian (rule R30); a last group of fewer than four bytes, which
no well-formed statement has, is dropped. -/
def packWords : List Byte → List (BitVec 32)
  | b0 :: b1 :: b2 :: b3 :: rest => wordOfBytes b0 b1 b2 b3 :: packWords rest
  | _ => []

/-- Word writes in increasing offset order, from `offset` on. -/
def writeWords (offset : Nat) : List (BitVec 32) → List HostAct
  | [] => []
  | w :: rest => .write .word offset w :: writeWords (offset + 4) rest

/-- The host actions of one statement (rules R89 and R90); none for a statement that is not well-formed. -/
def assemble (a : Asm) : Option (List HostAct) :=
  if !a.wf then none
  else
    match a with
    | .cmd i => (encodeCmd i).map fun w => [.write .word 0x00 w]
    | .wrw offset w => some [.write .word offset w]
    | .rdw offset => some [.read .word offset]
    | .mem addr bytes => some [.mem addr bytes]
    | .set r v => some (writeWords r.offset [v.extractLsb' 0 32, v.extractLsb' 32 32])
    | .setbNonce bytes => some (writeWords 0x40 (packWords bytes))
    | .setbTag bytes => some (writeWords 0x60 (packWords bytes))
    | .setbKeyin bytes => some (writeWords 0x80 (packWords bytes))
    | .get r => some [.read .word r.offset, .read .word (r.offset + 4)]
    | .getbTag => some [.read .word 0x60, .read .word 0x64, .read .word 0x68, .read .word 0x6c]
    | .gets => some [.read .word 0x04]

/-- The bus transactions of a program, in order (rule R85). -/
def assembleAll : List Asm → Option (List HostAct)
  | [] => some []
  | a :: rest => do
    let here ← assemble a
    let later ← assembleAll rest
    return here ++ later

end Sys2Proof
end

