-- ==== Sys2Proof/Machine/Flags.lean ====
section
/-!
DEFINITION. The `STATUS` word the host reads (10_state.md rule R32). The flag updates are in the shared outcomes of Ops.lean:
rejection, acceptance, return and key command.
-/

namespace Sys2Proof.Machine

/-- A flag as a one-bit field. -/
def flagBit (b : Bool) : BitVec 1 := if b then 1#1 else 0#1

/-- The `STATUS` word of rule R32: bit 0 `KV`, bit 1 `XN`, bit 2 `DONE`, bit 3 `FAIL`, bit 4 `CMDERR`, bits 31:5 read 0. -/
def statusWord (st : Status) : BitVec 32 :=
  0#27 ++ flagBit st.cmderr ++ flagBit st.fail ++ flagBit st.done ++ flagBit st.xn ++ flagBit st.kv

end Sys2Proof.Machine
end

