-- ==== Sys2Proof/Machine/Operands.lean ====
section
/-!
DEFINITION. The operand registers as the host reaches them: the register map of 10_state.md rule R30, the packing of 64-bit and
byte-array registers into 32-bit words, and the access rights of 60_exceptions.md rule R216.
-/

namespace Sys2Proof.Machine

/-- What a window offset names (rule R30). -/
inductive HostReg where
  | cmd
  | status
  /-- A word of a 64-bit register; `high` is the word at the upper offset. -/
  | num (r : NumReg) (high : Bool)
  /-- Word `j` of `NONCE`. -/
  | nonce (j : Nat)
  /-- Word `j` of `TAG`. -/
  | tag (j : Nat)
  /-- Word `j` of `KEYIN`. -/
  | keyin (j : Nat)
  | reserved
deriving DecidableEq, Repr

/-- The 64-bit register number `i` (rule R84). -/
def numReg (i : Nat) : Option NumReg := [NumReg.bufAddr, .bufLen, .aadAddr, .aadLen, .resLen][i]?

/-- The register map of rule R30, on an offset that is a multiple of 4. -/
def hostReg (offset : Nat) : HostReg :=
  if offset = 0x00 then .cmd
  else if offset = 0x04 then .status
  else if 0x10 ≤ offset ∧ offset < 0x38 then
    match numReg ((offset - 0x10) / 8) with
    | some r => .num r ((offset - 0x10) / 4 % 2 == 1)
    | none => .reserved
  else if 0x40 ≤ offset ∧ offset < 0x58 then .nonce ((offset - 0x40) / 4)
  else if 0x60 ≤ offset ∧ offset < 0x70 then .tag ((offset - 0x60) / 4)
  else if 0x80 ≤ offset ∧ offset < 0xa0 then .keyin ((offset - 0x80) / 4)
  else .reserved

/-- `x[i]` (rules R10 and R84). -/
def readNum (s : State) : NumReg → BitVec 64
  | .bufAddr => s.bufAddr
  | .bufLen => s.bufLen
  | .aadAddr => s.aadAddr
  | .aadLen => s.aadLen
  | .resLen => s.resLen

/-- `x[i] <- v` by the host; `RES_LEN` is read-only and the write is ignored (rule R26). -/
def writeNum (s : State) (r : NumReg) (v : BitVec 64) : State :=
  match r with
  | .bufAddr => { s with bufAddr := v }
  | .bufLen => { s with bufLen := v }
  | .aadAddr => { s with aadAddr := v }
  | .aadLen => { s with aadLen := v }
  | .resLen => s

/-- One word of a 64-bit register (rule R30: the low word at the lower offset). -/
def numWord (v : BitVec 64) (high : Bool) : BitVec 32 := if high then v.extractLsb' 32 32 else v.extractLsb' 0 32

/-- A 64-bit register with one word replaced; the other word keeps its value (rule R30). -/
def setNumWord (v : BitVec 64) (high : Bool) (w : BitVec 32) : BitVec 64 :=
  if high then w ++ v.extractLsb' 0 32 else v.extractLsb' 32 32 ++ w

/-- Word `j` of a byte array, byte `4j` the least significant (rule R30). -/
def arrayWord {n : Nat} (b : Bytes n) (j : Nat) : BitVec 32 :=
  wordOfBytes (b.get (4 * j)) (b.get (4 * j + 1)) (b.get (4 * j + 2)) (b.get (4 * j + 3))

/-- A byte array with word `j` replaced. -/
def setArrayWord {n : Nat} (b : Bytes n) (j : Nat) (w : BitVec 32) : Bytes n :=
  (((b.set (4 * j) (wordByte w 0)).set (4 * j + 1) (wordByte w 1)).set (4 * j + 2) (wordByte w 2)).set
    (4 * j + 3) (wordByte w 3)

/-- What the host reads at an offset (rules R30 and R216): `CMD`, `KEYIN` and reserved offsets read 0. -/
def readReg (s : State) (offset : Nat) : BitVec 32 :=
  match hostReg offset with
  | .cmd => 0
  | .status => statusWord s.status
  | .num r high => numWord (readNum s r) high
  | .nonce j => arrayWord s.nonce j
  | .tag j => arrayWord s.tag j
  | .keyin _ => 0
  | .reserved => 0

/-- What a host write to an offset other than `CMD` does (rules R30 and R216): `STATUS`, `RES_LEN` and reserved offsets ignore
it. A write to `CMD` is the issue of a command and is taken by HostPort.lean. -/
def writeReg (s : State) (offset : Nat) (w : BitVec 32) : State :=
  match hostReg offset with
  | .cmd => s
  | .status => s
  | .num r high => writeNum s r (setNumWord (readNum s r) high w)
  | .nonce j => { s with nonce := setArrayWord s.nonce j w }
  | .tag j => { s with tag := setArrayWord s.tag j w }
  | .keyin j => { s with keyin := setArrayWord s.keyin j w }
  | .reserved => s

end Sys2Proof.Machine
end

