-- ==== Sys2Proof/Machine/HostPort.lean ====
section
/-!
DEFINITION. The host's actions (00_scope.md rule R14, 30_encoding.md rule R85): register reads and writes, the issue of a command
by a write to `CMD` (10_state.md rule R31), and the host's own stores into the data memory (rule R89).
-/

namespace Sys2Proof.Machine

/-- The issue of the command word `w` (rules R31 and R82): a legal word runs its command, any other is rejected (rule R208). -/
def issue (run : Instr → State → Result) (w : BitVec 32) (s : State) : Result :=
  match decodeCmd w with
  | .ok i => run i s
  | .error _ => .next (reject s)

/-- A store by the host into the memory it owns (rule R60, the `MEM` statement of rule R89). Which data addresses exist is `Mem`
(rules R60 and R66), for the host as for the ACO: assumption 13. -/
def hostStore (addr : Nat) (bytes : List Byte) (s : State) : Result :=
  withPort s addr bytes.length <| .next { s with mem := Mem.writeRange s.mem addr bytes }

/-- One action of the host. -/
def hostAct (run : Instr → State → Result) (a : HostAct) (s : State) : Result :=
  match a with
  | .write width offset w =>
    if !regAccessOk width offset then .refused .badRegisterAccess
    else if offset = 0x00 then issue run w s
    else .next (writeReg s offset w)
  | .read width offset =>
    if !regAccessOk width offset then .refused .badRegisterAccess
    else .next { s with hostR := s.hostR ++ [readReg s offset] }
  | .mem addr bytes => hostStore addr.toNat bytes s

end Sys2Proof.Machine
end

