-- ==== Sys2Proof/Machine/Sequencer.lean ====
section
/-!
DEFINITION. Which agent acts (00_scope.md rule R14), the fetch of a micro-operation by `PHASE` (10_state.md rule R29), and the
platform's reset (70_reset_and_hazards.md rules R225 and R226).
-/

namespace Sys2Proof.Machine

/-- Every register of the ACO at its reset value (rules R47 and R225); the data memory and the host keep what they have. -/
def resetRegisters (s : State) : State :=
  { State.reset with
    mem := s.mem, memMap := s.memMap, hostQ := s.hostQ, hostR := s.hostR, resets := s.resets, freeCount := s.freeCount }

/-- The data memory as a reset that arrives during the micro-operation finds it (rule R226): some first part of the bytes that
`XOR`, or `TAGOUT` of a combined command, writes has been written. How many is the free value `k`. -/
def interruptedMem (P : Prims) (k : Nat) (s : State) : List Host.Cell :=
  if s.phase = uXor then
    let n := openRun s s.bufAddr.toNat s.eph.mlen.toNat
    (xorBytes P (k % (n + 1)) s.bufAddr.toNat s).mem
  else if s.phase = uTagout ∧ s.op ≠ opEnc then
    let at_ := s.bufAddr.toNat + s.eph.mlen.toNat
    let n := openRun s at_ Config.tagBytes
    Mem.writeRange s.mem at_ (s.eph.etag.data.take (k % (n + 1)))
  else s.mem

/-- The platform's reset, at any time (rules R225 and R226). The reset taken leaves those that follow it, so a run holds as
many as the list says (assumption 5). -/
def platformResetOn (P : Prims) (s : State) : State :=
  { resetRegisters s with
    mem := interruptedMem P (Config.resetPoint s.freeCount) s
    resets := s.resets.tail
    freeCount := s.freeCount + 1 }

/-- The platform's reset. -/
def platformReset (s : State) : State := platformResetOn openPrims s

/-- The micro-operation `PHASE` names (rules R29 and R86); a reserved code has no meaning (rule R87). -/
def microStep (run : Instr → State → Result) (s : State) : Result :=
  match decodeUop s.phase with
  | .ok i => run i s
  | .error _ => .refused .reservedPhase

/-- One step of the agent whose turn it is (rule R14): while `PHASE = U_IDLE` the host's next action, if it has one, and the
micro-operation that `PHASE` names otherwise. -/
def agentStep (run : Instr → State → Result) (s : State) : Result :=
  if s.phase = uIdle then
    match s.hostQ with
    | [] => microStep run s
    | a :: rest => hostAct run a { s with hostQ := rest }
  else microStep run s

/-- One step: a reset that is due (rules R225 and R226), else the agent whose turn it is, one step nearer the next reset. -/
def stepWith (run : Instr → State → Result) (s : State) : Result :=
  match s.resets with
  | 0 :: _ => .next (platformReset s)
  | (n + 1) :: rest => agentStep run { s with resets := n :: rest }
  | [] => agentStep run s

/-- The state with an instruction placed where the next step fetches it: a command as the host's next write to `CMD`, with the
sequencer idle; a micro-operation as the value of `PHASE`, with no host action before `U_IDLE`. A reset
that is due, which would come before the instruction, is taken off the list. -/
def placeWord (s : State) (nbits w : Nat) : State :=
  if nbits ≤ 8 then
    { s with phase := BitVec.ofNat 5 w, hostQ := if w % 32 = 0 then [] else s.hostQ
             resets := s.resets.dropWhile (· == 0) }
  else
    { s with phase := uIdle, hostQ := .write .word 0x00 (BitVec.ofNat 32 w) :: s.hostQ
             resets := s.resets.dropWhile (· == 0) }

/-- The command as the host sees it (rule R14): steps until the sequencer is idle again, at most `fuel` of them. -/
def untilIdle (one : State → Result) : Nat → State → Result
  | 0, s => .next s
  | fuel + 1, s =>
    if s.phase = uIdle then .next s
    else
      match one s with
      | .next t => untilIdle one fuel t
      | .fault f => .fault f
      | .refused r => .refused r

end Sys2Proof.Machine
end

