-- ==== Sys2Proof/Machine/Step.lean ====
section
/-!
DEFINITION. One step of the machine, a command as one transition, and the placing of an instruction where the next step runs it.
-/

namespace Sys2Proof.Machine

/-- One step (rules R14, R29 and R226). -/
def step (s : State) : Host.Outcome State Fault Refusal := stepWith exec s

/-- Steps until the sequencer is idle, the whole of a command after its acceptance (rules R14 and R146). The longest sequence of
rule R146 has 14 micro-operations. -/
def runCommand (s : State) : Host.Outcome State Fault Refusal := untilIdle step 16 s

/-- `s` with the instruction of an opcode-table word placed where `step` fetches its next instruction. -/
def State.withFetchWord (s : State) (nbits w : Nat) : State := placeWord s nbits w

end Sys2Proof.Machine
end

