-- ==== Sys2Proof/Safety.lean ====
section
/-!
DEFINITION. What claims are stated in: the regions of a command and what the port must allow, the keystream and the MAC input as
the rules give them, what the host can see, the successor relation of 44_aead_commands.md rule R146, and the invariant that
every step keeps.
-/

namespace Sys2Proof.Machine

/-! Regions and the port. -/

/-- Address `a` lies in the `n` bytes from `b` on. -/
abbrev InRange (b n a : Nat) : Prop := b ≤ a ∧ a < b + n

/-- Every one of the `n` addresses from `a` on is ordinary memory that the port may access (rules R66 and R67). -/
abbrev PortOpen (s : State) (a n : Nat) : Prop := ∀ i, i < n → portKind s (a + i) = .ordinary

/-- Of the `n` addresses from `a` on, the first that is not ordinary memory is of kind `k` (rules R66 and R67). -/
def FirstStop (s : State) (a n : Nat) (k : PortKind) : Prop :=
  k ≠ .ordinary ∧ ∃ i, i < n ∧ PortOpen s a i ∧ portKind s (a + i) = k

/-- The address has side effects (rule R67). -/
def SideEffectAt (s : State) (a : Nat) : Prop := ∃ r ∈ s.memMap, r.kind = .sideEffect ∧ InRange r.base r.size a

/-- The host's duties for an AEAD command (rule R73 (a) and (b), rule R67), address by address. -/
structure RegionDuties (op : BitVec 2) (s : State) : Prop where
  /-- `W` does not wrap. -/
  bufFits : s.bufAddr.toNat + span op s ≤ Config.addrSpace
  /-- `A` does not wrap. -/
  aadFits : s.aadAddr.toNat + s.aadLen.toNat ≤ Config.addrSpace
  /-- `W` and `A` share no address. -/
  apart : ∀ a, InRange s.bufAddr.toNat (span op s) a → ¬ InRange s.aadAddr.toNat s.aadLen.toNat a
  /-- No address of `W` has side effects. -/
  bufPlain : ∀ a, InRange s.bufAddr.toNat (span op s) a → ¬ SideEffectAt s a
  /-- No address of `A` has side effects. -/
  aadPlain : ∀ a, InRange s.aadAddr.toNat s.aadLen.toNat a → ¬ SideEffectAt s a

/-- Both regions of the command are admitted (duty (c) of rule R73). -/
abbrev RegionsAdmitted (op : BitVec 2) (s : State) : Prop :=
  PortOpen s s.bufAddr.toNat (span op s) ∧ PortOpen s s.aadAddr.toNat s.aadLen.toNat

/-- The byte string at `n` data addresses (rule R10): byte `i` is the byte at `a + i`. -/
def bytesAt (m : List Host.Cell) (a n : Nat) : List Byte := (List.range n).map fun i => Mem.read m (a + i)

/-! The keystream and the MAC. -/

/-- The position of the keystream generator (rules R37 and R126): `64*CTR + OFF`. -/
def position (e : Eph) : Nat := 64 * e.ctr.toNat + e.off.toNat

/-- The generator moved to byte number `p` of its keystream, the block counter taken modulo `2^32` (rules R126 and R186). -/
def setPosition (e : Eph) (p : Nat) : Eph := { e with ctr := BitVec.ofNat 32 (p / 64), off := BitVec.ofNat 6 p }

/-- Keystream byte number `p` of a seed (rule R125), the block number taken modulo `2^32` (rule R126). -/
def ksStream (P : Prims) (k : Bytes 32) (n : Bytes 12) (p : Nat) : Byte :=
  (P.ks k n (BitVec.ofNat 32 (p / 64))).get (p % 64)

/-- The one-time MAC key of a seed (rule R101): bytes 0 to 31 of block 0. -/
def macKeyOf (P : Prims) (k : Bytes 32) (n : Bytes 12) : Bytes 32 := (P.ks k n 0).slice 0 32

/-- A message under the keystream of a seed from block 1 on (rules R128 and R149), either way. -/
def crypt (P : Prims) (k : Bytes 32) (n : Bytes 12) (m : List Byte) : List Byte :=
  (List.range m.length).map fun i => m.getD i 0#8 ^^^ ksStream P k n (64 + i)

/-- The tag of associated data and ciphertext under a seed (rules R116, R117 and R149). -/
def tagOf (P : Prims) (k : Bytes 32) (n : Bytes 12) (aad c : List Byte) : Bytes 16 :=
  P.macfn (macKeyOf P k n) (macInput aad c (BitVec.ofNat 64 aad.length) (BitVec.ofNat 64 c.length))

/-- The seed an AEAD command runs under in a state (rule R169). -/
def seedOf (s : State) : Bytes 32 × Bytes 12 :=
  (seedKeyOf openPrims s.key s.status.xn s.nonce, seedNonceOf s.status.xn s.nonce)

/-- The message length of a command (rules R24 and R41). -/
def messageLen (op : BitVec 2) (s : State) : Nat := if op = opDecc then s.bufLen.toNat - 16 else s.bufLen.toNat

/-- The message bytes in the buffer. -/
def message (op : BitVec 2) (s : State) : List Byte := bytesAt s.mem s.bufAddr.toNat (messageLen op s)

/-- The associated data. -/
def aadBytes (s : State) : List Byte := bytesAt s.mem s.aadAddr.toNat s.aadLen.toNat

/-- The tag the caller supplies (rule R42): register `TAG` for `DEC`, the bytes after the message for `DECC`. -/
def suppliedTag (op : BitVec 2) (s : State) : List Byte :=
  if op = opDecc then bytesAt s.mem (s.bufAddr.toNat + messageLen op s) 16 else s.tag.data

/-- The host may issue the command `op`, and everything it owes holds: the sequencer idle, a key loaded, no reset to arrive, the
region duties (rules R14, R73 and R145), the data memory in its canonical form. -/
structure Ready (op : BitVec 2) (s : State) : Prop where
  idle : s.phase = uIdle
  key : s.status.kv = true
  noReset : s.resets = []
  mem : Memory.wf s.mem = true
  duties : RegionDuties op s

/-- The command `i` issued in `s` is accepted and, run to its end, leaves `t` (rules R14 and R145). -/
def CommandRun (i : Instr) (s t : State) : Prop := ∃ s1, exec i s = .next s1 ∧ runCommand s1 = .next t

/-- The state a command leaves, but for the memory and register `TAG` it may write: `OP` as latched, the ephemeral state and
`NONCE` cleared, the outcome and its length, the cause, the sequencer idle (rules R145 and R154 to R156). -/
def finished (s : State) (op : BitVec 2) (len : BitVec 64) (ok : Bool) (cause : BitVec 2) : State :=
  { s with
    op := op, eph := Eph.reset, nonce := Bytes.zero 24, resLen := len, phase := uIdle, cause := cause
    status := ⟨s.status.kv, s.status.xn, ok, !ok, false⟩ }

/-- The data accesses of a micro-operation, as the first address and the number of bytes (the table of rule R68); a row that
touches no data byte has none. -/
def accesses (i : Instr) (s : State) : Nat × Nat :=
  match i with
  | .start => if s.op = opDecc ∧ 16 ≤ s.bufLen.toNat then (s.bufAddr.toNat + (s.bufLen.toNat - 16), 16) else (0, 0)
  | .absaad => (s.aadAddr.toNat, s.aadLen.toNat)
  | .xor => (s.bufAddr.toNat, s.eph.mlen.toNat)
  | .absbuf => (s.bufAddr.toNat, s.eph.mlen.toNat)
  | .tagout => if s.op = opEnc then (0, 0) else (s.bufAddr.toNat + s.eph.mlen.toNat, 16)
  | _ => (0, 0)

/-! What the host can see. -/

/-- The registers the host can read (rule R216) and the memory it owns agree. -/
structure SameView (s t : State) : Prop where
  regs : ∀ offset, readReg s offset = readReg t offset
  mem : s.mem = t.mem

/-! The successor relation. -/

/-- The successor of the micro-operation `PHASE` names, for a running sequencer (the table of rule R146). -/
def successor (s : State) : BitVec 5 :=
  if s.phase = uStart then
    if s.op = opDecc ∧ s.bufLen.toNat < 16 then uRetfail else if s.status.xn then uSplit else uSeeds
  else if s.phase = uSeeds then uMackey
  else if s.phase = uSplit then uDerive
  else if s.phase = uDerive then uSeedx
  else if s.phase = uSeedx then uMackey
  else if s.phase = uMackey then uSkip
  else if s.phase = uSkip then uSizechk
  else if s.phase = uSizechk then if 2 ^ 32 ≤ nblk s.eph.mlen.toNat then uRetfail else uAbsaad
  else if s.phase = uAbsaad then if isEnc s.op then uXor else uAbsbuf
  else if s.phase = uXor then if isEnc s.op then uAbsbuf else uRetok
  else if s.phase = uAbsbuf then uAbslen
  else if s.phase = uAbslen then uFinal
  else if s.phase = uFinal then if isEnc s.op then uTagout else uCmp
  else if s.phase = uCmp then if s.eph.etag = s.eph.ctag then uXor else uRetfail
  else if s.phase = uTagout then uRetok
  else uIdle

/-! The invariant. -/

/-- The flags (rule R32): at most one of `DONE`, `FAIL`, `CMDERR` is 1, and `XN = 1` implies `KV = 1`. -/
structure StatusOk (st : Status) : Prop where
  doneFail : ¬ (st.done = true ∧ st.fail = true)
  doneErr : ¬ (st.done = true ∧ st.cmderr = true)
  failErr : ¬ (st.fail = true ∧ st.cmderr = true)
  variant : st.xn = true → st.kv = true

/-- Facts of a running sequencer, by the micro-operation it is at. -/
structure Running (s : State) : Prop where
  /-- A command runs only with a key (rule R209) and was not rejected. -/
  key : s.phase ≠ uIdle → s.status.kv = true ∧ s.status.cmderr = false
  /-- `START` has cleared the outcome (rule R148). -/
  cleared : s.phase ≠ uIdle → s.phase ≠ uStart → s.status.done = false ∧ s.status.fail = false
  /-- The cause is recorded exactly when the command fails (rules R154 and R203). -/
  cause : s.phase ≠ uIdle → s.phase ≠ uStart → (s.cause ≠ causeNone ↔ s.phase = uRetfail)
  /-- The seed mapper runs in the variant's form (rules R165 and R166). -/
  standard : s.phase = uSeeds → s.status.xn = false
  extended : s.phase = uSplit ∨ s.phase = uDerive ∨ s.phase = uSeedx → s.status.xn = true
  /-- The generator stands at block 0, byte 0 before `MACKEY` (rule R101) and at block 1, byte 0 before `XOR` (rule R128). -/
  startPos : s.phase = uMackey → position s.eph = 0
  macPos : s.phase = uSkip → position s.eph = 32
  xorPos : s.phase = uSizechk ∨ s.phase = uAbsaad ∨ s.phase = uXor → position s.eph = 64
  decPos : isEnc s.op = false → s.phase = uAbsbuf ∨ s.phase = uAbslen ∨ s.phase = uFinal ∨ s.phase = uCmp → position s.eph = 64
  /-- The size check passed before everything that follows it (rule R129). -/
  sized : uAbsaad ≤ s.phase → s.phase ≠ uRetfail → nblk s.eph.mlen.toNat < 2 ^ 32
  /-- The MAC starts empty (rule R113). -/
  macEmpty : s.phase = uSkip ∨ s.phase = uSizechk ∨ s.phase = uAbsaad → s.eph.macmsg = []
  /-- Verify before decrypt (rule R151). -/
  verified : s.phase = uXor → isEnc s.op = false → s.eph.eq = 1 ∧ s.eph.etag = s.eph.ctag
  /-- The comparator runs only in a decryption, the tag output only in an encryption (rules R136 and R138). -/
  cmpDec : s.phase = uCmp → isEnc s.op = false
  tagoutEnc : s.phase = uTagout → isEnc s.op = true

/-- The invariant of the machine. -/
structure Invariant (s : State) : Prop where
  /-- The data memory keeps its canonical form. -/
  mem : Memory.wf s.mem = true
  /-- `PHASE` holds a code of rule R86 and never any other value (rule R29). -/
  phase : s.phase ≤ uRetfail
  /-- `PHASE = U_IDLE`: every member of `EPH` has its reset value (rule R46). -/
  idle : s.phase = uIdle → s.eph = Eph.reset
  status : StatusOk s.status
  /-- `KV = 0` implies `KEY = 0^32` (rules R34 and R179). -/
  key : s.status.kv = false → s.key = Bytes.zero 32
  /-- `SCRATCH` is zero before and after every micro-operation (rule R39). -/
  scratch : s.eph.scratch = Bytes.zero 32
  /-- `MACMSG`'s length is a multiple of 16 (rule R40). -/
  macmsg : s.eph.macmsg.length % 16 = 0
  running : Running s

end Sys2Proof.Machine
end

