-- ==== Sys2Proof/Certificates/Slice0/Obligations.lean ====
section
/-! DEFINITION. The statements for the provers. -/

open Sys2Proof Sys2Proof.Machine

/-! Encoding. -/

/-- Rule R81: a decoder accepts exactly the eight words of the table, each as its command. -/
def Obligations.CommandWordsDecodeExactly : Prop :=
  ∀ (w : BitVec 32) (i : Instr),
    decodeCmd w = .ok i ↔
      (w, i) ∈ [(0x00000000#32, Instr.nop), (0x00000001#32, .keyloadS), (0x00000002#32, .keyloadX), (0x00000003#32, .zeroize),
        (0x00000010#32, .enc), (0x00000011#32, .dec), (0x00000012#32, .encc), (0x00000013#32, .decc)]

/-- Rule R86: the codes of the eighteen rows, and no other code, name a micro-operation. -/
def Obligations.MicroOperationCodesDecodeExactly : Prop :=
  ∀ (c : BitVec 5) (i : Instr),
    decodeUop c = .ok i ↔
      (c, i) ∈ [(0x00#5, Instr.uIdle), (0x01#5, .start), (0x02#5, .seeds), (0x03#5, .split), (0x04#5, .derive), (0x05#5, .seedx),
        (0x06#5, .mackey), (0x07#5, .skip), (0x08#5, .sizechk), (0x09#5, .absaad), (0x0a#5, .xor), (0x0b#5, .absbuf),
        (0x0c#5, .abslen), (0x0d#5, .final), (0x0e#5, .cmp), (0x0f#5, .tagout), (0x10#5, .retok), (0x11#5, .retfail)]

/-- Decoding and encoding agree over both formats: bytes decode to an instruction exactly when they are its encoding, so no bit of a
word is dropped and no other byte string is taken (rules R80 to R82, R86 and R87). MODEL'S CHOICE (assumption 19): the bytes a word
and a code are laid out as. -/
def Obligations.BytesDecodeExactlyWhenEncoded : Prop :=
  ∀ (f : Format) (bytes : List Byte) (i : Instr), decode f bytes = .ok i ↔ i.format = f ∧ encode i = bytes

/-- Words written out from the tables of rules R81 and R86, one or more for each family, as the host's numbering of the opcode
table gives them (assumption 19). -/
def Obligations.SampleWordsDecode : Prop :=
  decodeTableWord 32 0x00000000 = some .nop ∧ decodeTableWord 32 0x00000002 = some .keyloadX ∧
  decodeTableWord 32 0x00000010 = some .enc ∧ decodeTableWord 32 0x00000013 = some .decc ∧
  decodeTableWord 32 0x00000004 = none ∧ decodeTableWord 32 0x00000110 = none ∧
  decodeTableWord 8 0x00 = some .uIdle ∧ decodeTableWord 8 0x01 = some .start ∧ decodeTableWord 8 0x05 = some .seedx ∧
  decodeTableWord 8 0x06 = some .mackey ∧ decodeTableWord 8 0x0a = some .xor ∧ decodeTableWord 8 0x0d = some .final ∧
  decodeTableWord 8 0x0e = some .cmp ∧ decodeTableWord 8 0x11 = some .retfail ∧ decodeTableWord 8 0x12 = none

/-! The step. -/

/-- While `PHASE` is not `U_IDLE` a step is the micro-operation that `PHASE` names, run in that state (rules R14, R29 and R86).
MODEL'S CHOICE (assumption 4): while it is `U_IDLE` and the host has nothing to do a step is `U_IDLE`, where rule R29 gives the
sequencer no step. MODEL'S READING (assumption 15): a reserved code, which rule R87 gives no meaning, is refused. -/
def Obligations.StepRunsTheMicroOperationOfPhase : Prop :=
  ∀ s : State, s.resets = [] → s.phase ≠ uIdle ∨ s.hostQ = [] →
    (∀ i, decodeUop s.phase = .ok i → step s = exec i s) ∧
    (∀ e, decodeUop s.phase = .error e → step s = .refused .reservedPhase)

/-- While `PHASE` is `U_IDLE`, a step is the host's next action, taken off its list; a 32-bit write to `CMD` runs the command its
word decodes to in the state that is left, and rejects a word that decodes to none (rules R14, R31 and R80). -/
def Obligations.StepRunsTheIssuedCommand : Prop :=
  ∀ (s : State) (w : BitVec 32) (rest : List HostAct),
    s.resets = [] → s.phase = uIdle → s.hostQ = .write .word 0x00 w :: rest →
    (∀ i, decodeCmd w = .ok i → step s = exec i { s with hostQ := rest }) ∧
    (∀ e, decodeCmd w = .error e → step s = .next (reject { s with hostQ := rest }))

/-- A reset at any time, any number of times (rules R47, R225 and R226): every register takes its reset value; the data memory is not touched, except that
a reset during `XOR`, or during `TAGOUT` of a combined command, leaves the first `n` of its bytes written, for some `n`. The host's
own list and log are the host's, and the resets that are to follow still follow. MODEL'S CHOICE of the form of an input (assumption
5): a list counts the steps before each reset, and until one is due a step is what it is without the list. -/
def Obligations.ResetAtAnyTime : Prop :=
  (∀ (s : State) (n : Nat) (later : List Nat), s.resets = (n + 1) :: later →
    (∀ t, step { s with resets := [] } = .next t → step s = .next { t with resets := n :: later }) ∧
    (∀ f, step { s with resets := [] } = .fault f → step s = .fault f) ∧
    (∀ r, step { s with resets := [] } = .refused r → step s = .refused r)) ∧
  ∀ (s : State) (later : List Nat), Memory.wf s.mem = true → s.resets = 0 :: later →
    ∃ t, step s = .next t ∧
      t = { State.reset with
            mem := t.mem, memMap := s.memMap, hostQ := s.hostQ, hostR := s.hostR, resets := later
            freeCount := s.freeCount + 1 } ∧
      (s.phase ≠ uXor → ¬ (s.phase = uTagout ∧ s.op ≠ opEnc) → t.mem = s.mem) ∧
      (s.phase = uXor →
        ∃ n, n ≤ s.eph.mlen.toNat ∧ ∀ a, Mem.read t.mem a =
          if InRange s.bufAddr.toNat n a then
            Mem.read s.mem a ^^^
              ksStream openPrims s.eph.seedKey s.eph.seedNonce (position s.eph + (a - s.bufAddr.toNat))
          else Mem.read s.mem a) ∧
      (s.phase = uTagout → s.op ≠ opEnc →
        ∃ n, n ≤ 16 ∧ ∀ a, Mem.read t.mem a =
          if InRange (s.bufAddr.toNat + s.eph.mlen.toNat) n a then
            s.eph.etag.get (a - (s.bufAddr.toNat + s.eph.mlen.toNat))
          else Mem.read s.mem a)

/-- Rule R47: the reset value of every register. -/
def Obligations.ResetValuesOfTheRegisters : Prop :=
  State.reset.bufAddr = 0 ∧ State.reset.bufLen = 0 ∧ State.reset.aadAddr = 0 ∧ State.reset.aadLen = 0 ∧
  State.reset.resLen = 0 ∧ State.reset.nonce.data = List.replicate 24 0 ∧ State.reset.tag.data = List.replicate 16 0 ∧
  statusWord State.reset.status = 0 ∧ State.reset.keyin.data = List.replicate 32 0 ∧
  State.reset.key.data = List.replicate 32 0 ∧ State.reset.op = 0 ∧ State.reset.eph.seedKey.data = List.replicate 32 0 ∧
  State.reset.eph.subkey.data = List.replicate 32 0 ∧ State.reset.eph.scratch.data = List.replicate 32 0 ∧
  State.reset.eph.mackey.data = List.replicate 32 0 ∧ State.reset.eph.seedNonce.data = List.replicate 12 0 ∧
  State.reset.eph.salt.data = List.replicate 16 0 ∧ State.reset.eph.inner.data = List.replicate 8 0 ∧
  State.reset.eph.ctr = 0 ∧ State.reset.eph.off = 0 ∧ State.reset.eph.mlen = 0 ∧ State.reset.eph.diff = 0 ∧
  State.reset.eph.eq = 0 ∧ State.reset.cause = 0 ∧ State.reset.eph.macmsg = [] ∧
  State.reset.eph.etag.data = List.replicate 16 0 ∧ State.reset.eph.ctag.data = List.replicate 16 0 ∧
  State.reset.phase = 0x00

/-! The register interface. -/

/-- The host's register accesses (rules R30 and R65): an aligned 32-bit access inside the window completes, a read returning the word
and changing nothing else, a write to an offset other than `CMD` changing what it names; every other access is refused. MODEL'S
CHOICE (assumption 6): the word that a read returns is appended to the host's log. MODEL'S READING (assumption 14): an offset of 256
or more is refused. -/
def Obligations.RegisterAccessesComplete : Prop :=
  ∀ (s : State) (width : AccessWidth) (offset : Nat) (w : BitVec 32) (rest : List HostAct),
    s.resets = [] → s.phase = uIdle →
    (width = .word ∧ offset < 256 ∧ offset % 4 = 0 →
      step { s with hostQ := .read width offset :: rest } =
        .next { s with hostQ := rest, hostR := s.hostR ++ [readReg s offset] } ∧
      (offset ≠ 0x00 →
        step { s with hostQ := .write width offset w :: rest } = .next (writeReg { s with hostQ := rest } offset w))) ∧
    (¬ (width = .word ∧ offset < 256 ∧ offset % 4 = 0) →
      step { s with hostQ := .read width offset :: rest } = .refused .badRegisterAccess ∧
      step { s with hostQ := .write width offset w :: rest } = .refused .badRegisterAccess)

/-- The read side of the register map (rules R30, R31, R33 and R216): each word of each readable register at its offset, and 0 for
`CMD`, `KEYIN` and every reserved offset. -/
def Obligations.HostReadsFollowTheMap : Prop :=
  ∀ s : State,
    readReg s 0x00 = 0 ∧ readReg s 0x04 = statusWord s.status ∧
    (∀ r : NumReg,
      readReg s (0x10 + 8 * r.index) = (readNum s r).setWidth 32 ∧
      readReg s (0x14 + 8 * r.index) = ((readNum s r) >>> 32).setWidth 32) ∧
    (∀ j, j < 6 → readReg s (0x40 + 4 * j) =
      s.nonce.get (4 * j + 3) ++ s.nonce.get (4 * j + 2) ++ s.nonce.get (4 * j + 1) ++ s.nonce.get (4 * j)) ∧
    (∀ j, j < 4 → readReg s (0x60 + 4 * j) =
      s.tag.get (4 * j + 3) ++ s.tag.get (4 * j + 2) ++ s.tag.get (4 * j + 1) ++ s.tag.get (4 * j)) ∧
    (∀ j, j < 8 → readReg s (0x80 + 4 * j) = 0) ∧
    (∀ offset, (0x08 ≤ offset ∧ offset < 0x10) ∨ (0x38 ≤ offset ∧ offset < 0x40) ∨ (0x58 ≤ offset ∧ offset < 0x60) ∨
      (0x70 ≤ offset ∧ offset < 0x80) ∨ 0xa0 ≤ offset → readReg s offset = 0)

/-- A host write to a word of a host-writable register is read back (but for the write-only `KEYIN`) and changes that word only: of
the whole state that register alone may change, and no other word of it; a write anywhere else changes nothing
(rules R30 and R216). -/
def Obligations.RegisterWritesReadBack : Prop :=
  ∀ (s : State) (offset : Nat) (w : BitVec 32), offset < 256 → offset % 4 = 0 →
    ((0x10 ≤ offset ∧ offset < 0x30) ∨ (0x40 ≤ offset ∧ offset < 0x58) ∨ (0x60 ≤ offset ∧ offset < 0x70) →
      writeReg s offset w = { s with
        bufAddr := (writeReg s offset w).bufAddr, bufLen := (writeReg s offset w).bufLen
        aadAddr := (writeReg s offset w).aadAddr, aadLen := (writeReg s offset w).aadLen
        nonce := (writeReg s offset w).nonce, tag := (writeReg s offset w).tag } ∧
      readReg (writeReg s offset w) offset = w ∧
      ∀ other, other < 256 → other % 4 = 0 → other ≠ offset → readReg (writeReg s offset w) other = readReg s other) ∧
    (¬ ((0x10 ≤ offset ∧ offset < 0x30) ∨ (0x40 ≤ offset ∧ offset < 0x58) ∨ (0x60 ≤ offset ∧ offset < 0x70) ∨
      (0x80 ≤ offset ∧ offset < 0xa0)) → writeReg s offset w = s) ∧
    (0x80 ≤ offset ∧ offset < 0xa0 →
      writeReg s offset w = { s with keyin := (writeReg s offset w).keyin } ∧
      ∀ i, i < 32 → (writeReg s offset w).keyin.get i =
        if offset - 0x80 ≤ i ∧ i < offset - 0x80 + 4 then (w >>> (8 * (i % 4))).setWidth 8 else s.keyin.get i)

/-- The `STATUS` word (rule R32): its five flags at bits 0 to 4, and 0 above. -/
def Obligations.StatusWordLayout : Prop :=
  ∀ (st : Status) (k : Nat), k < 32 →
    (statusWord st).getLsbD k =
      ((k == 0 && st.kv) || (k == 1 && st.xn) || (k == 2 && st.done) || (k == 3 && st.fail) || (k == 4 && st.cmderr))

/-- The pseudo-instruction `SET` (rule R90), run as the host's actions: the register holds the value and nothing else changes. -/
def Obligations.SetLoadsTheRegister : Prop :=
  ∀ (s : State) (r : NumReg) (v : BitVec 64) (rest : List HostAct), s.resets = [] → s.phase = uIdle → r ≠ .resLen →
    ∃ acts, assemble (.set r v) = some acts ∧
      Host.Core.run Sys2Proof.core 2 { s with hostQ := acts ++ rest } = .next { s with
        bufAddr := if r = .bufAddr then v else s.bufAddr
        bufLen := if r = .bufLen then v else s.bufLen
        aadAddr := if r = .aadAddr then v else s.aadAddr
        aadLen := if r = .aadLen then v else s.aadLen
        hostQ := rest }

/-- The pseudo-instruction `SETB KEYIN` and then `KEYLOAD.S` (rules R89, R90 and R176), run as the host's actions: the key is the
bytes, in index order. -/
def Obligations.SetbKeyinThenKeyloadLoadsTheKey : Prop :=
  ∀ (s : State) (b : Bytes 32) (rest : List HostAct), s.resets = [] → s.phase = uIdle →
    ∃ acts, assembleAll [.setbKeyin b.data, .cmd .keyloadS] = some acts ∧
      Host.Core.run Sys2Proof.core 9 { s with hostQ := acts ++ rest } =
        .next { s with
          key := b, keyin := Bytes.zero 32, status := ⟨true, false, true, false, false⟩, cause := 0, hostQ := rest }

/-- The pseudo-instruction `SETB NONCE` (rule R90): 24 bytes fill the register; 12 bytes write words 0 to 2 only and leave words 3 to
5 as they are. -/
def Obligations.SetbNonceLoadsTheNonce : Prop :=
  ∀ (s : State) (bytes : List Byte) (rest : List HostAct), s.resets = [] → s.phase = uIdle →
    bytes.length = 12 ∨ bytes.length = 24 →
    ∃ acts t, assemble (.setbNonce bytes) = some acts ∧
      Host.Core.run Sys2Proof.core (bytes.length / 4) { s with hostQ := acts ++ rest } = .next t ∧
      t = { s with nonce := t.nonce, hostQ := rest } ∧ t.nonce.data = bytes ++ s.nonce.data.drop bytes.length

/-- No register read returns hidden state (rules R20, R34 and R48): what the host reads depends on the operand registers and `STATUS`
alone. -/
def Obligations.HostReadsIgnoreHiddenState : Prop :=
  ∀ s t : State,
    s.bufAddr = t.bufAddr → s.bufLen = t.bufLen → s.aadAddr = t.aadAddr → s.aadLen = t.aadLen → s.resLen = t.resLen →
    s.nonce = t.nonce → s.tag = t.tag → s.status = t.status → ∀ offset, readReg s offset = readReg t offset

/-! The key commands. -/

/-- Rules R175 to R178: what each key command leaves, everything else unchanged, in every state. -/
def Obligations.KeyCommandsSetKeyAndStatus : Prop :=
  ∀ s : State,
    exec .nop s = .next s ∧
    exec .keyloadS s = .next { s with
      key := s.keyin, keyin := Bytes.zero 32, status := ⟨true, false, true, false, false⟩, cause := 0 } ∧
    exec .keyloadX s = .next { s with
      key := s.keyin, keyin := Bytes.zero 32, status := ⟨true, true, true, false, false⟩, cause := 0 } ∧
    exec .zeroize s = .next { s with
      key := Bytes.zero 32, keyin := Bytes.zero 32, status := ⟨false, false, true, false, false⟩, cause := 0 }

/-- Rule R179: `KEY` changes only by `KEYLOAD.S`, `KEYLOAD.X`, `ZEROIZE` and reset. -/
def Obligations.KeyChangesOnlyByKeyCommandOrReset : Prop :=
  ∀ s t : State, step s = .next t → t.key ≠ s.key →
    s.resets.head? = some 0 ∨
    (s.phase = uIdle ∧ ∃ w rest, s.hostQ = .write .word 0x00 w :: rest ∧
      (w = 0x00000001 ∨ w = 0x00000002 ∨ w = 0x00000003))

/-! Acceptance and rejection. -/

/-- Rule R145: with a key and the region duties kept, each AEAD command latches its `OP`, clears `CMDERR` and starts the sequencer,
everything else unchanged; with a key and a duty breached, it is refused. MODEL'S CHOICE (assumption 8): side effects (rule R67) are
looked at here. -/
def Obligations.AeadCommandsAreAcceptedUnderTheDuties : Prop :=
  ∀ (s : State) (i : Instr) (op : BitVec 2),
    (i, op) ∈ [(Instr.enc, 0#2), (.dec, 1#2), (.encc, 2#2), (.decc, 3#2)] → s.status.kv = true →
    (RegionDuties op s →
      exec i s = .next { s with op := op, status := { s.status with cmderr := false }, phase := 0x01 }) ∧
    (¬ RegionDuties op s → ∃ r, exec i s = .refused r)

/-- Rules R82, R208 and R209: an illegal `CMD` word, and an AEAD command without a key, set `CMDERR`, clear `DONE` and `FAIL`, and
change nothing else; the word is illegal exactly when `RSV` is not 0 or `OPC` is none of the eight. -/
def Obligations.IllegalOrKeylessCommandsAreRejected : Prop :=
  (∀ w : BitVec 32, (∃ e, decodeCmd w = .error e) ↔
    w >>> 8 ≠ 0 ∨ w &&& 0xff ∉ [0x00#32, 0x01#32, 0x02#32, 0x03#32, 0x10#32, 0x11#32, 0x12#32, 0x13#32]) ∧
  (∀ (s : State) (w : BitVec 32) (e : DecodeError) (rest : List HostAct),
    s.resets = [] → s.phase = uIdle → decodeCmd w = .error e →
    step { s with hostQ := .write .word 0x00 w :: rest } =
      .next { s with hostQ := rest, status := ⟨s.status.kv, s.status.xn, false, false, true⟩ }) ∧
  (∀ (s : State) (i : Instr), i ∈ [Instr.enc, .dec, .encc, .decc] → s.status.kv = false →
    exec i s = .next { s with status := ⟨s.status.kv, s.status.xn, false, false, true⟩ })

/-! The micro-operations. -/

/-- `U_IDLE`: with neither agent acting nothing changes (rule R29). MODEL'S CHOICE (assumption 4): the spec gives the sequencer no
step. -/
def Obligations.IdleChangesNothing : Prop := ∀ s : State, exec .uIdle s = .next s

/-- Rule R148, `START`: the outcome cleared; `DECC` below 16 bytes fails with `UNDERSIZE`; otherwise the message length, the caller's
tag and the variant's seed mapper, everything else unchanged. -/
def Obligations.StartLatchesTheOperands : Prop :=
  decodeUop 0x01 = .ok .start ∧
  ∀ s : State,
    (s.op = opDecc → s.bufLen.toNat < 16 →
      exec .start s = .next { s with
        status := { s.status with done := false, fail := false }, cause := 2, phase := 0x11 }) ∧
    (s.op = opDecc → 16 ≤ s.bufLen.toNat → PortOpen s (s.bufAddr.toNat + (s.bufLen.toNat - 16)) 16 →
      ∃ t, exec .start s = .next t ∧
        t = { s with
          status := { s.status with done := false, fail := false }, cause := 0
          eph := { s.eph with mlen := s.bufLen - 16, ctag := t.eph.ctag }
          phase := if s.status.xn then 0x03 else 0x02 } ∧
        t.eph.ctag.data = bytesAt s.mem (s.bufAddr.toNat + (s.bufLen.toNat - 16)) 16) ∧
    (s.op ≠ opDecc →
      exec .start s = .next { s with
        status := { s.status with done := false, fail := false }, cause := 0
        eph := { s.eph with mlen := s.bufLen, ctag := if s.op = opDec then s.tag else s.eph.ctag }
        phase := if s.status.xn then 0x03 else 0x02 })

/-- Rule R165, `SEEDS`. -/
def Obligations.SeedsTakesKeyAndShortNonce : Prop :=
  decodeUop 0x02 = .ok .seeds ∧
  ∀ s : State, ∃ t, exec .seeds s = .next t ∧
    t = { s with
      eph := { s.eph with seedKey := s.key, seedNonce := t.eph.seedNonce, ctr := 0, off := 0 }, phase := 0x06 } ∧
    t.eph.seedNonce.data = s.nonce.data.take 12

/-- Rule R166, `SPLIT`. -/
def Obligations.SplitCutsTheNonce : Prop :=
  decodeUop 0x03 = .ok .split ∧
  ∀ s : State, ∃ t, exec .split s = .next t ∧
    t = { s with eph := { s.eph with salt := t.eph.salt, inner := t.eph.inner }, phase := 0x04 } ∧
    t.eph.salt.data ++ t.eph.inner.data = s.nonce.data

/-- Rule R167, `DERIVE`. -/
def Obligations.DeriveCallsTheKdf : Prop :=
  decodeUop 0x04 = .ok .derive ∧
  ∀ s : State, exec .derive s = .next { s with
    eph := { s.eph with subkey := openPrims.kdf s.key s.eph.salt }, phase := 0x05 }

/-- Rule R168, `SEEDX`. -/
def Obligations.SeedxBuildsTheInnerSeed : Prop :=
  decodeUop 0x05 = .ok .seedx ∧
  ∀ s : State, ∃ t, exec .seedx s = .next t ∧
    t = { s with
      eph := { s.eph with
        seedKey := s.eph.subkey, seedNonce := t.eph.seedNonce, ctr := 0, off := 0
        subkey := Bytes.zero 32, salt := Bytes.zero 16, inner := Bytes.zero 8 }
      phase := 0x06 } ∧
    t.eph.seedNonce.data = [0, 0, 0, 0] ++ s.eph.inner.data

/-- Rule R169: the seed mapper as one function of `KEY`, `XN` and `NONCE`, in both forms, from where `START` leaves the sequencer. -/
def Obligations.SeedMapperIsOneFunction : Prop :=
  ∀ s : State, s.resets = [] → s.phase = seedPhase s →
    ∃ t, Host.Core.run Sys2Proof.core (if s.status.xn then 3 else 1) s = .next t ∧
      t.phase = uMackey ∧ position t.eph = 0 ∧
      t.eph.seedKey = (if s.status.xn then openPrims.kdf s.key (s.nonce.slice 0 16) else s.key) ∧
      t.eph.seedNonce.data =
        (if s.status.xn then [0, 0, 0, 0] ++ s.nonce.data.drop 16 else s.nonce.data.take 12) ∧
      (s.status.xn = true →
        t.eph.subkey = Bytes.zero 32 ∧ t.eph.salt = Bytes.zero 16 ∧ t.eph.inner = Bytes.zero 8)

/-- Rule R101, `MACKEY`: from any position the key is the next 32 keystream bytes; from block 0, byte 0 it is the first half of block
0. The scratch is zero and the MAC message empty; everything else is unchanged. -/
def Obligations.MackeyIsTheFirstKeystream : Prop :=
  decodeUop 0x06 = .ok .mackey ∧
  ∀ s : State, ∃ t, exec .mackey s = .next t ∧
    t = { s with
      eph := { setPosition s.eph (position s.eph + 32) with
        mackey := t.eph.mackey, scratch := Bytes.zero 32, macmsg := [] }
      phase := 0x07 } ∧
    (∀ i, i < 32 → t.eph.mackey.get i = ksStream openPrims s.eph.seedKey s.eph.seedNonce (position s.eph + i)) ∧
    (s.eph.ctr = 0 → s.eph.off = 0 →
      t.eph.ctr = 0 ∧ t.eph.off = 32 ∧ ∀ i, i < 32 →
        t.eph.mackey.get i = (openPrims.ks s.eph.seedKey s.eph.seedNonce 0).get i)

/-- Rule R102, `SKIP`: an absolute move to block 1, byte 0, from any position. -/
def Obligations.SkipGoesToBlockOne : Prop :=
  decodeUop 0x07 = .ok .skip ∧
  ∀ s : State, exec .skip s = .next { s with eph := { s.eph with ctr := 1, off := 0 }, phase := 0x08 }

/-- Rule R111, `SIZECHK`: `OVERSIZE` exactly when `MLEN > 2^38 - 64`, everything else unchanged. -/
def Obligations.SizechkFailsExactlyAboveTheBound : Prop :=
  decodeUop 0x08 = .ok .sizechk ∧
  ∀ s : State,
    (s.eph.mlen.toNat ≤ 2 ^ 38 - 64 → exec .sizechk s = .next { s with phase := 0x09 }) ∧
    (2 ^ 38 - 64 < s.eph.mlen.toNat → exec .sizechk s = .next { s with cause := 1, phase := 0x11 })

/-- Rule R113, `ABSAAD`. -/
def Obligations.AbsaadAbsorbsThePaddedAad : Prop :=
  decodeUop 0x09 = .ok .absaad ∧
  ∀ s : State, PortOpen s s.aadAddr.toNat s.aadLen.toNat →
    exec .absaad s = .next { s with
      eph := { s.eph with
        macmsg := s.eph.macmsg ++ bytesAt s.mem s.aadAddr.toNat s.aadLen.toNat ++
          List.replicate ((16 - s.aadLen.toNat % 16) % 16) 0 }
      phase := if s.op = 0 ∨ s.op = 2 then 0x0a else 0x0b }

/-- Rule R114, `ABSBUF`. -/
def Obligations.AbsbufAbsorbsThePaddedBuffer : Prop :=
  decodeUop 0x0b = .ok .absbuf ∧
  ∀ s : State, PortOpen s s.bufAddr.toNat s.eph.mlen.toNat →
    exec .absbuf s = .next { s with
      eph := { s.eph with
        macmsg := s.eph.macmsg ++ bytesAt s.mem s.bufAddr.toNat s.eph.mlen.toNat ++
          List.replicate ((16 - s.eph.mlen.toNat % 16) % 16) 0 }
      phase := 0x0c }

/-- Rule R115, `ABSLEN`: the two lengths, eight bytes each, the least significant byte first. -/
def Obligations.AbslenBindsBothLengths : Prop :=
  decodeUop 0x0c = .ok .abslen ∧
  ∀ s : State, ∃ a m : List Byte,
    exec .abslen s = .next { s with eph := { s.eph with macmsg := s.eph.macmsg ++ a ++ m }, phase := 0x0d } ∧
    a.length = 8 ∧ m.length = 8 ∧
    ∀ i, i < 8 →
      (a.getD i 0).toNat = s.aadLen.toNat / 2 ^ (8 * i) % 256 ∧ (m.getD i 0).toNat = s.eph.mlen.toNat / 2 ^ (8 * i) % 256

/-- Rule R116, `FINAL`. -/
def Obligations.FinalComputesTheTag : Prop :=
  decodeUop 0x0d = .ok .final ∧
  ∀ s : State, exec .final s = .next { s with
    eph := { s.eph with etag := openPrims.macfn s.eph.mackey s.eph.macmsg }
    phase := if s.op = 0 ∨ s.op = 2 then 0x0f else 0x0e }

/-- Rule R128, `XOR`: every message byte XORed with its keystream byte, in place, the position moved on by `MLEN`, every byte outside
the message and everything else unchanged. -/
def Obligations.XorAppliesTheKeystream : Prop :=
  decodeUop 0x0a = .ok .xor ∧
  ∀ s : State, Memory.wf s.mem = true → PortOpen s s.bufAddr.toNat s.eph.mlen.toNat →
    ∃ t, exec .xor s = .next t ∧
      t = { s with
        mem := t.mem, eph := setPosition s.eph (position s.eph + s.eph.mlen.toNat)
        phase := if s.op = 0 ∨ s.op = 2 then 0x0b else 0x10 } ∧
      (∀ i, i < s.eph.mlen.toNat →
        Mem.read t.mem (s.bufAddr.toNat + i) = Mem.read s.mem (s.bufAddr.toNat + i) ^^^
          ksStream openPrims s.eph.seedKey s.eph.seedNonce (position s.eph + i)) ∧
      (s.eph.ctr = 1 → s.eph.off = 0 → ∀ i, i < s.eph.mlen.toNat →
        Mem.read t.mem (s.bufAddr.toNat + i) = Mem.read s.mem (s.bufAddr.toNat + i) ^^^
          (openPrims.ks s.eph.seedKey s.eph.seedNonce (BitVec.ofNat 32 (1 + i / 64))).get (i % 64)) ∧
      (∀ a, ¬ InRange s.bufAddr.toNat s.eph.mlen.toNat a → Mem.read t.mem a = Mem.read s.mem a)

/-- Rule R130: two runs of `XOR` over the same bytes with the same seed, both from the same position, restore the memory. -/
def Obligations.XorTwiceRestoresTheMemory : Prop :=
  ∀ s t u : State, Memory.wf s.mem = true → exec .xor s = .next t → exec .xor { t with eph := s.eph } = .next u → u.mem = s.mem

/-- Rule R136, `CMP`: bit `b` of `DIFF` is 1 exactly when the tags differ at bit `b` of some byte; `EQ = 1` exactly when the tags
are equal, and then `XOR` is next; otherwise `AUTHFAIL`. Everything else is unchanged. -/
def Obligations.CmpDecidesEqualityOfTheTags : Prop :=
  decodeUop 0x0e = .ok .cmp ∧
  ∀ s : State, ∃ d : BitVec 8,
    (∀ b, b < 8 → (d.getLsbD b = true ↔ ∃ i, i < 16 ∧ (s.eph.etag.get i).getLsbD b ≠ (s.eph.ctag.get i).getLsbD b)) ∧
    (s.eph.etag = s.eph.ctag →
      exec .cmp s = .next { s with eph := { s.eph with diff := 0, eq := 1 }, phase := 0x0a }) ∧
    (s.eph.etag ≠ s.eph.ctag →
      exec .cmp s = .next { s with eph := { s.eph with diff := d, eq := 0 }, cause := 3, phase := 0x11 })

/-- Rule R138, `TAGOUT`: `ENC` copies the tag to `TAG` and stores nothing; a combined command stores byte `i` of it at
`BUF_ADDR + MLEN + i`, every other byte and everything else unchanged. -/
def Obligations.TagoutDeliversTheTag : Prop :=
  decodeUop 0x0f = .ok .tagout ∧
  ∀ s : State,
    (s.op = opEnc → exec .tagout s = .next { s with tag := s.eph.etag, phase := 0x10 }) ∧
    (s.op ≠ opEnc → Memory.wf s.mem = true → PortOpen s (s.bufAddr.toNat + s.eph.mlen.toNat) 16 →
      ∃ t, exec .tagout s = .next t ∧ t = { s with mem := t.mem, phase := 0x10 } ∧
        (∀ i, i < 16 → Mem.read t.mem (s.bufAddr.toNat + s.eph.mlen.toNat + i) = s.eph.etag.get i) ∧
        (∀ a, ¬ InRange (s.bufAddr.toNat + s.eph.mlen.toNat) 16 a → Mem.read t.mem a = Mem.read s.mem a))

/-- Rules R154 and R155, `RETOK`. -/
def Obligations.RetokReportsSuccess : Prop :=
  decodeUop 0x10 = .ok .retok ∧
  ∀ s : State, exec .retok s = .next { s with
    resLen := if s.op = 2 then s.eph.mlen + 16 else s.eph.mlen
    status := { s.status with done := true, fail := false }
    eph := Eph.reset, nonce := Bytes.zero 24, phase := 0x00 }

/-- Rules R155 and R156, `RETFAIL`: the close of the operation; `CAUSE`, `TAG` and the data memory are not written. -/
def Obligations.RetfailReportsFailure : Prop :=
  decodeUop 0x11 = .ok .retfail ∧
  ∀ s : State, exec .retfail s = .next { s with
    resLen := 0
    status := { s.status with done := false, fail := true }
    eph := Eph.reset, nonce := Bytes.zero 24, phase := 0x00 }

/-- The accesses of rule R68 decide whether a micro-operation completes (rules R66 and R67): with all of them ordinary memory it
answers a next state; the first address that the platform does not have leaves the sequencer stuck; the first that has side
effects is refused (assumptions 8 and 9). -/
def Obligations.MicroOperationsCompleteExactlyWhenAdmitted : Prop :=
  ∀ (i : Instr) (s : State), i.format = .uop →
    (PortOpen s (accesses i s).1 (accesses i s).2 → ∃ t, exec i s = .next t) ∧
    (FirstStop s (accesses i s).1 (accesses i s).2 .absent → exec i s = .fault .unadmittedAddress) ∧
    (FirstStop s (accesses i s).1 (accesses i s).2 .sideEffect → exec i s = .refused .sideEffectAddress)

/-! Frames and whole-machine rules. -/

/-- No instruction writes the four address and length registers (rules R23 to R25), the platform's memory map, the host's list and log,
the resets to come or the counter of free values. -/
def Obligations.NoInstructionWritesTheOperandAddresses : Prop :=
  ∀ (i : Instr) (s t : State), exec i s = .next t →
    t.bufAddr = s.bufAddr ∧ t.bufLen = s.bufLen ∧ t.aadAddr = s.aadAddr ∧ t.aadLen = s.aadLen ∧ t.memMap = s.memMap ∧
    t.hostQ = s.hostQ ∧ t.hostR = s.hostR ∧ t.resets = s.resets ∧ t.freeCount = s.freeCount

/-- Which instruction may change which register (the writers that rules R22, R26 to R28, R32 to R46 name). A row of the table is
one register: if a next state holds another value in it, the instruction is one of the row. `BUF_ADDR`, `BUF_LEN`, `AAD_ADDR` and
`AAD_LEN`, which none writes, are in NoInstructionWritesTheOperandAddresses. -/
def Obligations.RegistersAreWrittenOnlyByTheirWriters : Prop :=
  ∀ (i : Instr) (s t : State), exec i s = .next t →
    (t.resLen ≠ s.resLen → i ∈ [Instr.retok, .retfail]) ∧
    (t.nonce ≠ s.nonce → i ∈ [Instr.retok, .retfail]) ∧
    (t.tag ≠ s.tag → i = .tagout ∧ s.op = opEnc) ∧
    (t.status.kv ≠ s.status.kv → i ∈ [Instr.keyloadS, .keyloadX, .zeroize]) ∧
    (t.status.xn ≠ s.status.xn → i ∈ [Instr.keyloadS, .keyloadX, .zeroize]) ∧
    (t.status.done ≠ s.status.done ∨ t.status.fail ≠ s.status.fail →
      i ∈ [Instr.keyloadS, .keyloadX, .zeroize, .start, .retok, .retfail] ∨
        i ∈ [Instr.enc, .dec, .encc, .decc] ∧ s.status.kv = false) ∧
    (t.status.cmderr ≠ s.status.cmderr → i ∈ [Instr.keyloadS, .keyloadX, .zeroize, .enc, .dec, .encc, .decc]) ∧
    (t.keyin ≠ s.keyin → i ∈ [Instr.keyloadS, .keyloadX, .zeroize]) ∧
    (t.key ≠ s.key → i ∈ [Instr.keyloadS, .keyloadX, .zeroize]) ∧
    (t.op ≠ s.op → i ∈ [Instr.enc, .dec, .encc, .decc] ∧ s.status.kv = true) ∧
    (t.phase ≠ s.phase →
      i ∈ [Instr.enc, .dec, .encc, .decc] ∧ s.status.kv = true ∨ i.format = .uop ∧ i ≠ .uIdle) ∧
    (t.cause ≠ s.cause → i ∈ [Instr.keyloadS, .keyloadX, .zeroize, .start, .sizechk, .cmp]) ∧
    (t.eph.seedKey ≠ s.eph.seedKey → i ∈ [Instr.seeds, .seedx, .retok, .retfail]) ∧
    (t.eph.seedNonce ≠ s.eph.seedNonce → i ∈ [Instr.seeds, .seedx, .retok, .retfail]) ∧
    (t.eph.ctr ≠ s.eph.ctr → i ∈ [Instr.seeds, .seedx, .mackey, .skip, .xor, .retok, .retfail]) ∧
    (t.eph.off ≠ s.eph.off → i ∈ [Instr.seeds, .seedx, .mackey, .skip, .xor, .retok, .retfail]) ∧
    (t.eph.salt ≠ s.eph.salt → i ∈ [Instr.split, .seedx, .retok, .retfail]) ∧
    (t.eph.inner ≠ s.eph.inner → i ∈ [Instr.split, .seedx, .retok, .retfail]) ∧
    (t.eph.subkey ≠ s.eph.subkey → i ∈ [Instr.derive, .seedx, .retok, .retfail]) ∧
    (t.eph.scratch ≠ s.eph.scratch → i ∈ [Instr.mackey, .retok, .retfail]) ∧
    (t.eph.mackey ≠ s.eph.mackey → i ∈ [Instr.mackey, .retok, .retfail]) ∧
    (t.eph.macmsg ≠ s.eph.macmsg → i ∈ [Instr.mackey, .absaad, .absbuf, .abslen, .retok, .retfail]) ∧
    (t.eph.mlen ≠ s.eph.mlen → i ∈ [Instr.start, .retok, .retfail]) ∧
    (t.eph.etag ≠ s.eph.etag → i ∈ [Instr.final, .retok, .retfail]) ∧
    (t.eph.ctag ≠ s.eph.ctag → i ∈ [Instr.start, .retok, .retfail]) ∧
    (t.eph.diff ≠ s.eph.diff → i ∈ [Instr.cmp, .retok, .retfail]) ∧
    (t.eph.eq ≠ s.eph.eq → i ∈ [Instr.cmp, .retok, .retfail])

/-- The data memory changes only by `XOR`, by `TAGOUT` of a combined command, and by the host's own stores (rule R68); a byte outside
the bytes the instruction stores to is unchanged. A host store (rule R89) puts its bytes from its address upward and changes nothing
else (assumption 13: the map is the host's too). -/
def Obligations.MemoryIsWrittenOnlyByXorTagoutAndHost : Prop :=
  (∀ (i : Instr) (s t : State), exec i s = .next t →
    (i ≠ .xor → ¬ (i = .tagout ∧ s.op ≠ opEnc) → t.mem = s.mem) ∧
    (i = .xor ∨ i = .tagout →
      ∀ a, ¬ InRange (accesses i s).1 (accesses i s).2 a → Mem.read t.mem a = Mem.read s.mem a)) ∧
  (∀ s t : State, step s = .next t → t.mem ≠ s.mem →
    s.phase = uXor ∨ (s.phase = uTagout ∧ s.op ≠ opEnc) ∨
    (s.phase = uIdle ∧ s.resets.head? ≠ some 0 ∧ ∃ addr bytes rest, s.hostQ = .mem addr bytes :: rest)) ∧
  ∀ (s : State) (addr : BitVec 64) (bytes : List Byte) (rest : List HostAct),
    s.resets = [] → s.phase = uIdle → Memory.wf s.mem = true → PortOpen s addr.toNat bytes.length →
    ∃ t, step { s with hostQ := .mem addr bytes :: rest } = .next t ∧ t = { s with mem := t.mem, hostQ := rest } ∧
      (∀ i, i < bytes.length → Mem.read t.mem (addr.toNat + i) = bytes.getD i 0) ∧
      ∀ a, ¬ InRange addr.toNat bytes.length a → Mem.read t.mem a = Mem.read s.mem a

/-- Rule R146: the successor relation, with the cause of every edge to `RETFAIL`. -/
def Obligations.PhaseFollowsTheSuccessorRelation : Prop :=
  ∀ s t : State, s.resets = [] → s.phase ≠ uIdle → step s = .next t →
    t.phase = successor s ∧
    (t.phase = uRetfail → t.cause = if s.phase = uStart then 2 else if s.phase = uSizechk then 1 else 3)

/-- Rule R151, verify before decrypt: in a decryption every step leaves the data memory as it is, but for `XOR`, which runs only after
`CMP` has found the tags equal. -/
def Obligations.DecryptionWritesOnlyVerifiedPlaintext : Prop :=
  ∀ s t : State, Invariant s → s.resets.head? ≠ some 0 → s.phase ≠ uIdle → isEnc s.op = false → step s = .next t →
    (s.phase ≠ uXor → t.mem = s.mem) ∧ (s.phase = uXor → s.eph.eq = 1 ∧ s.eph.etag = s.eph.ctag)

/-- The invariant holds right after reset (rules R47 and R225). MODEL'S CHOICE (assumption 2): that reset memory lists nothing. -/
def Obligations.InvariantHoldsAtReset : Prop := Invariant State.reset

/-- Every step keeps the invariant: the canonical form of the memory, the legal codes of `PHASE`, the cleared ephemeral state while
idle, the flags, the key, and the facts of a running command (rules R29, R32, R34, R39, R40, R46, R129 and R151). -/
def Obligations.EveryStepKeepsTheInvariant : Prop :=
  ∀ s t : State, Invariant s → step s = .next t → Invariant t

/-! Arithmetic and the MAC input. -/

/-- The helpers of rule R9. -/
def Obligations.ArithmeticHelpersAreAsDefined : Prop :=
  (∀ n, (n + pad16 n) % 16 = 0 ∧ pad16 n < 16) ∧
  (∀ n, nblk n * 64 < n + 64 ∧ n ≤ nblk n * 64) ∧
  (∀ v : BitVec 64, (le64 v).length = 8 ∧ ∀ i, i < 8 → ((le64 v).getD i 0).toNat = v.toNat / 2 ^ (8 * i) % 256)

/-- Rule R117: two different pairs of associated data and ciphertext never give the same MAC input, whose length is a multiple of 16
and at least 16. -/
def Obligations.MacInputBindsItsParts : Prop :=
  ∀ a c a' c' : List Byte, a.length < 2 ^ 64 → c.length < 2 ^ 64 → a'.length < 2 ^ 64 → c'.length < 2 ^ 64 →
    (macInput a c (BitVec.ofNat 64 a.length) (BitVec.ofNat 64 c.length) =
      macInput a' c' (BitVec.ofNat 64 a'.length) (BitVec.ofNat 64 c'.length) → a = a' ∧ c = c') ∧
    16 ≤ (macInput a c (BitVec.ofNat 64 a.length) (BitVec.ofNat 64 c.length)).length ∧
    (macInput a c (BitVec.ofNat 64 a.length) (BitVec.ofNat 64 c.length)).length % 16 = 0

/-! Whole commands. -/

/-- Rule R157: every AEAD command whose duties hold and whose accesses are admitted is accepted and reaches `U_IDLE`. -/
def Obligations.AdmittedCommandsTerminate : Prop :=
  ∀ (s : State) (i : Instr) (op : BitVec 2),
    (i, op) ∈ [(Instr.enc, opEnc), (.dec, opDec), (.encc, opEncc), (.decc, opDecc)] → Ready op s → RegionsAdmitted op s →
    ∃ t, CommandRun i s t ∧ t.phase = uIdle ∧ t.status.done = !t.status.fail

/-- Rule R149, `ENC` from its issue to its return: the buffer holds the ciphertext, `TAG` the tag over associated data, ciphertext and
lengths, every byte outside the buffer and everything else as it was or as the close of the operation leaves it. -/
def Obligations.EncEncryptsInPlace : Prop :=
  ∀ s : State, Ready opEnc s → RegionsAdmitted opEnc s → nblk s.bufLen.toNat < 2 ^ 32 →
    let c := crypt openPrims (seedOf s).1 (seedOf s).2 (message opEnc s)
    ∃ t, CommandRun .enc s t ∧
      t = { finished s opEnc s.bufLen true causeNone with
        mem := t.mem, tag := tagOf openPrims (seedOf s).1 (seedOf s).2 (aadBytes s) c } ∧
      bytesAt t.mem s.bufAddr.toNat s.bufLen.toNat = c ∧
      ∀ a, ¬ InRange s.bufAddr.toNat s.bufLen.toNat a → Mem.read t.mem a = Mem.read s.mem a

/-- Rule R152, `ENCC`: the ciphertext and the tag after it in memory, register `TAG` unchanged, `RES_LEN` the message length plus
16. -/
def Obligations.EnccAppendsTheTag : Prop :=
  ∀ s : State, Ready opEncc s → RegionsAdmitted opEncc s → nblk s.bufLen.toNat < 2 ^ 32 →
    let c := crypt openPrims (seedOf s).1 (seedOf s).2 (message opEncc s)
    ∃ t, CommandRun .encc s t ∧
      t = { finished s opEncc (s.bufLen + 16) true causeNone with mem := t.mem } ∧
      t.resLen.toNat = s.bufLen.toNat + 16 ∧
      bytesAt t.mem s.bufAddr.toNat (s.bufLen.toNat + 16) =
        c ++ (tagOf openPrims (seedOf s).1 (seedOf s).2 (aadBytes s) c).data ∧
      ∀ a, ¬ InRange s.bufAddr.toNat (s.bufLen.toNat + 16) a → Mem.read t.mem a = Mem.read s.mem a

/-- Rules R150 and R153, `DEC` and `DECC` of a message within both size bounds: with the tag of the buffer as found equal to the
supplied one, the buffer holds the plaintext; otherwise the command fails with `AUTHFAIL` and changes no byte. -/
def Obligations.DecryptionVerifiesThenDecrypts : Prop :=
  ∀ (s : State) (i : Instr) (op : BitVec 2), (i, op) ∈ [(Instr.dec, opDec), (.decc, opDecc)] →
    Ready op s → RegionsAdmitted op s → nblk (messageLen op s) < 2 ^ 32 → (op = opDecc → 16 ≤ s.bufLen.toNat) →
    let expected := tagOf openPrims (seedOf s).1 (seedOf s).2 (aadBytes s) (message op s)
    (expected.data = suppliedTag op s →
      ∃ t, CommandRun i s t ∧
        t = { finished s op (BitVec.ofNat 64 (messageLen op s)) true causeNone with mem := t.mem } ∧
        bytesAt t.mem s.bufAddr.toNat (messageLen op s) =
          crypt openPrims (seedOf s).1 (seedOf s).2 (message op s) ∧
        ∀ a, ¬ InRange s.bufAddr.toNat (messageLen op s) a → Mem.read t.mem a = Mem.read s.mem a) ∧
    (expected.data ≠ suppliedTag op s → CommandRun i s (finished s op 0 false causeAuthfail))

/-- Rules R111, R148 and R205, the size failures: a `DECC` region shorter than a tag fails with `UNDERSIZE` and a message of `2^32`
blocks or more with `OVERSIZE`, whatever memory is admitted (but for the tag bytes that `DECC` latches), and no byte
changes. -/
def Obligations.SizeFailuresTouchNoMemoryButTheTagOfDecc : Prop :=
  ∀ (s : State) (i : Instr) (op : BitVec 2),
    (i, op) ∈ [(Instr.enc, opEnc), (.dec, opDec), (.encc, opEncc), (.decc, opDecc)] → Ready op s →
    (op = opDecc → s.bufLen.toNat < 16 → CommandRun i s (finished s op 0 false causeUndersize)) ∧
    ((op = opDecc → 16 ≤ s.bufLen.toNat ∧ PortOpen s (s.bufAddr.toNat + messageLen op s) 16) →
      2 ^ 32 ≤ nblk (messageLen op s) → CommandRun i s (finished s op 0 false causeOversize))

/-- Rules R204 and R206, the opaque outcome: whatever the cause, a failed command leaves everything but the hidden cause as one
function of the state before it: no byte of memory and not `TAG` written, `RES_LEN` and `NONCE` zero, the key and variant kept. -/
def Obligations.FailuresAreOpaqueAndHarmless : Prop :=
  ∀ (s t : State) (i : Instr) (op : BitVec 2),
    (i, op) ∈ [(Instr.enc, opEnc), (.dec, opDec), (.encc, opEncc), (.decc, opDecc)] →
    s.phase = uIdle → s.status.kv = true → s.resets = [] → CommandRun i s t → t.status.fail = true →
    t = finished s op 0 false t.cause ∧ t.cause ≠ causeNone ∧
    ∀ c : BitVec 2, SameView t (finished s op 0 false c)

/-- The round trip of rules R130 and R158: `DEC` of what `ENC` left, the nonce written again, succeeds and restores the data memory
whole. -/
def Obligations.DecUndoesEnc : Prop :=
  ∀ s : State, Ready opEnc s → RegionsAdmitted opEnc s → nblk s.bufLen.toNat < 2 ^ 32 →
    ∃ t u, CommandRun .enc s t ∧ CommandRun .dec { t with nonce := s.nonce } u ∧
      u.mem = s.mem ∧ u.status.done = true ∧ u.resLen = s.bufLen ∧ u.tag = t.tag

/-- The same for the combined form: `DECC` of what `ENCC` left restores the message and leaves the tag bytes after it. -/
def Obligations.DeccUndoesEncc : Prop :=
  ∀ s : State, Ready opEncc s → RegionsAdmitted opEncc s → nblk s.bufLen.toNat < 2 ^ 32 →
    ∃ t u, CommandRun .encc s t ∧ CommandRun .decc { t with nonce := s.nonce, bufLen := t.resLen } u ∧
      u.status.done = true ∧ u.resLen = s.bufLen ∧
      (∀ a, ¬ InRange (s.bufAddr.toNat + s.bufLen.toNat) 16 a → Mem.read u.mem a = Mem.read s.mem a) ∧
      bytesAt u.mem (s.bufAddr.toNat + s.bufLen.toNat) 16 = bytesAt t.mem (s.bufAddr.toNat + s.bufLen.toNat) 16

/-- Rule R169: a command in the extended form leaves what the same command leaves in the standard form under the derived key with the
inner nonce, but for the key and the variant themselves. -/
def Obligations.ExtendedFormIsStandardUnderTheSubkey : Prop :=
  ∀ (s t : State) (i : Instr), i ∈ [Instr.enc, .dec, .encc, .decc] →
    s.phase = uIdle → s.status.kv = true → s.status.xn = true → s.resets = [] → CommandRun i s t →
    let k := openPrims.kdf s.key (s.nonce.slice 0 16)
    let n := Bytes.ofList 24 ((innerNonce (s.nonce.slice 16 8)).data)
    CommandRun i { s with key := k, nonce := n, status := { s.status with xn := false } }
      { t with key := k, status := { t.status with xn := false } }

/-- Rule R27: in the standard form bytes 12 to 23 of `NONCE` are ignored, whatever they hold: the command's outcome, failure and stop
included, does not depend on them. -/
def Obligations.StandardFormIgnoresTheNonceTail : Prop :=
  ∀ (s : State) (n : Bytes 24), s.phase = uStart → s.status.xn = false → s.resets = [] →
    n.data.take 12 = s.nonce.data.take 12 → runCommand { s with nonce := n } = runCommand s
end

