-- ==== Sys2Proof/Laws/Bytes.lean ====
section
/-! SUPPORT. Byte strings of fixed length and the helpers of 00_scope.md rule R9: their small lemmas, said once. -/

namespace Sys2Proof

/-- Two byte strings of the same length are equal when their bytes are. -/
theorem Bytes.ext_data {n : Nat} {a b : Bytes n} (h : a.data = b.data) : a = b := by
  cases a; cases b; cases h; rfl

theorem Bytes.ext_get {n : Nat} {a b : Bytes n} (h : ∀ i, i < n → a.get i = b.get i) : a = b := by
  apply Bytes.ext_data
  apply List.ext_getElem (by rw [a.len, b.len])
  intro i ha hb
  have := h i (by rw [← a.len]; exact ha)
  simpa [Bytes.get, List.getD, ha, hb] using this

@[simp] theorem Bytes.data_zero (n : Nat) : (Bytes.zero n).data = List.replicate n 0#8 := rfl

@[simp] theorem Bytes.data_length {n : Nat} (b : Bytes n) : b.data.length = n := b.len

theorem Bytes.ofList_data {n : Nat} {l : List Byte} (h : l.length = n) : (Bytes.ofList n l).data = l := by
  simp [Bytes.ofList, h]

@[simp] theorem Bytes.ofList_data_self {n : Nat} (b : Bytes n) : Bytes.ofList n b.data = b :=
  Bytes.ext_data (Bytes.ofList_data b.len)

theorem Bytes.slice_data {n : Nat} (b : Bytes n) (a m : Nat) (h : a + m ≤ n) :
    (b.slice a m).data = (b.data.drop a).take m := by
  have h1 : m ≤ (b.data.drop a).length := by simp; omega
  simp [Bytes.slice, Bytes.ofList, List.take_append_of_le_length h1]

theorem Bytes.get_ofList {n : Nat} {l : List Byte} (h : l.length = n) (i : Nat) :
    (Bytes.ofList n l).get i = l.getD i 0#8 := by rw [Bytes.get, Bytes.ofList_data h]

theorem Bytes.get_slice {n : Nat} (b : Bytes n) (a m i : Nat) (h : a + m ≤ n) (hi : i < m) :
    (b.slice a m).get i = b.get (a + i) := by
  rw [Bytes.get, Bytes.slice_data b a m h, Bytes.get]
  simp [List.getD, hi]

theorem Bytes.get_set {n : Nat} (b : Bytes n) (i j : Nat) (x : Byte) (h : i < n) :
    (b.set i x).get j = if j = i then x else b.get j := by
  have hl : i < b.data.length := by rw [b.len]; exact h
  by_cases hj : j = i
  · subst hj; simp [Bytes.get, Bytes.set, List.getElem?_set_self hl]
  · simp [Bytes.get, Bytes.set, List.getElem?_set_ne (Ne.symm hj), hj]

theorem Bytes.get_data {n : Nat} (b : Bytes n) (i : Nat) (h : i < b.data.length) : b.get i = b.data[i] := by
  simp [Bytes.get, List.getElem?_eq_getElem h]

end Sys2Proof

namespace Sys2Proof.Machine

theorem pad16_eq (n : Nat) : pad16 n = (16 - n % 16) % 16 := rfl

theorem pad16_aligns (n : Nat) : (n + pad16 n) % 16 = 0 := by rw [pad16_eq]; omega

theorem nblk_eq (n : Nat) : nblk n = (n + 63) / 64 := by
  unfold nblk Config.blockBytes
  split <;> omega

/-- Rule R111: the size check in terms of the length. -/
theorem nblk_lt_iff (n : Nat) : nblk n < 2 ^ 32 ↔ n ≤ 2 ^ 38 - 64 := by rw [nblk_eq]; omega

@[simp] theorem zeros_length (n : Nat) : (zeros n).length = n := List.length_replicate

@[simp] theorem le64_length (v : BitVec 64) : (le64 v).length = 8 := by simp [le64]

theorem le64_getD (v : BitVec 64) (i : Nat) (h : i < 8) :
    ((le64 v).getD i 0#8).toNat = v.toNat / 2 ^ (8 * i) % 256 := by
  simp [le64, List.getD, h, BitVec.extractLsb', Nat.shiftRight_eq_div_pow]

theorem le64_injective {v w : BitVec 64} (h : le64 v = le64 w) : v = w := by
  have hb : ∀ i, i < 8 → v.toNat / 2 ^ (8 * i) % 256 = w.toNat / 2 ^ (8 * i) % 256 := fun i hi => by
    rw [← le64_getD v i hi, ← le64_getD w i hi, h]
  have h0 := hb 0 (by omega); have h1 := hb 1 (by omega); have h2 := hb 2 (by omega); have h3 := hb 3 (by omega)
  have h4 := hb 4 (by omega); have h5 := hb 5 (by omega); have h6 := hb 6 (by omega); have h7 := hb 7 (by omega)
  have hv := v.isLt; have hw := w.isLt
  apply BitVec.eq_of_toNat_eq
  norm_num at h0 h1 h2 h3 h4 h5 h6 h7 hv hw
  omega

@[simp] theorem xorList_length (a b : List Byte) : (xorList a b).length = min a.length b.length := List.length_zipWith

theorem xorList_zeros (n : Nat) (l : List Byte) (h : l.length = n) : xorList (List.replicate n 0#8) l = l := by
  apply List.ext_getElem (by simp [h])
  intro i h1 h2
  simp [xorList]

/-- `bytesAt` byte by byte, and against the port's own recursion. -/
@[simp] theorem bytesAt_length (m : List Host.Cell) (a n : Nat) : (bytesAt m a n).length = n := by simp [bytesAt]

theorem bytesAt_getD (m : List Host.Cell) (a n i : Nat) (h : i < n) : (bytesAt m a n).getD i 0#8 = Mem.read m (a + i) := by
  simp [bytesAt, List.getD, h]

theorem bytesAt_succ (m : List Host.Cell) (a n : Nat) : bytesAt m a (n + 1) = Mem.read m a :: bytesAt m (a + 1) n := by
  simp [bytesAt, List.range_succ_eq_map, Function.comp_def, Nat.add_assoc, Nat.add_comm 1]

theorem readRange_eq (m : List Host.Cell) (a n : Nat) : Mem.readRange m a n = bytesAt m a n := by
  induction n generalizing a with
  | zero => rfl
  | succ n ih => rw [Mem.readRange, ih, bytesAt_succ]

theorem bytesAt_congr {m m' : List Host.Cell} {a n : Nat} (h : ∀ i, i < n → Mem.read m (a + i) = Mem.read m' (a + i)) :
    bytesAt m a n = bytesAt m' a n :=
  List.map_congr_left fun i hi => h i (List.mem_range.mp hi)

theorem bytesAt_add (m : List Host.Cell) (a n k : Nat) : bytesAt m a (n + k) = bytesAt m a n ++ bytesAt m (a + n) k := by
  induction n generalizing a with
  | zero => simp [bytesAt]
  | succ n ih => rw [Nat.add_right_comm, bytesAt_succ, ih, bytesAt_succ]; simp [Nat.add_assoc, Nat.add_comm 1]

end Sys2Proof.Machine
end

