-- ==== Sys2Proof/Laws/Decode.lean ====
section
/-!
SUPPORT. Decoding (30_encoding.md rules R80 to R87): a lookup answers exactly the rows of its table, no code of a table stands
twice, and a word or a code is decoded exactly when a row holds it.
-/

namespace Sys2Proof

/-- A lookup answers exactly the rows of a table whose codes differ. -/
theorem lookupCode_eq_some {n : Nat} {table : List (BitVec n × Instr)} (h : (table.map (·.1)).Nodup)
    (c : BitVec n) (i : Instr) : lookupCode table c = some i ↔ (c, i) ∈ table := by
  induction table with
  | nil => simp [lookupCode]
  | cons row rest ih =>
    obtain ⟨d, j⟩ := row
    simp only [List.map_cons, List.nodup_cons, List.mem_map, not_exists, not_and] at h
    have ih' := ih h.2
    unfold lookupCode at ih' ⊢
    by_cases hd : d = c
    · subst hd
      simp only [List.find?_cons, beq_self_eq_true, Option.map_some, Option.some.injEq, List.mem_cons, Prod.mk.injEq, true_and]
      constructor
      · intro hj; exact .inl hj.symm
      · rintro (hj | hj)
        · exact hj.symm
        · exact absurd rfl (h.1 (d, i) hj)
    · simp only [List.find?_cons, beq_eq_false_iff_ne.mpr hd, ih', List.mem_cons, Prod.mk.injEq]
      constructor
      · exact .inr
      · rintro (⟨hc, _⟩ | hj)
        · exact absurd hc.symm hd
        · exact hj

theorem cmdTable_nodup : (cmdTable.map (·.1)).Nodup := by decide
theorem uopTable_nodup : (uopTable.map (·.1)).Nodup := by decide

/-- A command word is its two fields (rule R80). -/
theorem cmdWord_split (w : BitVec 32) : w = w.extractLsb' 8 24 ++ w.extractLsb' 0 8 := by
  apply BitVec.eq_of_toNat_eq
  simp only [BitVec.toNat_append, BitVec.extractLsb'_toNat, Nat.shiftRight_eq_div_pow]
  have := w.isLt
  rw [Nat.mod_eq_of_lt (a := w.toNat / 2 ^ 8) (by omega), ← Nat.shiftLeft_add_eq_or_of_lt (by omega), Nat.shiftLeft_eq]
  omega

theorem decodeCmd_eq_ok (w : BitVec 32) (i : Instr) :
    decodeCmd w = .ok i ↔ w.extractLsb' 8 24 = 0#24 ∧ (w.extractLsb' 0 8, i) ∈ cmdTable := by
  unfold decodeCmd
  split
  · rename_i h; simp [h]
  · rename_i h
    simp only [ne_eq, not_not] at h
    rw [← lookupCode_eq_some cmdTable_nodup]
    cases lookupCode cmdTable (w.extractLsb' 0 8) <;> simp [h]

theorem decodeUop_eq_ok (c : BitVec 5) (i : Instr) : decodeUop c = .ok i ↔ (c, i) ∈ uopTable := by
  unfold decodeUop
  rw [← lookupCode_eq_some uopTable_nodup]
  cases lookupCode uopTable c <;> simp

/-- Every code a micro-operation row holds is legal, and every legal code is held (rules R86 and R87). -/
theorem decodeUop_legal (c : BitVec 5) (h : c ≤ 0x11#5) : ∃ i, decodeUop c = .ok i := by
  have hs : (lookupCode uopTable c).isSome = true := by revert c; decide
  obtain ⟨i, hi⟩ := Option.isSome_iff_exists.mp hs
  exact ⟨i, (decodeUop_eq_ok c i).mpr ((lookupCode_eq_some uopTable_nodup c i).mp hi)⟩

theorem decodeUop_reserved (c : BitVec 5) (h : 0x11#5 < c) : decodeUop c = .error .reservedCode := by
  have hn : lookupCode uopTable c = none := by revert c; decide
  simp [decodeUop, hn]

theorem decodeUop_format {c : BitVec 5} {i : Instr} (h : decodeUop c = .ok i) : i.format = .uop := by
  rw [decodeUop_eq_ok] at h
  revert h; revert c; cases i <;> decide

/-- The code of the micro-operation a value of `PHASE` decodes to. -/
theorem encodeUop_of_decodeUop {c : BitVec 5} {i : Instr} (h : decodeUop c = .ok i) : encodeUop i = some c := by
  rw [decodeUop_eq_ok] at h
  revert h; revert c; cases i <;> decide

theorem decodeCmd_format {w : BitVec 32} {i : Instr} (h : decodeCmd w = .ok i) : i.format = .cmd := by
  have : ∀ c, (c, i) ∈ cmdTable → i.format = .cmd := by cases i <;> decide
  exact this _ ((decodeCmd_eq_ok w i).mp h).2

end Sys2Proof
end

