-- ==== Sys2Proof/Laws/Memory.lean ====
section
/-! SUPPORT. The data memory (20_memory.md rules R62 and R67): a read after a write, the frame of a write, the canonical form kept by
every operation, and equal readings give equal memories. -/

namespace Sys2Proof.Machine

/-- A memory in canonical form from `lo` on reads the default below `lo`. -/
theorem read_below {m : List Host.Cell} {lo a : Nat} (h : Mem.wfFrom lo m = true) (ha : a < lo) :
    Mem.read m a = Mem.default := by
  induction m generalizing lo with
  | nil => rfl
  | cons c rest ih =>
    obtain ⟨x, b⟩ := c
    simp only [Mem.wfFrom, Bool.and_eq_true, decide_eq_true_eq] at h
    rw [Mem.read, if_neg (by omega)]
    exact ih h.2 (by omega)

theorem wfFrom_mono {m : List Host.Cell} {lo lo' : Nat} (h : Mem.wfFrom lo m = true) (hl : lo' ≤ lo) :
    Mem.wfFrom lo' m = true := by
  cases m with
  | nil => rfl
  | cons c rest =>
    obtain ⟨x, b⟩ := c
    simp only [Mem.wfFrom, Bool.and_eq_true, decide_eq_true_eq] at h ⊢
    exact ⟨⟨⟨by omega, h.1.1.2⟩, h.1.2⟩, h.2⟩

theorem write_wfFrom {m : List Host.Cell} {lo a : Nat} {v : Byte} (h : Mem.wfFrom lo m = true) (hlo : lo ≤ a)
    (ha : a < Config.addrSpace) : Mem.wfFrom lo (Mem.write m a v) = true := by
  induction m generalizing lo with
  | nil =>
    rw [Mem.write]; split
    · rfl
    · rename_i hv; simp [Mem.wfFrom, hlo, ha, hv]
  | cons c rest ih =>
    obtain ⟨x, b⟩ := c
    have h' := h
    simp only [Mem.wfFrom, Bool.and_eq_true, decide_eq_true_eq, bne_iff_ne, ne_eq] at h
    obtain ⟨⟨⟨h1, h2⟩, h3⟩, h4⟩ := h
    rw [Mem.write]; split
    · rename_i hx
      simp only [Mem.wfFrom, Bool.and_eq_true, decide_eq_true_eq, bne_iff_ne, ne_eq]
      exact ⟨⟨⟨h1, h2⟩, h3⟩, ih h4 (by omega)⟩
    · rename_i hx
      have htail : Mem.wfFrom (a + 1) (if x = a then rest else (x, b) :: rest) = true := by
        split
        · rename_i he; subst he; exact h4
        · simp only [Mem.wfFrom, Bool.and_eq_true, decide_eq_true_eq, bne_iff_ne, ne_eq]
          exact ⟨⟨⟨by omega, h2⟩, h3⟩, h4⟩
      dsimp only; split
      · exact wfFrom_mono htail (by omega)
      · rename_i hv
        simp only [Mem.wfFrom, Bool.and_eq_true, decide_eq_true_eq, bne_iff_ne, ne_eq]
        exact ⟨⟨⟨hlo, ha⟩, hv⟩, htail⟩

/-- A write inside the data space keeps the canonical form. -/
theorem write_wf {m : List Host.Cell} {a : Nat} {v : Byte} (h : Memory.wf m = true) (ha : a < Config.addrSpace) :
    Memory.wf (Mem.write m a v) = true := write_wfFrom h (Nat.zero_le a) ha

/-- What a memory reads after a write; the cells must be in canonical form, or a second cell of the address could show. -/
theorem read_write_of_wf {m : List Host.Cell} {lo a x : Nat} {v : Byte} (h : Mem.wfFrom lo m = true) :
    Mem.read (Mem.write m a v) x = if x = a then v else Mem.read m x := by
  induction m generalizing lo with
  | nil =>
    rw [Mem.write]; split
    · rename_i hv; subst hv; simp [Mem.read]
    · simp only [Mem.read]; by_cases hx : a = x
      · simp [hx]
      · simp [hx, Ne.symm hx]
  | cons c rest ih =>
    obtain ⟨y, b⟩ := c
    simp only [Mem.wfFrom, Bool.and_eq_true, decide_eq_true_eq, bne_iff_ne, ne_eq] at h
    obtain ⟨⟨⟨h1, h2⟩, h3⟩, h4⟩ := h
    rw [Mem.write]; split
    · rename_i hy
      simp only [Mem.read]
      by_cases hx : y = x
      · subst hx; rw [if_pos rfl, if_neg (by omega), if_pos rfl]
      · rw [if_neg hx, ih h4]; simp only [if_neg hx]
    · rename_i hy
      dsimp only; split
      · rename_i hv; subst hv
        by_cases hx : x = a
        · subst hx; rw [if_pos rfl]
          split
          · rename_i he; subst he; exact read_below h4 (by omega)
          · simp only [Mem.read]; rw [if_neg (by omega)]; exact read_below h4 (by omega)
        · rw [if_neg hx]; split
          · rename_i he; subst he; simp only [Mem.read]; rw [if_neg (Ne.symm hx)]
          · rfl
      · simp only [Mem.read]
        by_cases hx : a = x
        · simp [hx]
        · rw [if_neg hx, if_neg (Ne.symm hx)]; split
          · rename_i he; subst he; rw [if_neg hx]
          · rfl

theorem read_write {m : List Host.Cell} {a x : Nat} {v : Byte} (h : Memory.wf m = true) :
    Mem.read (Mem.write m a v) x = if x = a then v else Mem.read m x := read_write_of_wf h

/-- The frame of a write, for any list of cells. -/
theorem read_write_ne {m : List Host.Cell} {a x : Nat} {v : Byte} (hx : x ≠ a) :
    Mem.read (Mem.write m a v) x = Mem.read m x := by
  induction m with
  | nil =>
    rw [Mem.write]; split
    · rfl
    · simp [Mem.read, Ne.symm hx]
  | cons c rest ih =>
    obtain ⟨y, b⟩ := c
    have htail : Mem.read (if y = a then rest else (y, b) :: rest) x = Mem.read ((y, b) :: rest) x := by
      split
      · rename_i he; subst he; simp only [Mem.read]; rw [if_neg (Ne.symm hx)]
      · rfl
    rw [Mem.write]; split
    · simp only [Mem.read, ih]
    · dsimp only; split
      · exact htail
      · simp only [Mem.read]; rw [if_neg (Ne.symm hx)]; exact htail

/-- `MemWrite` (rule R62): byte `i` of the string at `a + i`, every other address unchanged, the form kept. -/
theorem read_writeRange_ne {m : List Host.Cell} {a x : Nat} {l : List Byte} (hx : ¬ InRange a l.length x) :
    Mem.read (Mem.writeRange m a l) x = Mem.read m x := by
  induction l generalizing m a with
  | nil => rfl
  | cons v rest ih =>
    simp only [InRange, List.length_cons] at hx
    rw [Mem.writeRange, ih (by simp only [InRange]; omega), read_write_ne (by omega)]

theorem writeRange_wf {m : List Host.Cell} {a : Nat} {l : List Byte} (h : Memory.wf m = true)
    (ha : a + l.length ≤ Config.addrSpace) : Memory.wf (Mem.writeRange m a l) = true := by
  induction l generalizing m a with
  | nil => exact h
  | cons v rest ih =>
    simp only [List.length_cons] at ha
    exact ih (write_wf h (by omega)) (by omega)

theorem read_writeRange {m : List Host.Cell} {a i : Nat} {l : List Byte} (h : Memory.wf m = true)
    (ha : a + l.length ≤ Config.addrSpace) (hi : i < l.length) :
    Mem.read (Mem.writeRange m a l) (a + i) = l.getD i 0#8 := by
  induction l generalizing m a i with
  | nil => simp at hi
  | cons v rest ih =>
    simp only [List.length_cons] at ha hi
    rw [Mem.writeRange]
    cases i with
    | zero => rw [read_writeRange_ne (by simp only [InRange]; omega), read_write h]; simp
    | succ i =>
      rw [show a + (i + 1) = a + 1 + i by omega, ih (write_wf h (by omega)) (by omega) (by omega)]; simp

/-- Two memories in canonical form that read the same everywhere are equal. -/
theorem wfFrom_ext {m m' : List Host.Cell} {lo : Nat} (h : Mem.wfFrom lo m = true) (h' : Mem.wfFrom lo m' = true)
    (hr : ∀ a, Mem.read m a = Mem.read m' a) : m = m' := by
  induction m generalizing m' lo with
  | nil =>
    cases m' with
    | nil => rfl
    | cons c rest =>
      obtain ⟨x, b⟩ := c
      simp only [Mem.wfFrom, Bool.and_eq_true, decide_eq_true_eq, bne_iff_ne, ne_eq] at h'
      have := hr x
      simp only [Mem.read, if_true] at this
      exact absurd this.symm h'.1.2
  | cons c rest ih =>
    obtain ⟨x, b⟩ := c
    have hw := h
    simp only [Mem.wfFrom, Bool.and_eq_true, decide_eq_true_eq, bne_iff_ne, ne_eq] at h
    cases m' with
    | nil =>
      have := hr x
      simp only [Mem.read, if_true] at this
      exact absurd this h.1.2
    | cons c' rest' =>
      obtain ⟨y, b'⟩ := c'
      have hw' := h'
      simp only [Mem.wfFrom, Bool.and_eq_true, decide_eq_true_eq, bne_iff_ne, ne_eq] at h'
      have below : ∀ {z : Nat} {c : Byte} {l : List Host.Cell} {a : Nat}, Mem.wfFrom (z + 1) l = true → a < z →
          Mem.read ((z, c) :: l) a = Mem.default := fun hl ha => by
        simp only [Mem.read]; rw [if_neg (by omega)]; exact read_below hl (by omega)
      have hxy : x = y := by
        rcases Nat.lt_trichotomy x y with hlt | he | hlt
        · have := hr x
          rw [below h'.2 hlt] at this; simp only [Mem.read, if_true] at this
          exact absurd this h.1.2
        · exact he
        · have := hr y
          rw [below h.2 hlt] at this; simp only [Mem.read, if_true] at this
          exact absurd this.symm h'.1.2
      subst hxy
      have hb : b = b' := by simpa [Mem.read] using hr x
      subst hb
      rw [ih h.2 h'.2 fun a => ?_]
      by_cases ha : x = a
      · subst ha; rw [read_below h.2 (by omega), read_below h'.2 (by omega)]
      · simpa [Mem.read, ha] using hr a

theorem mem_ext {m m' : List Host.Cell} (h : Memory.wf m = true) (h' : Memory.wf m' = true)
    (hr : ∀ a, Mem.read m a = Mem.read m' a) : m = m' := wfFrom_ext h h' hr

end Sys2Proof.Machine
end

