-- ==== Sys2Proof/Laws/Port.lean ====
section
/-! SUPPORT. The master port (20_memory.md rules R66 and R67) and the region duties (rule R73): everything `withPort`, `openRun` and
`dutyBreach` can answer. -/

namespace Sys2Proof.Machine

/-- The port depends on the platform's map alone. -/
theorem portKind_congr {s t : State} (h : t.memMap = s.memMap) (a : Nat) : portKind t a = portKind s a := by
  simp [portKind, h]

theorem portKind_lt {s : State} {a : Nat} (h : portKind s a = .ordinary) : a < Config.addrSpace := by
  by_contra hn
  simp [portKind, Nat.le_of_not_lt hn] at h

theorem portOpen_congr {s t : State} (h : t.memMap = s.memMap) {a n : Nat} : PortOpen t a n ↔ PortOpen s a n := by
  simp only [PortOpen, portKind_congr h]

theorem portOpen_succ {s : State} {a n : Nat} :
    PortOpen s a (n + 1) ↔ portKind s a = .ordinary ∧ PortOpen s (a + 1) n := by
  constructor
  · intro h
    exact ⟨by simpa using h 0 (by omega), fun i hi => by simpa [Nat.add_assoc, Nat.add_comm 1] using h (i + 1) (by omega)⟩
  · rintro ⟨h0, h⟩ i hi
    cases i with
    | zero => simpa using h0
    | succ i => simpa [Nat.add_assoc, Nat.add_comm 1] using h i (by omega)

theorem portOpen_fits {s : State} {a n : Nat} (h : PortOpen s a n) (hn : 0 < n) : a + n ≤ Config.addrSpace := by
  have := portKind_lt (h (n - 1) (by omega)); omega

/-- With every access ordinary the port passes. -/
theorem withPort_open {s : State} {a n : Nat} {k : Result} (h : PortOpen s a n) : withPort s a n k = k := by
  induction n generalizing a with
  | zero => rfl
  | succ n ih => rw [portOpen_succ] at h; simp only [withPort, h.1]; exact ih h.2

/-- If the port passes to a next state, every access was ordinary and the state is the continuation's. -/
theorem withPort_next {s t : State} {a n : Nat} {k : Result} (h : withPort s a n k = .next t) :
    PortOpen s a n ∧ k = .next t := by
  induction n generalizing a with
  | zero => exact ⟨fun i hi => absurd hi (by omega), h⟩
  | succ n ih =>
    simp only [withPort] at h
    split at h
    · rename_i hk; exact ⟨portOpen_succ.mpr ⟨hk, (ih h).1⟩, (ih h).2⟩
    · cases h
    · cases h

/-- The first access that is not ordinary memory decides how the step stops. -/
theorem firstStop_succ {s : State} {a n : Nat} {p : PortKind} (h : FirstStop s a (n + 1) p) :
    portKind s a = p ∨ (portKind s a = .ordinary ∧ FirstStop s (a + 1) n p) := by
  obtain ⟨hp, i, hi, ho, hk⟩ := h
  cases i with
  | zero => exact .inl (by simpa using hk)
  | succ i =>
    rw [portOpen_succ] at ho
    exact .inr ⟨ho.1, hp, i, by omega, ho.2, by rw [← hk]; congr 1; omega⟩

theorem withPort_absent {s : State} {a n : Nat} {k : Result} (h : FirstStop s a n .absent) :
    withPort s a n k = .fault .unadmittedAddress := by
  induction n generalizing a with
  | zero => obtain ⟨_, i, hi, _⟩ := h; omega
  | succ n ih =>
    rcases firstStop_succ h with hk | ⟨hk, h'⟩
    · simp only [withPort, hk]
    · simp only [withPort, hk]; exact ih h'

theorem withPort_sideEffect {s : State} {a n : Nat} {k : Result} (h : FirstStop s a n .sideEffect) :
    withPort s a n k = .refused .sideEffectAddress := by
  induction n generalizing a with
  | zero => obtain ⟨_, i, hi, _⟩ := h; omega
  | succ n ih =>
    rcases firstStop_succ h with hk | ⟨hk, h'⟩
    · simp only [withPort, hk]
    · simp only [withPort, hk]; exact ih h'

theorem withPort_congr {s t : State} (h : t.memMap = s.memMap) (a n : Nat) (k : Result) :
    withPort t a n k = withPort s a n k := by
  induction n generalizing a with
  | zero => rfl
  | succ n ih => simp only [withPort, portKind_congr h, ih]

/-- Of the accesses that `openRun` counts all are ordinary, and it counts at most `n`. -/
theorem openRun_open (s : State) (a n : Nat) : openRun s a n ≤ n ∧ PortOpen s a (openRun s a n) := by
  induction n generalizing a with
  | zero => exact ⟨Nat.le_refl 0, fun i hi => absurd hi (by simp [openRun])⟩
  | succ n ih =>
    simp only [openRun]
    split
    · rename_i hk
      refine ⟨by have := (ih (a + 1)).1; omega, ?_⟩
      rw [Nat.add_comm 1, portOpen_succ]; exact ⟨hk, (ih (a + 1)).2⟩
    · exact ⟨Nat.zero_le _, fun i hi => absurd hi (by omega)⟩
    · exact ⟨Nat.zero_le _, fun i hi => absurd hi (by omega)⟩

theorem portOpen_mono {s : State} {a n m : Nat} (h : PortOpen s a n) (hm : m ≤ n) : PortOpen s a m :=
  fun i hi => h i (by omega)

theorem portOpen_drop {s : State} {a n m : Nat} (h : PortOpen s a (n + m)) : PortOpen s (a + n) m :=
  fun i hi => by rw [Nat.add_assoc]; exact h (n + i) (by omega)

/-- Two ranges overlap exactly when they share an address. -/
theorem overlaps_iff (a n b m : Nat) : overlaps a n b m = true ↔ ∃ x, InRange a n x ∧ InRange b m x := by
  simp only [overlaps, Bool.and_eq_true, decide_eq_true_eq, InRange]
  constructor
  · rintro ⟨⟨⟨h1, h2⟩, h3⟩, h4⟩
    exact ⟨max a b, by omega, by omega⟩
  · rintro ⟨x, hx⟩; omega

theorem touchesSideEffect_iff (s : State) (a n : Nat) :
    touchesSideEffect s a n = true ↔ ∃ x, InRange a n x ∧ SideEffectAt s x := by
  simp only [touchesSideEffect, List.any_eq_true, Bool.and_eq_true, beq_iff_eq, overlaps_iff, SideEffectAt]
  constructor
  · rintro ⟨r, hr, hk, x, h1, h2⟩; exact ⟨x, h1, r, hr, hk, h2⟩
  · rintro ⟨x, h1, r, hr, hk, h2⟩; exact ⟨r, hr, hk, x, h1, h2⟩

/-- The check of rule R73 finds no breach exactly when the duties hold. -/
theorem dutyBreach_none_iff (op : BitVec 2) (s : State) : dutyBreach op s = none ↔ RegionDuties op s := by
  have ho := overlaps_iff s.bufAddr.toNat (span op s) s.aadAddr.toNat s.aadLen.toNat
  have hw := touchesSideEffect_iff s s.bufAddr.toNat (span op s)
  have ha := touchesSideEffect_iff s s.aadAddr.toNat s.aadLen.toNat
  constructor
  · intro h
    simp only [dutyBreach] at h
    split at h
    · cases h
    · rename_i h1
      split at h
      · cases h
      · rename_i h2
        split at h
        · cases h
        · rename_i h3
          simp only [Bool.or_eq_true, decide_eq_true_eq, not_or, Nat.not_lt] at h1 h3
          rw [ho] at h2; rw [hw, ha] at h3
          exact ⟨h1.1, h1.2, fun a h4 h5 => h2 ⟨a, h4, h5⟩, fun a h4 h5 => h3.1 ⟨a, h4, h5⟩, fun a h4 h5 => h3.2 ⟨a, h4, h5⟩⟩
  · intro ⟨h1, h2, h3, h4, h5⟩
    simp only [dutyBreach]
    rw [if_neg (by simp only [Bool.or_eq_true, decide_eq_true_eq]; omega),
      if_neg (by rw [ho]; rintro ⟨x, hx, hy⟩; exact h3 x hx hy), if_neg]
    rw [Bool.or_eq_true, hw, ha]
    rintro (⟨x, hx, hy⟩ | ⟨x, hx, hy⟩)
    · exact h4 x hx hy
    · exact h5 x hx hy

end Sys2Proof.Machine
end

