-- ==== Sys2Proof/Laws/Keystream.lean ====
section
/-! SUPPORT. The keystream (42_keystream_sequencer.md rules R125 to R130): `ksbyte` as a move along one byte string, and the loops of
`MACKEY` and `XOR` as functions of the position. -/

namespace Sys2Proof.Machine

@[simp] theorem setPosition_seedKey (e : Eph) (p : Nat) : (setPosition e p).seedKey = e.seedKey := rfl
@[simp] theorem setPosition_seedNonce (e : Eph) (p : Nat) : (setPosition e p).seedNonce = e.seedNonce := rfl
@[simp] theorem setPosition_setPosition (e : Eph) (p q : Nat) : setPosition (setPosition e p) q = setPosition e q := rfl
@[simp] theorem setPosition_scratch (e : Eph) (p : Nat) : (setPosition e p).scratch = e.scratch := rfl
@[simp] theorem setPosition_macmsg (e : Eph) (p : Nat) : (setPosition e p).macmsg = e.macmsg := rfl
@[simp] theorem setPosition_mlen (e : Eph) (p : Nat) : (setPosition e p).mlen = e.mlen := rfl

theorem position_lt (e : Eph) : position e < 2 ^ 38 := by
  have h1 := e.ctr.isLt; have h2 := e.off.isLt; unfold position; omega

/-- The position is what `setPosition` put there, modulo the length of the keystream (rule R126). -/
theorem position_setPosition (e : Eph) (p : Nat) : position (setPosition e p) = p % 2 ^ 38 := by
  simp only [position, setPosition, BitVec.toNat_ofNat]; omega

theorem setPosition_mod (e : Eph) (p : Nat) : setPosition e (p % 2 ^ 38) = setPosition e p := by
  unfold setPosition
  congr 1
  · apply BitVec.eq_of_toNat_eq; simp only [BitVec.toNat_ofNat]; omega
  · apply BitVec.eq_of_toNat_eq; simp only [BitVec.toNat_ofNat]; omega

theorem setPosition_self (e : Eph) : setPosition e (position e) = e := by
  have h1 := e.ctr.isLt; have h2 := e.off.isLt
  have hc : BitVec.ofNat 32 (position e / 64) = e.ctr := by
    apply BitVec.eq_of_toNat_eq; simp only [BitVec.toNat_ofNat, position]; omega
  have ho : BitVec.ofNat 6 (position e) = e.off := by
    apply BitVec.eq_of_toNat_eq; simp only [BitVec.toNat_ofNat, position]; omega
  unfold setPosition; rw [hc, ho]

theorem ksStream_mod (P : Prims) (k : Bytes 32) (n : Bytes 12) (p : Nat) :
    ksStream P k n (p % 2 ^ 38) = ksStream P k n p := by
  have h : BitVec.ofNat 32 (p % 2 ^ 38 / 64) = BitVec.ofNat 32 (p / 64) := by
    apply BitVec.eq_of_toNat_eq; simp only [BitVec.toNat_ofNat]; omega
  unfold ksStream; rw [h, show p % 2 ^ 38 % 64 = p % 64 by omega]

/-- Rule R127: the byte at the position, and the position one further. -/
theorem ksbyte_eq (P : Prims) (e : Eph) :
    ksbyte P e = (ksStream P e.seedKey e.seedNonce (position e), setPosition e (position e + 1)) := by
  have h1 := e.ctr.isLt; have h2 := e.off.isLt
  have o6 : (1 : BitVec 6).toNat = 1 := rfl
  have z6 : (0 : BitVec 6).toNat = 0 := rfl
  have o32 : (1 : BitVec 32).toNat = 1 := rfl
  have hc : BitVec.ofNat 32 (position e / 64) = e.ctr := by
    apply BitVec.eq_of_toNat_eq; simp only [BitVec.toNat_ofNat, position]; omega
  have hm : position e % 64 = e.off.toNat := by unfold position; omega
  have ho : BitVec.ofNat 6 (position e + 1) = e.off + 1 := by
    apply BitVec.eq_of_toNat_eq; simp only [BitVec.toNat_ofNat, BitVec.toNat_add, position, o6]; omega
  have hd : BitVec.ofNat 32 ((position e + 1) / 64) = if e.off + 1 = 0 then e.ctr + 1 else e.ctr := by
    apply BitVec.eq_of_toNat_eq
    have hz : e.off + 1 = 0 ↔ e.off.toNat = 63 := by
      rw [← BitVec.toNat_inj]; simp only [BitVec.toNat_add, o6, z6]; omega
    split
    · rename_i h; rw [hz] at h; simp only [BitVec.toNat_ofNat, BitVec.toNat_add, position, o32]; omega
    · rename_i h; rw [hz] at h; simp only [BitVec.toNat_ofNat, position]; omega
  simp only [ksbyte, ksStream, setPosition, hc, hm, ho, hd]

/-- `n` calls of `ksbyte` (rule R125). -/
theorem ksbytes_eq (P : Prims) (n : Nat) (e : Eph) :
    ksbytes P n e =
      ((List.range n).map fun i => ksStream P e.seedKey e.seedNonce (position e + i), setPosition e (position e + n)) := by
  induction n generalizing e with
  | zero => simp [ksbytes, setPosition_self]
  | succ n ih =>
    simp only [ksbytes, ksbyte_eq, ih, setPosition_seedKey, setPosition_seedNonce, position_setPosition,
      setPosition_setPosition, List.range_succ_eq_map, List.map_cons, List.map_map, Nat.add_zero]
    refine Prod.ext ?_ ?_
    · refine congrArg (_ :: ·) (List.map_congr_left fun i _ => ?_)
      simp only [Function.comp_apply, Nat.succ_eq_add_one]
      rw [← ksStream_mod, ← ksStream_mod P _ _ (_ + (i + 1))]; congr 1; omega
    · dsimp only
      rw [← setPosition_mod, ← setPosition_mod e (_ + (n + 1))]; congr 1; omega

/-- What the loop of `XOR` leaves besides the memory: the generator moved on. -/
theorem xorBytes_frame (P : Prims) (n a : Nat) (s : State) :
    xorBytes P n a s =
      { s with mem := (xorBytes P n a s).mem, eph := setPosition s.eph (position s.eph + n) } := by
  induction n generalizing a s with
  | zero => simp [xorBytes, setPosition_self]
  | succ n ih =>
    simp only [xorBytes, ksbyte_eq]
    rw [ih]
    simp only [setPosition_setPosition, position_setPosition]
    congr 1
    rw [← setPosition_mod, ← setPosition_mod s.eph (_ + (n + 1))]; congr 1; omega

/-- What the loop of `XOR` writes depends on the memory, the seed and the position alone. -/
theorem xorBytes_mem_congr (P : Prims) (n a : Nat) {s t : State} (hm : t.mem = s.mem) (hk : t.eph.seedKey = s.eph.seedKey)
    (hn : t.eph.seedNonce = s.eph.seedNonce) (hp : position t.eph = position s.eph) :
    (xorBytes P n a t).mem = (xorBytes P n a s).mem := by
  induction n generalizing a s t with
  | zero => exact hm
  | succ n ih =>
    simp only [xorBytes, ksbyte_eq, hm, hk, hn, hp]
    exact ih (a + 1) rfl hk hn (by simp only [position_setPosition])

theorem xorBytes_wf (P : Prims) (n a : Nat) (s : State) (h : Memory.wf s.mem = true)
    (ha : n = 0 ∨ a + n ≤ Config.addrSpace) : Memory.wf (xorBytes P n a s).mem = true := by
  induction n generalizing a s with
  | zero => exact h
  | succ n ih => exact ih (a + 1) _ (write_wf h (by omega)) (by omega)

/-- A byte outside the range is unchanged. -/
theorem xorBytes_read_ne (P : Prims) (n a x : Nat) (s : State) (hx : ¬ InRange a n x) :
    Mem.read (xorBytes P n a s).mem x = Mem.read s.mem x := by
  induction n generalizing a s with
  | zero => rfl
  | succ n ih =>
    simp only [InRange] at hx
    simp only [xorBytes]
    rw [ih (a + 1) _ (by simp only [InRange]; omega)]
    exact read_write_ne (by omega)

/-- Rule R128: each byte of the range XORed with its keystream byte. -/
theorem xorBytes_read (P : Prims) (n a i : Nat) (s : State) (h : Memory.wf s.mem = true)
    (ha : a + n ≤ Config.addrSpace) (hi : i < n) :
    Mem.read (xorBytes P n a s).mem (a + i) =
      Mem.read s.mem (a + i) ^^^ ksStream P s.eph.seedKey s.eph.seedNonce (position s.eph + i) := by
  induction n generalizing a i s with
  | zero => omega
  | succ n ih =>
    simp only [xorBytes, ksbyte_eq]
    cases i with
    | zero =>
      rw [xorBytes_read_ne _ _ _ _ _ (by simp only [InRange]; omega)]
      simp [read_write h]
    | succ i =>
      rw [show a + (i + 1) = a + 1 + i by omega, ih (a + 1) i _ (write_wf h (by omega)) (by omega) (by omega)]
      simp only [setPosition_seedKey, setPosition_seedNonce, position_setPosition]
      rw [read_write_ne (by omega)]
      congr 1
      rw [← ksStream_mod, ← ksStream_mod P _ _ (_ + (i + 1))]; congr 1; omega

end Sys2Proof.Machine
end

