-- ==== Sys2Proof/Laws/State.lean ====
section
/-!
SUPPORT. One lemma per field per shared update of the state, so that no proof unfolds a record update: `raiseFail`, `reject`,
`endOfOperation`, `returnWith`, `finishKeyCommand`, `clearOutcome` and `resetRegisters`.
-/

namespace Sys2Proof.Machine

/-! `raiseFail`. -/

@[simp] theorem raiseFail_bufAddr (c : BitVec 2) (s : State) : (raiseFail c s).bufAddr = s.bufAddr := rfl
@[simp] theorem raiseFail_bufLen (c : BitVec 2) (s : State) : (raiseFail c s).bufLen = s.bufLen := rfl
@[simp] theorem raiseFail_aadAddr (c : BitVec 2) (s : State) : (raiseFail c s).aadAddr = s.aadAddr := rfl
@[simp] theorem raiseFail_aadLen (c : BitVec 2) (s : State) : (raiseFail c s).aadLen = s.aadLen := rfl
@[simp] theorem raiseFail_resLen (c : BitVec 2) (s : State) : (raiseFail c s).resLen = s.resLen := rfl
@[simp] theorem raiseFail_nonce (c : BitVec 2) (s : State) : (raiseFail c s).nonce = s.nonce := rfl
@[simp] theorem raiseFail_tag (c : BitVec 2) (s : State) : (raiseFail c s).tag = s.tag := rfl
@[simp] theorem raiseFail_status (c : BitVec 2) (s : State) : (raiseFail c s).status = s.status := rfl
@[simp] theorem raiseFail_keyin (c : BitVec 2) (s : State) : (raiseFail c s).keyin = s.keyin := rfl
@[simp] theorem raiseFail_key (c : BitVec 2) (s : State) : (raiseFail c s).key = s.key := rfl
@[simp] theorem raiseFail_op (c : BitVec 2) (s : State) : (raiseFail c s).op = s.op := rfl
@[simp] theorem raiseFail_phase (c : BitVec 2) (s : State) : (raiseFail c s).phase = uRetfail := rfl
@[simp] theorem raiseFail_cause (c : BitVec 2) (s : State) : (raiseFail c s).cause = c := rfl
@[simp] theorem raiseFail_eph (c : BitVec 2) (s : State) : (raiseFail c s).eph = s.eph := rfl
@[simp] theorem raiseFail_mem (c : BitVec 2) (s : State) : (raiseFail c s).mem = s.mem := rfl
@[simp] theorem raiseFail_memMap (c : BitVec 2) (s : State) : (raiseFail c s).memMap = s.memMap := rfl
@[simp] theorem raiseFail_hostQ (c : BitVec 2) (s : State) : (raiseFail c s).hostQ = s.hostQ := rfl
@[simp] theorem raiseFail_hostR (c : BitVec 2) (s : State) : (raiseFail c s).hostR = s.hostR := rfl
@[simp] theorem raiseFail_resets (c : BitVec 2) (s : State) : (raiseFail c s).resets = s.resets := rfl
@[simp] theorem raiseFail_freeCount (c : BitVec 2) (s : State) : (raiseFail c s).freeCount = s.freeCount := rfl

/-! `reject`. -/

@[simp] theorem reject_bufAddr (s : State) : (reject s).bufAddr = s.bufAddr := rfl
@[simp] theorem reject_bufLen (s : State) : (reject s).bufLen = s.bufLen := rfl
@[simp] theorem reject_aadAddr (s : State) : (reject s).aadAddr = s.aadAddr := rfl
@[simp] theorem reject_aadLen (s : State) : (reject s).aadLen = s.aadLen := rfl
@[simp] theorem reject_resLen (s : State) : (reject s).resLen = s.resLen := rfl
@[simp] theorem reject_nonce (s : State) : (reject s).nonce = s.nonce := rfl
@[simp] theorem reject_tag (s : State) : (reject s).tag = s.tag := rfl
@[simp] theorem reject_status (s : State) : (reject s).status = ⟨s.status.kv, s.status.xn, false, false, true⟩ := rfl
@[simp] theorem reject_keyin (s : State) : (reject s).keyin = s.keyin := rfl
@[simp] theorem reject_key (s : State) : (reject s).key = s.key := rfl
@[simp] theorem reject_op (s : State) : (reject s).op = s.op := rfl
@[simp] theorem reject_phase (s : State) : (reject s).phase = s.phase := rfl
@[simp] theorem reject_cause (s : State) : (reject s).cause = s.cause := rfl
@[simp] theorem reject_eph (s : State) : (reject s).eph = s.eph := rfl
@[simp] theorem reject_mem (s : State) : (reject s).mem = s.mem := rfl
@[simp] theorem reject_memMap (s : State) : (reject s).memMap = s.memMap := rfl
@[simp] theorem reject_hostQ (s : State) : (reject s).hostQ = s.hostQ := rfl
@[simp] theorem reject_hostR (s : State) : (reject s).hostR = s.hostR := rfl
@[simp] theorem reject_resets (s : State) : (reject s).resets = s.resets := rfl
@[simp] theorem reject_freeCount (s : State) : (reject s).freeCount = s.freeCount := rfl

/-! `endOfOperation`. -/

@[simp] theorem endOfOperation_bufAddr (s : State) : (endOfOperation s).bufAddr = s.bufAddr := rfl
@[simp] theorem endOfOperation_bufLen (s : State) : (endOfOperation s).bufLen = s.bufLen := rfl
@[simp] theorem endOfOperation_aadAddr (s : State) : (endOfOperation s).aadAddr = s.aadAddr := rfl
@[simp] theorem endOfOperation_aadLen (s : State) : (endOfOperation s).aadLen = s.aadLen := rfl
@[simp] theorem endOfOperation_resLen (s : State) : (endOfOperation s).resLen = s.resLen := rfl
@[simp] theorem endOfOperation_nonce (s : State) : (endOfOperation s).nonce = Bytes.zero 24 := rfl
@[simp] theorem endOfOperation_tag (s : State) : (endOfOperation s).tag = s.tag := rfl
@[simp] theorem endOfOperation_status (s : State) : (endOfOperation s).status = s.status := rfl
@[simp] theorem endOfOperation_keyin (s : State) : (endOfOperation s).keyin = s.keyin := rfl
@[simp] theorem endOfOperation_key (s : State) : (endOfOperation s).key = s.key := rfl
@[simp] theorem endOfOperation_op (s : State) : (endOfOperation s).op = s.op := rfl
@[simp] theorem endOfOperation_phase (s : State) : (endOfOperation s).phase = s.phase := rfl
@[simp] theorem endOfOperation_cause (s : State) : (endOfOperation s).cause = s.cause := rfl
@[simp] theorem endOfOperation_eph (s : State) : (endOfOperation s).eph = Eph.reset := rfl
@[simp] theorem endOfOperation_mem (s : State) : (endOfOperation s).mem = s.mem := rfl
@[simp] theorem endOfOperation_memMap (s : State) : (endOfOperation s).memMap = s.memMap := rfl
@[simp] theorem endOfOperation_hostQ (s : State) : (endOfOperation s).hostQ = s.hostQ := rfl
@[simp] theorem endOfOperation_hostR (s : State) : (endOfOperation s).hostR = s.hostR := rfl
@[simp] theorem endOfOperation_resets (s : State) : (endOfOperation s).resets = s.resets := rfl
@[simp] theorem endOfOperation_freeCount (s : State) : (endOfOperation s).freeCount = s.freeCount := rfl

/-! `returnWith`. -/

@[simp] theorem returnWith_bufAddr (len : BitVec 64) (ok : Bool) (s : State) : (returnWith len ok s).bufAddr = s.bufAddr := rfl
@[simp] theorem returnWith_bufLen (len : BitVec 64) (ok : Bool) (s : State) : (returnWith len ok s).bufLen = s.bufLen := rfl
@[simp] theorem returnWith_aadAddr (len : BitVec 64) (ok : Bool) (s : State) : (returnWith len ok s).aadAddr = s.aadAddr := rfl
@[simp] theorem returnWith_aadLen (len : BitVec 64) (ok : Bool) (s : State) : (returnWith len ok s).aadLen = s.aadLen := rfl
@[simp] theorem returnWith_resLen (len : BitVec 64) (ok : Bool) (s : State) : (returnWith len ok s).resLen = len := rfl
@[simp] theorem returnWith_nonce (len : BitVec 64) (ok : Bool) (s : State) : (returnWith len ok s).nonce = Bytes.zero 24 := rfl
@[simp] theorem returnWith_tag (len : BitVec 64) (ok : Bool) (s : State) : (returnWith len ok s).tag = s.tag := rfl
@[simp] theorem returnWith_status (len : BitVec 64) (ok : Bool) (s : State) : (returnWith len ok s).status = ⟨s.status.kv, s.status.xn, ok, !ok, s.status.cmderr⟩ := rfl
@[simp] theorem returnWith_keyin (len : BitVec 64) (ok : Bool) (s : State) : (returnWith len ok s).keyin = s.keyin := rfl
@[simp] theorem returnWith_key (len : BitVec 64) (ok : Bool) (s : State) : (returnWith len ok s).key = s.key := rfl
@[simp] theorem returnWith_op (len : BitVec 64) (ok : Bool) (s : State) : (returnWith len ok s).op = s.op := rfl
@[simp] theorem returnWith_phase (len : BitVec 64) (ok : Bool) (s : State) : (returnWith len ok s).phase = uIdle := rfl
@[simp] theorem returnWith_cause (len : BitVec 64) (ok : Bool) (s : State) : (returnWith len ok s).cause = s.cause := rfl
@[simp] theorem returnWith_eph (len : BitVec 64) (ok : Bool) (s : State) : (returnWith len ok s).eph = Eph.reset := rfl
@[simp] theorem returnWith_mem (len : BitVec 64) (ok : Bool) (s : State) : (returnWith len ok s).mem = s.mem := rfl
@[simp] theorem returnWith_memMap (len : BitVec 64) (ok : Bool) (s : State) : (returnWith len ok s).memMap = s.memMap := rfl
@[simp] theorem returnWith_hostQ (len : BitVec 64) (ok : Bool) (s : State) : (returnWith len ok s).hostQ = s.hostQ := rfl
@[simp] theorem returnWith_hostR (len : BitVec 64) (ok : Bool) (s : State) : (returnWith len ok s).hostR = s.hostR := rfl
@[simp] theorem returnWith_resets (len : BitVec 64) (ok : Bool) (s : State) : (returnWith len ok s).resets = s.resets := rfl
@[simp] theorem returnWith_freeCount (len : BitVec 64) (ok : Bool) (s : State) : (returnWith len ok s).freeCount = s.freeCount := rfl

/-! `finishKeyCommand`. -/

@[simp] theorem finishKeyCommand_bufAddr (k : Bytes 32) (kv xn : Bool) (s : State) : (finishKeyCommand k kv xn s).bufAddr = s.bufAddr := rfl
@[simp] theorem finishKeyCommand_bufLen (k : Bytes 32) (kv xn : Bool) (s : State) : (finishKeyCommand k kv xn s).bufLen = s.bufLen := rfl
@[simp] theorem finishKeyCommand_aadAddr (k : Bytes 32) (kv xn : Bool) (s : State) : (finishKeyCommand k kv xn s).aadAddr = s.aadAddr := rfl
@[simp] theorem finishKeyCommand_aadLen (k : Bytes 32) (kv xn : Bool) (s : State) : (finishKeyCommand k kv xn s).aadLen = s.aadLen := rfl
@[simp] theorem finishKeyCommand_resLen (k : Bytes 32) (kv xn : Bool) (s : State) : (finishKeyCommand k kv xn s).resLen = s.resLen := rfl
@[simp] theorem finishKeyCommand_nonce (k : Bytes 32) (kv xn : Bool) (s : State) : (finishKeyCommand k kv xn s).nonce = s.nonce := rfl
@[simp] theorem finishKeyCommand_tag (k : Bytes 32) (kv xn : Bool) (s : State) : (finishKeyCommand k kv xn s).tag = s.tag := rfl
@[simp] theorem finishKeyCommand_status (k : Bytes 32) (kv xn : Bool) (s : State) : (finishKeyCommand k kv xn s).status = ⟨kv, xn, true, false, false⟩ := rfl
@[simp] theorem finishKeyCommand_keyin (k : Bytes 32) (kv xn : Bool) (s : State) : (finishKeyCommand k kv xn s).keyin = Bytes.zero 32 := rfl
@[simp] theorem finishKeyCommand_key (k : Bytes 32) (kv xn : Bool) (s : State) : (finishKeyCommand k kv xn s).key = k := rfl
@[simp] theorem finishKeyCommand_op (k : Bytes 32) (kv xn : Bool) (s : State) : (finishKeyCommand k kv xn s).op = s.op := rfl
@[simp] theorem finishKeyCommand_phase (k : Bytes 32) (kv xn : Bool) (s : State) : (finishKeyCommand k kv xn s).phase = s.phase := rfl
@[simp] theorem finishKeyCommand_cause (k : Bytes 32) (kv xn : Bool) (s : State) : (finishKeyCommand k kv xn s).cause = causeNone := rfl
@[simp] theorem finishKeyCommand_eph (k : Bytes 32) (kv xn : Bool) (s : State) : (finishKeyCommand k kv xn s).eph = s.eph := rfl
@[simp] theorem finishKeyCommand_mem (k : Bytes 32) (kv xn : Bool) (s : State) : (finishKeyCommand k kv xn s).mem = s.mem := rfl
@[simp] theorem finishKeyCommand_memMap (k : Bytes 32) (kv xn : Bool) (s : State) : (finishKeyCommand k kv xn s).memMap = s.memMap := rfl
@[simp] theorem finishKeyCommand_hostQ (k : Bytes 32) (kv xn : Bool) (s : State) : (finishKeyCommand k kv xn s).hostQ = s.hostQ := rfl
@[simp] theorem finishKeyCommand_hostR (k : Bytes 32) (kv xn : Bool) (s : State) : (finishKeyCommand k kv xn s).hostR = s.hostR := rfl
@[simp] theorem finishKeyCommand_resets (k : Bytes 32) (kv xn : Bool) (s : State) : (finishKeyCommand k kv xn s).resets = s.resets := rfl
@[simp] theorem finishKeyCommand_freeCount (k : Bytes 32) (kv xn : Bool) (s : State) : (finishKeyCommand k kv xn s).freeCount = s.freeCount := rfl

/-! `clearOutcome`. -/

@[simp] theorem clearOutcome_bufAddr (s : State) : (clearOutcome s).bufAddr = s.bufAddr := rfl
@[simp] theorem clearOutcome_bufLen (s : State) : (clearOutcome s).bufLen = s.bufLen := rfl
@[simp] theorem clearOutcome_aadAddr (s : State) : (clearOutcome s).aadAddr = s.aadAddr := rfl
@[simp] theorem clearOutcome_aadLen (s : State) : (clearOutcome s).aadLen = s.aadLen := rfl
@[simp] theorem clearOutcome_resLen (s : State) : (clearOutcome s).resLen = s.resLen := rfl
@[simp] theorem clearOutcome_nonce (s : State) : (clearOutcome s).nonce = s.nonce := rfl
@[simp] theorem clearOutcome_tag (s : State) : (clearOutcome s).tag = s.tag := rfl
@[simp] theorem clearOutcome_status (s : State) : (clearOutcome s).status = ⟨s.status.kv, s.status.xn, false, false, s.status.cmderr⟩ := rfl
@[simp] theorem clearOutcome_keyin (s : State) : (clearOutcome s).keyin = s.keyin := rfl
@[simp] theorem clearOutcome_key (s : State) : (clearOutcome s).key = s.key := rfl
@[simp] theorem clearOutcome_op (s : State) : (clearOutcome s).op = s.op := rfl
@[simp] theorem clearOutcome_phase (s : State) : (clearOutcome s).phase = s.phase := rfl
@[simp] theorem clearOutcome_cause (s : State) : (clearOutcome s).cause = causeNone := rfl
@[simp] theorem clearOutcome_eph (s : State) : (clearOutcome s).eph = s.eph := rfl
@[simp] theorem clearOutcome_mem (s : State) : (clearOutcome s).mem = s.mem := rfl
@[simp] theorem clearOutcome_memMap (s : State) : (clearOutcome s).memMap = s.memMap := rfl
@[simp] theorem clearOutcome_hostQ (s : State) : (clearOutcome s).hostQ = s.hostQ := rfl
@[simp] theorem clearOutcome_hostR (s : State) : (clearOutcome s).hostR = s.hostR := rfl
@[simp] theorem clearOutcome_resets (s : State) : (clearOutcome s).resets = s.resets := rfl
@[simp] theorem clearOutcome_freeCount (s : State) : (clearOutcome s).freeCount = s.freeCount := rfl

/-! `resetRegisters`. -/

@[simp] theorem resetRegisters_bufAddr (s : State) : (resetRegisters s).bufAddr = State.reset.bufAddr := rfl
@[simp] theorem resetRegisters_bufLen (s : State) : (resetRegisters s).bufLen = State.reset.bufLen := rfl
@[simp] theorem resetRegisters_aadAddr (s : State) : (resetRegisters s).aadAddr = State.reset.aadAddr := rfl
@[simp] theorem resetRegisters_aadLen (s : State) : (resetRegisters s).aadLen = State.reset.aadLen := rfl
@[simp] theorem resetRegisters_resLen (s : State) : (resetRegisters s).resLen = State.reset.resLen := rfl
@[simp] theorem resetRegisters_nonce (s : State) : (resetRegisters s).nonce = State.reset.nonce := rfl
@[simp] theorem resetRegisters_tag (s : State) : (resetRegisters s).tag = State.reset.tag := rfl
@[simp] theorem resetRegisters_status (s : State) : (resetRegisters s).status = State.reset.status := rfl
@[simp] theorem resetRegisters_keyin (s : State) : (resetRegisters s).keyin = State.reset.keyin := rfl
@[simp] theorem resetRegisters_key (s : State) : (resetRegisters s).key = State.reset.key := rfl
@[simp] theorem resetRegisters_op (s : State) : (resetRegisters s).op = State.reset.op := rfl
@[simp] theorem resetRegisters_phase (s : State) : (resetRegisters s).phase = State.reset.phase := rfl
@[simp] theorem resetRegisters_cause (s : State) : (resetRegisters s).cause = State.reset.cause := rfl
@[simp] theorem resetRegisters_eph (s : State) : (resetRegisters s).eph = State.reset.eph := rfl
@[simp] theorem resetRegisters_mem (s : State) : (resetRegisters s).mem = s.mem := rfl
@[simp] theorem resetRegisters_memMap (s : State) : (resetRegisters s).memMap = s.memMap := rfl
@[simp] theorem resetRegisters_hostQ (s : State) : (resetRegisters s).hostQ = s.hostQ := rfl
@[simp] theorem resetRegisters_hostR (s : State) : (resetRegisters s).hostR = s.hostR := rfl
@[simp] theorem resetRegisters_resets (s : State) : (resetRegisters s).resets = s.resets := rfl
@[simp] theorem resetRegisters_freeCount (s : State) : (resetRegisters s).freeCount = s.freeCount := rfl

end Sys2Proof.Machine
end

