-- ==== Sys2Proof/Laws/Meanings.lean ====
section
/-!
SUPPORT. One spec lemma per meaning that is more than a record update: what it answers, with the port open, in terms of the
keystream, the bytes at an address and the comparator's result; and the inversion of acceptance.
-/

namespace Sys2Proof.Machine

/-! Acceptance (rule R145). -/

/-- Everything acceptance can do when it answers a next state. -/
theorem acceptAead_next {op : BitVec 2} {s t : State} (h : acceptAead op s = .next t) :
    (s.status.kv = false ∧ t = reject s) ∨
    (s.status.kv = true ∧ RegionDuties op s ∧
      t = { s with op := op, status := { s.status with cmderr := false }, phase := uStart }) := by
  unfold acceptAead at h
  split at h
  · rename_i hk; injection h with h; exact .inl ⟨by simpa using hk, h.symm⟩
  · rename_i hk
    split at h
    · cases h
    · rename_i hd
      injection h with h
      exact .inr ⟨by simpa using hk, (dutyBreach_none_iff op s).mp hd, h.symm⟩

theorem acceptAead_ok {op : BitVec 2} {s : State} (hk : s.status.kv = true) (hd : RegionDuties op s) :
    acceptAead op s = .next { s with op := op, status := { s.status with cmderr := false }, phase := uStart } := by
  simp [acceptAead, hk, (dutyBreach_none_iff op s).mpr hd]

theorem acceptAead_breach {op : BitVec 2} {s : State} (hk : s.status.kv = true) (hd : ¬ RegionDuties op s) :
    ∃ r, acceptAead op s = .refused r := by
  cases hb : dutyBreach op s with
  | none => exact absurd ((dutyBreach_none_iff op s).mp hb) hd
  | some r => exact ⟨r, by simp [acceptAead, hk, hb]⟩

/-! The MAC processor. -/

theorem absorbPadded_bytesAt (m : List Host.Cell) (a n : Nat) (e : Eph) :
    absorbPadded (Mem.readRange m a n) e = { e with macmsg := e.macmsg ++ (bytesAt m a n ++ zeros (pad16 n)) } := by
  simp [absorbPadded, absorb, readRange_eq]

/-- Padding keeps the MAC message a multiple of 16 long (rule R40). -/
theorem absorbPadded_aligned (l : List Byte) (e : Eph) (h : e.macmsg.length % 16 = 0) :
    (absorbPadded l e).macmsg.length % 16 = 0 := by
  have := pad16_aligns l.length
  simp only [absorbPadded, absorb, List.length_append, zeros_length]; omega

/-! The engine construction. -/

/-- `MACKEY` from any position (rule R101). -/
theorem mackeyOn_eq (P : Prims) (s : State) :
    mackeyOn P s = .next { s with
      eph := { setPosition s.eph (position s.eph + 32) with
        mackey := Bytes.ofList 32 ((List.range 32).map fun i => ksStream P s.eph.seedKey s.eph.seedNonce (position s.eph + i))
        scratch := Bytes.zero 32, macmsg := [] }
      phase := uSkip } := by
  have hp : ∀ e : Eph, position { e with scratch := Bytes.zero 32 } = position e := fun _ => rfl
  simp only [mackeyOn, ksbytes_eq, hp, setPosition, Bytes.data_zero]
  rw [xorList_zeros 32 _ (by simp)]

/-- From block 0, byte 0 the MAC key is the first half of block 0. -/
theorem mackey_eq_macKeyOf (P : Prims) (k : Bytes 32) (n : Bytes 12) :
    Bytes.ofList 32 ((List.range 32).map fun i => ksStream P k n (0 + i)) = macKeyOf P k n := by
  apply Bytes.ext_get
  intro i hi
  rw [Bytes.get_ofList (by simp), macKeyOf, Bytes.get_slice _ 0 32 i (by omega) hi]
  simp only [List.getD, List.getElem?_map, List.getElem?_range hi, Option.map_some, Option.getD_some, Nat.zero_add, ksStream]
  rw [show i / 64 = 0 by omega, show i % 64 = i by omega]
  rfl

/-! The comparator (rule R136). -/

theorem foldl_or_getLsbD (l : List (BitVec 8)) (d : BitVec 8) (b : Nat) :
    (l.foldl (· ||| ·) d).getLsbD b = (d.getLsbD b || l.any (·.getLsbD b)) := by
  induction l generalizing d with
  | nil => simp
  | cons x rest ih => simp [ih, Bool.or_assoc]

/-- Bit `b` of the accumulator: some byte pair differs there. -/
theorem foldDiff_getLsbD {n : Nat} (x y : Bytes n) (b : Nat) :
    (foldDiff x.data y.data).getLsbD b = true ↔ ∃ i, i < n ∧ (x.get i).getLsbD b ≠ (y.get i).getLsbD b := by
  simp only [foldDiff, foldl_or_getLsbD, BitVec.getLsbD_zero, Bool.false_or, List.any_eq_true, xorList]
  constructor
  · rintro ⟨v, hv, hb⟩
    obtain ⟨i, hi, rfl⟩ := List.mem_iff_getElem.mp hv
    have hx : i < x.data.length := by simp at hi; rw [x.len]; omega
    have hy : i < y.data.length := by simp at hi; rw [y.len]; omega
    refine ⟨i, by simpa using hx, ?_⟩
    rw [Bytes.get_data x i hx, Bytes.get_data y i hy]
    rw [List.getElem_zipWith, BitVec.getLsbD_xor] at hb
    simpa using hb
  · rintro ⟨i, hi, hb⟩
    have hx : i < x.data.length := by rw [x.len]; exact hi
    have hy : i < y.data.length := by rw [y.len]; exact hi
    refine ⟨(List.zipWith (· ^^^ ·) x.data y.data)[i]'(by simp; exact hi), List.getElem_mem _, ?_⟩
    rw [Bytes.get_data x i hx, Bytes.get_data y i hy] at hb
    rw [List.getElem_zipWith, BitVec.getLsbD_xor]
    simpa using hb

/-- The fold is 0 exactly when the strings are equal. -/
theorem foldDiff_eq_zero {n : Nat} (x y : Bytes n) : foldDiff x.data y.data = 0 ↔ x = y := by
  constructor
  · intro h
    apply Bytes.ext_get
    intro i hi
    apply BitVec.eq_of_getLsbD_eq
    intro b hb
    by_contra hne
    have := (foldDiff_getLsbD x y b).mpr ⟨i, hi, hne⟩
    rw [h] at this; simp at this
  · rintro rfl
    apply BitVec.eq_of_getLsbD_eq
    intro b hb
    by_contra hne
    have : (foldDiff x.data x.data).getLsbD b = true := by simpa using hne
    obtain ⟨i, _, hi⟩ := (foldDiff_getLsbD x x b).mp this
    exact hi rfl

theorem execCmp_equal {s : State} (h : s.eph.etag = s.eph.ctag) :
    execCmp s = .next { s with eph := { s.eph with diff := 0, eq := 1 }, phase := uXor } := by
  have hd := (foldDiff_eq_zero s.eph.etag s.eph.ctag).mpr h
  simp [execCmp, hd]

theorem execCmp_differ {s : State} (h : s.eph.etag ≠ s.eph.ctag) :
    execCmp s = .next { s with
      eph := { s.eph with diff := foldDiff s.eph.etag.data s.eph.ctag.data, eq := 0 }
      cause := causeAuthfail, phase := uRetfail } := by
  have hd : foldDiff s.eph.etag.data s.eph.ctag.data ≠ 0 := fun hz => h ((foldDiff_eq_zero _ _).mp hz)
  simp only [execCmp, if_neg hd]; rfl

/-! The size check (rule R111). -/

theorem execSizechk_pass {s : State} (h : nblk s.eph.mlen.toNat < 2 ^ 32) :
    execSizechk s = .next { s with phase := uAbsaad } := by
  simp only [execSizechk, Config.maxBlocks, if_neg (Nat.not_le.mpr h)]

theorem execSizechk_fail {s : State} (h : 2 ^ 32 ≤ nblk s.eph.mlen.toNat) :
    execSizechk s = .next { s with cause := causeOversize, phase := uRetfail } := by
  simp only [execSizechk, Config.maxBlocks, if_pos h]; rfl

/-! `START` (rule R148). -/

theorem execStart_undersize {s : State} (h : s.op = opDecc) (hl : s.bufLen.toNat < 16) :
    execStart s = .next { s with
      status := { s.status with done := false, fail := false }, cause := causeUndersize, phase := uRetfail } := by
  simp only [execStart, clearOutcome, h, if_true, Config.tagBytes, if_pos hl]; rfl

theorem toNat_sub_16 {v : BitVec 64} (h : 16 ≤ v.toNat) : (v - 16).toNat = v.toNat - 16 := by
  have h16 : (16 : BitVec 64).toNat = 16 := rfl
  rw [BitVec.toNat_sub, h16]; have := v.isLt; omega

theorem execStart_decc {s : State} (h : s.op = opDecc) (hl : 16 ≤ s.bufLen.toNat) :
    execStart s = withPort s (s.bufAddr.toNat + (s.bufLen.toNat - 16)) 16 (.next { s with
      status := { s.status with done := false, fail := false }, cause := causeNone
      eph := { s.eph with
        mlen := s.bufLen - 16, ctag := Bytes.ofList 16 (bytesAt s.mem (s.bufAddr.toNat + (s.bufLen.toNat - 16)) 16) }
      phase := seedPhase s }) := by
  have hn : ¬ s.bufLen.toNat < 16 := by omega
  simp only [execStart, clearOutcome_op, clearOutcome_bufLen, clearOutcome_bufAddr, h, if_true, Config.tagBytes, if_neg hn,
    toNat_sub_16 hl, readRange_eq, clearOutcome_mem]
  rw [withPort_congr (clearOutcome_memMap s)]
  rfl

theorem execStart_other {s : State} (h : s.op ≠ opDecc) :
    execStart s = .next { s with
      status := { s.status with done := false, fail := false }, cause := causeNone
      eph := { s.eph with mlen := s.bufLen, ctag := if s.op = opDec then s.tag else s.eph.ctag }
      phase := seedPhase s } := by
  have h' : (clearOutcome s).op ≠ opDecc := h
  simp only [execStart, if_neg h']; rfl

/-! `TAGOUT` (rule R138). -/

theorem execTagout_enc {s : State} (h : s.op = opEnc) :
    execTagout s = .next { s with tag := s.eph.etag, phase := uRetok } := by
  unfold execTagout; rw [if_pos h]

theorem execTagout_combined {s : State} (h : s.op ≠ opEnc) :
    execTagout s = withPort s (s.bufAddr.toNat + s.eph.mlen.toNat) 16 (.next { s with
      mem := Mem.writeRange s.mem (s.bufAddr.toNat + s.eph.mlen.toNat) s.eph.etag.data, phase := uRetok }) := by
  unfold execTagout; rw [if_neg h]

/-! The accesses of a micro-operation (rule R68) decide whether it completes. -/

/-- A micro-operation is its accesses and then a next state. -/
theorem exec_uop_eq_withPort {i : Instr} (hi : i.format = .uop) (s : State) :
    ∃ t, exec i s = withPort s (accesses i s).1 (accesses i s).2 (.next t) := by
  cases i with
  | nop => cases hi
  | keyloadS => cases hi
  | keyloadX => cases hi
  | zeroize => cases hi
  | enc => cases hi
  | dec => cases hi
  | encc => cases hi
  | decc => cases hi
  | start =>
    by_cases ho : s.op = opDecc
    · by_cases hl : 16 ≤ s.bufLen.toNat
      · have ha : accesses .start s = (s.bufAddr.toNat + (s.bufLen.toNat - 16), 16) := by
          simp only [accesses]; rw [if_pos ⟨ho, hl⟩]
        rw [ha]; exact ⟨_, execStart_decc ho hl⟩
      · have ha : accesses .start s = (0, 0) := by simp only [accesses]; rw [if_neg (fun h => hl h.2)]
        rw [ha]; exact ⟨_, execStart_undersize ho (by omega)⟩
    · have ha : accesses .start s = (0, 0) := by simp only [accesses]; rw [if_neg (fun h => ho h.1)]
      rw [ha]; exact ⟨_, execStart_other ho⟩
  | absaad => exact ⟨_, rfl⟩
  | xor => exact ⟨_, rfl⟩
  | absbuf => exact ⟨_, rfl⟩
  | sizechk =>
    by_cases h : nblk s.eph.mlen.toNat < 2 ^ 32
    · exact ⟨_, execSizechk_pass h⟩
    · exact ⟨_, execSizechk_fail (by omega)⟩
  | cmp =>
    by_cases h : s.eph.etag = s.eph.ctag
    · exact ⟨_, execCmp_equal h⟩
    · exact ⟨_, execCmp_differ h⟩
  | tagout =>
    by_cases ho : s.op = opEnc
    · have ha : accesses .tagout s = (0, 0) := by simp only [accesses]; rw [if_pos ho]
      rw [ha]; exact ⟨_, execTagout_enc ho⟩
    · have ha : accesses .tagout s = (s.bufAddr.toNat + s.eph.mlen.toNat, 16) := by simp only [accesses]; rw [if_neg ho]
      rw [ha]; exact ⟨_, execTagout_combined ho⟩
  | mackey => exact ⟨_, mackeyOn_eq openPrims s⟩
  | uIdle => exact ⟨_, rfl⟩
  | seeds => exact ⟨_, rfl⟩
  | split => exact ⟨_, rfl⟩
  | derive => exact ⟨_, rfl⟩
  | seedx => exact ⟨_, rfl⟩
  | skip => exact ⟨_, rfl⟩
  | abslen => exact ⟨_, rfl⟩
  | final => exact ⟨_, rfl⟩
  | retok => exact ⟨_, rfl⟩
  | retfail => exact ⟨_, rfl⟩

end Sys2Proof.Machine
end

