-- ==== Sys2Proof/Laws/Step.lean ====
section
/-!
SUPPORT. What one step can do, said once (00_scope.md rule R14): a reset that is due, a micro-operation, or a host action; and the
steps of a running command as a chain of meanings.
-/

namespace Sys2Proof.Machine

/-- The next reset counted down by one step; with none to come, or one due, the list is as it was. -/
def resetTick (s : State) : State :=
  match s.resets with
  | (n + 1) :: rest => { s with resets := n :: rest }
  | 0 :: _ => s
  | [] => s

/-- Everything a step can do when it answers a next state. -/
theorem step_cases {s t : State} (h : step s = .next t) :
    (s.resets.head? = some 0 ∧ t = platformReset s) ∨
    (s.resets.head? ≠ some 0 ∧ (s.phase ≠ uIdle ∨ s.hostQ = []) ∧
      ∃ i, decodeUop s.phase = .ok i ∧ exec i (resetTick s) = .next t) ∨
    (s.resets.head? ≠ some 0 ∧ s.phase = uIdle ∧ ∃ a rest, s.hostQ = a :: rest ∧
      hostAct exec a { resetTick s with hostQ := rest } = .next t) := by
  have agent : ∀ r : State, r.phase = s.phase → r.hostQ = s.hostQ → agentStep exec r = .next t →
      ((s.phase ≠ uIdle ∨ s.hostQ = []) ∧ ∃ i, decodeUop s.phase = .ok i ∧ exec i r = .next t) ∨
      (s.phase = uIdle ∧ ∃ a rest, s.hostQ = a :: rest ∧ hostAct exec a { r with hostQ := rest } = .next t) := by
    intro r hp hq hr
    have micro : microStep exec r = .next t → ∃ i, decodeUop s.phase = .ok i ∧ exec i r = .next t := fun hm => by
      unfold microStep at hm
      rw [hp] at hm
      split at hm
      · rename_i i hi; exact ⟨i, hi, hm⟩
      · cases hm
    unfold agentStep at hr
    split at hr
    · rename_i hi
      split at hr
      · rename_i h0; exact .inl ⟨.inr (by rw [← hq, h0]), micro hr⟩
      · rename_i a rest h0; exact .inr ⟨by rw [← hp, hi], a, rest, by rw [← hq, h0], hr⟩
    · rename_i hi; exact .inl ⟨.inl (by rw [← hp]; exact hi), micro hr⟩
  unfold step stepWith at h
  split at h
  · rename_i h0; injection h with h; exact .inl ⟨by rw [h0]; rfl, h.symm⟩
  · rename_i n later h0
    have ht : resetTick s = { s with resets := n :: later } := by simp [resetTick, h0]
    rw [ht, h0]
    rcases agent { s with resets := n :: later } rfl rfl h with h | h
    · exact .inr (.inl ⟨by simp, h⟩)
    · exact .inr (.inr ⟨by simp, h⟩)
  · rename_i h0
    have ht : resetTick s = s := by simp [resetTick, h0]
    rw [ht, h0]
    rcases agent s rfl rfl h with h | h
    · exact .inr (.inl ⟨by simp, h⟩)
    · exact .inr (.inr ⟨by simp, h⟩)

/-- A running sequencer runs the micro-operation of `PHASE`. -/
theorem step_running {s : State} {i : Instr} (hr : s.resets = []) (hp : s.phase ≠ uIdle)
    (hi : decodeUop s.phase = .ok i) : step s = exec i s := by
  simp only [step, stepWith, hr, agentStep, if_neg hp, microStep, hi]

/-- An idle sequencer runs the host's next action. -/
theorem step_host {s : State} {a : HostAct} {rest : List HostAct} (hr : s.resets = []) (hp : s.phase = uIdle)
    (hq : s.hostQ = a :: rest) : step s = hostAct exec a { s with hostQ := rest } := by
  simp only [step, stepWith, hr, agentStep, if_pos hp, hq]

/-- One register write of the host. -/
theorem step_write {s : State} {o : Nat} {w : BitVec 32} {rest : List HostAct} (hr : s.resets = []) (hp : s.phase = uIdle)
    (hq : s.hostQ = .write .word o w :: rest) (ho : regAccessOk .word o = true) (h0 : o ≠ 0x00) :
    step s = .next (writeReg { s with hostQ := rest } o w) := by
  rw [step_host hr hp hq]; simp only [hostAct, ho, Bool.not_true, Bool.false_eq_true, if_false, if_neg h0]

/-! A command as a chain of micro-operations. -/

theorem untilIdle_idle {one : State → Result} {n : Nat} {s : State} (h : s.phase = uIdle) : untilIdle one n s = .next s := by
  cases n with
  | zero => rfl
  | succ n => simp only [untilIdle, if_pos h]

/-- One link of the chain. -/
theorem untilIdle_next {n : Nat} {s t : State} {i : Instr} (hr : s.resets = []) (hp : s.phase ≠ uIdle)
    (hi : decodeUop s.phase = .ok i) (ht : exec i s = .next t) : untilIdle step (n + 1) s = untilIdle step n t := by
  simp only [untilIdle, if_neg hp, step_running hr hp hi, ht]

/-- The same, the code of `PHASE` given. -/
theorem untilIdle_at {n : Nat} {s t : State} {i : Instr} (c : BitVec 5) (hp : s.phase = c) (hr : s.resets = [])
    (hc : c ≠ uIdle) (hi : decodeUop c = .ok i) (ht : exec i s = .next t) :
    untilIdle step (n + 1) s = untilIdle step n t :=
  untilIdle_next hr (by rw [hp]; exact hc) (by rw [hp]; exact hi) ht

/-- A step of a state that a run to idle leaves was a next state. -/
theorem untilIdle_step {one : State → Result} {n : Nat} {s t : State} (hp : s.phase ≠ uIdle)
    (h : untilIdle one (n + 1) s = .next t) : ∃ u, one s = .next u ∧ untilIdle one n u = .next t := by
  simp only [untilIdle, if_neg hp] at h
  cases hs : one s with
  | next u => rw [hs] at h; exact ⟨u, rfl, h⟩
  | fault f => rw [hs] at h; cases h
  | refused r => rw [hs] at h; cases h

end Sys2Proof.Machine
end

