-- ==== Sys2Proof/Laws/Commands.lean ====
section
/-!
SUPPORT. An AEAD command as one chain of micro-operations (44_aead_commands.md rules R146 to R156): from acceptance to the size check
in one lemma, then what each of the ways on leaves.
-/

namespace Sys2Proof.Machine

/-- The message length `START` computes (rule R148). -/
def startLen (s : State) : BitVec 64 := if s.op = opDecc then s.bufLen - 16 else s.bufLen

/-- The tag `START` latches (rule R148). -/
def startTag (s : State) : Bytes 16 :=
  if s.op = opDecc then Bytes.ofList 16 (bytesAt s.mem (s.bufAddr.toNat + (s.bufLen.toNat - 16)) 16)
  else if s.op = opDec then s.tag else s.eph.ctag

/-- What a command needs of its operands to reach the size check: for `DECC`, a whole tag that the port may read. -/
def StartOk (s : State) : Prop :=
  s.op = opDecc → 16 ≤ s.bufLen.toNat ∧ PortOpen s (s.bufAddr.toNat + (s.bufLen.toNat - 16)) 16

/-- A command just accepted, at the size check. -/
def atSizechk (s : State) : State :=
  { s with
    status := { s.status with done := false, fail := false }
    cause := causeNone
    eph :=
      { s.eph with
        seedKey := (seedOf s).1, seedNonce := (seedOf s).2, ctr := 1, off := 0
        salt := if s.status.xn then Bytes.zero 16 else s.eph.salt
        inner := if s.status.xn then Bytes.zero 8 else s.eph.inner
        subkey := if s.status.xn then Bytes.zero 32 else s.eph.subkey
        scratch := Bytes.zero 32, mackey := macKeyOf openPrims (seedOf s).1 (seedOf s).2, macmsg := []
        mlen := startLen s, ctag := startTag s }
    phase := uSizechk }

/-- `START` in one form for all four commands. -/
theorem execStart_ok {s : State} (h : StartOk s) :
    execStart s = .next { s with
      status := { s.status with done := false, fail := false }, cause := causeNone
      eph := { s.eph with mlen := startLen s, ctag := startTag s }
      phase := seedPhase s } := by
  by_cases ho : s.op = opDecc
  · have hl := (h ho).1
    simp only [startLen, startTag, if_pos ho]
    exact (execStart_decc ho hl).trans (withPort_open (h ho).2)
  · simp only [startLen, startTag, if_neg ho]
    exact execStart_other ho

/-- `MACKEY` from block 0, byte 0. -/
theorem execMackey_start {s : State} (h : position s.eph = 0) :
    execMackey s = .next { s with
      eph := { setPosition s.eph 32 with
        mackey := macKeyOf openPrims s.eph.seedKey s.eph.seedNonce, scratch := Bytes.zero 32, macmsg := [] }
      phase := uSkip } := by
  rw [execMackey, mackeyOn_eq, h, mackey_eq_macKeyOf]

/-- The two micro-operations after the seed mapper. -/
theorem untilIdle_mackey_skip {s : State} {n : Nat} (hr : s.resets = []) (hp : s.phase = uMackey) (h0 : position s.eph = 0) :
    untilIdle step (n + 2) s = untilIdle step n { s with
      eph := { s.eph with
        ctr := 1, off := 0, mackey := macKeyOf openPrims s.eph.seedKey s.eph.seedNonce, scratch := Bytes.zero 32
        macmsg := [] }
      phase := uSizechk } := by
  refine (untilIdle_at uMackey hp hr (by decide) rfl (execMackey_start h0)).trans ?_
  exact untilIdle_at uSkip rfl hr (by decide) rfl rfl

/-- From acceptance to the size check (rules R146, R148, R169, R101 and R102), whichever form the seed mapper runs in. -/
theorem untilIdle_to_sizechk {s : State} {n : Nat} (hr : s.resets = []) (hp : s.phase = uStart) (h : StartOk s) :
    ∃ m, n ≤ m ∧ untilIdle step (n + 6) s = untilIdle step m (atSizechk s) := by
  have h1 := untilIdle_at (n := n + 5) uStart hp hr (by decide) rfl (execStart_ok h)
  cases hx : s.status.xn with
  | false =>
    refine ⟨n + 2, by omega, h1.trans ?_⟩
    have hs : seedPhase s = uSeeds := by simp [seedPhase, hx]
    rw [hs]
    refine Eq.trans (untilIdle_at (n := n + 4) uSeeds ?_ ?_ (by decide) rfl rfl) ?_ <;> [rfl; exact hr; skip]
    refine Eq.trans (untilIdle_mackey_skip (n := n + 2) ?_ ?_ ?_) ?_ <;> [exact hr; rfl; rfl; skip]
    simp [atSizechk, seedOf, seedKeyOf, seedNonceOf, hx]
  | true =>
    refine ⟨n, le_refl n, h1.trans ?_⟩
    have hs : seedPhase s = uSplit := by simp [seedPhase, hx]
    rw [hs]
    refine Eq.trans (untilIdle_at (n := n + 4) uSplit ?_ ?_ (by decide) rfl rfl) ?_ <;> [rfl; exact hr; skip]
    refine Eq.trans (untilIdle_at (n := n + 3) uDerive ?_ ?_ (by decide) rfl rfl) ?_ <;> [rfl; exact hr; skip]
    refine Eq.trans (untilIdle_at (n := n + 2) uSeedx ?_ ?_ (by decide) rfl rfl) ?_ <;> [rfl; exact hr; skip]
    refine Eq.trans (untilIdle_mackey_skip (n := n) ?_ ?_ ?_) ?_ <;> [exact hr; rfl; rfl; skip]
    simp [atSizechk, seedOf, seedKeyOf, seedNonceOf, hx]

/-! From the size check on. -/

/-- The MAC message of a state's associated data, buffer and lengths, as `ABSAAD`, `ABSBUF` and `ABSLEN` build it. -/
theorem macInput_bytesAt (m m' : List Host.Cell) (a n b k : Nat) (la lm : BitVec 64) :
    macInput (bytesAt m a n) (bytesAt m' b k) la lm =
      bytesAt m a n ++ zeros (pad16 n) ++ (bytesAt m' b k ++ zeros (pad16 k)) ++ le64 la ++ le64 lm := by
  simp [macInput]

/-- A failed command returns (rule R156). -/
theorem untilIdle_retfail {s : State} {n : Nat} (hr : s.resets = []) (hp : s.phase = uRetfail) :
    untilIdle step (n + 1) s = .next (returnWith 0 false s) :=
  (untilIdle_at uRetfail hp hr (by decide) rfl rfl).trans (untilIdle_idle rfl)

/-- A command that succeeded returns (rule R154). -/
theorem untilIdle_retok {s : State} {n : Nat} (hr : s.resets = []) (hp : s.phase = uRetok) :
    untilIdle step (n + 1) s = .next (returnWith (resultLength s) true s) :=
  (untilIdle_at uRetok hp hr (by decide) rfl rfl).trans (untilIdle_idle rfl)

/-- An oversize message fails at the size check (rule R111). -/
theorem untilIdle_oversize {s : State} {n : Nat} (hr : s.resets = []) (hp : s.phase = uSizechk)
    (hn : 2 ^ 32 ≤ nblk s.eph.mlen.toNat) :
    untilIdle step (n + 2) s = .next (returnWith 0 false { s with cause := causeOversize, phase := uRetfail }) :=
  (untilIdle_at uSizechk hp hr (by decide) rfl (execSizechk_fail hn)).trans (untilIdle_retfail hr rfl)

/-- The MAC over the buffer as it stands: `ABSBUF`, `ABSLEN` and `FINAL` (rules R114 to R116). -/
theorem untilIdle_mac {s : State} {n : Nat} (hr : s.resets = []) (hp : s.phase = uAbsbuf)
    (hb : PortOpen s s.bufAddr.toNat s.eph.mlen.toNat) (a : List Byte)
    (hm : s.eph.macmsg = a ++ zeros (pad16 a.length)) :
    untilIdle step (n + 3) s = untilIdle step n { s with
      eph := { s.eph with
        macmsg := macInput a (bytesAt s.mem s.bufAddr.toNat s.eph.mlen.toNat) s.aadLen s.eph.mlen
        etag := openPrims.macfn s.eph.mackey
          (macInput a (bytesAt s.mem s.bufAddr.toNat s.eph.mlen.toNat) s.aadLen s.eph.mlen) }
      phase := if isEnc s.op then uTagout else uCmp } := by
  have h1 : execAbsbuf s = .next { s with
      eph := { s.eph with macmsg := s.eph.macmsg ++
        (bytesAt s.mem s.bufAddr.toNat s.eph.mlen.toNat ++ zeros (pad16 s.eph.mlen.toNat)) }
      phase := uAbslen } := by
    unfold execAbsbuf; rw [withPort_open hb, absorbPadded_bytesAt]
  refine (untilIdle_at (n := n + 2) uAbsbuf hp hr (by decide) rfl h1).trans ?_
  refine Eq.trans (untilIdle_at (n := n + 1) uAbslen ?_ ?_ (by decide) rfl rfl) ?_ <;> [rfl; exact hr; skip]
  refine Eq.trans (untilIdle_at (n := n) uFinal ?_ ?_ (by decide) rfl rfl) ?_ <;> [rfl; exact hr; skip]
  simp only [absorb, hm, macInput, bytesAt_length, List.append_assoc]

/-- The size check passed and the associated data absorbed (rules R111 and R113). -/
theorem untilIdle_absaad {s : State} {n : Nat} (hr : s.resets = []) (hp : s.phase = uSizechk)
    (hn : nblk s.eph.mlen.toNat < 2 ^ 32) (ha : PortOpen s s.aadAddr.toNat s.aadLen.toNat) (hm : s.eph.macmsg = []) :
    untilIdle step (n + 2) s = untilIdle step n { s with
      eph := { s.eph with macmsg := aadBytes s ++ zeros (pad16 (aadBytes s).length) }
      phase := if isEnc s.op then uXor else uAbsbuf } := by
  refine (untilIdle_at (n := n + 1) uSizechk hp hr (by decide) rfl (execSizechk_pass hn)).trans ?_
  refine untilIdle_at (n := n) uAbsaad rfl hr (by decide) rfl ?_
  show withPort _ _ _ _ = _
  rw [withPort_open (s := { s with phase := uAbsaad }) ha, absorbPadded_bytesAt]
  simp only [hm, aadBytes, bytesAt_length, List.nil_append]

/-- What `XOR` does to the message from block 1, byte 0 on (rules R128 and R149). -/
theorem xorBytes_crypt {s : State} (hw : Memory.wf s.mem = true) (hb : PortOpen s s.bufAddr.toNat s.eph.mlen.toNat)
    (h0 : position s.eph = 64) :
    bytesAt (xorBytes openPrims s.eph.mlen.toNat s.bufAddr.toNat s).mem s.bufAddr.toNat s.eph.mlen.toNat =
      crypt openPrims s.eph.seedKey s.eph.seedNonce (bytesAt s.mem s.bufAddr.toNat s.eph.mlen.toNat) := by
  unfold crypt
  rw [bytesAt_length]
  conv => lhs; unfold bytesAt
  refine List.map_congr_left fun i hi => ?_
  have hi' := List.mem_range.mp hi
  rw [xorBytes_read openPrims _ _ i s hw (portOpen_fits hb (by omega)) hi', bytesAt_getD _ _ _ _ hi', h0]

@[simp] theorem crypt_length (P : Prims) (k : Bytes 32) (n : Bytes 12) (m : List Byte) : (crypt P k n m).length = m.length := by
  simp [crypt]

/-- The keystream applied twice restores the message (rule R130). -/
theorem crypt_crypt (P : Prims) (k : Bytes 32) (n : Bytes 12) (m : List Byte) : crypt P k n (crypt P k n m) = m := by
  apply List.ext_getElem (by simp)
  intro i h1 h2
  simp only [crypt, List.getElem_map, List.getElem_range, List.getD, List.getElem?_map, List.getElem?_range h2,
    Option.map_some, Option.getD_some, List.getElem?_eq_getElem h2]
  rw [BitVec.xor_assoc, BitVec.xor_self, BitVec.xor_zero]

/-- An encryption from the size check to the tag output (rules R149 and R152). -/
theorem untilIdle_encrypt {s : State} {n : Nat} (hr : s.resets = []) (hp : s.phase = uSizechk) (ho : isEnc s.op = true)
    (hn : nblk s.eph.mlen.toNat < 2 ^ 32) (ha : PortOpen s s.aadAddr.toNat s.aadLen.toNat)
    (hb : PortOpen s s.bufAddr.toNat s.eph.mlen.toNat) (hm : s.eph.macmsg = []) :
    ∃ e : Eph, e.mlen = s.eph.mlen ∧
      e.etag = openPrims.macfn s.eph.mackey (macInput (aadBytes s)
        (bytesAt (xorBytes openPrims s.eph.mlen.toNat s.bufAddr.toNat s).mem s.bufAddr.toNat s.eph.mlen.toNat)
        s.aadLen s.eph.mlen) ∧
      untilIdle step (n + 6) s = untilIdle step n { s with
        mem := (xorBytes openPrims s.eph.mlen.toNat s.bufAddr.toNat s).mem, eph := e, phase := uTagout } := by
  let t : State := { s with
    eph := { s.eph with macmsg := aadBytes s ++ zeros (pad16 (aadBytes s).length) }
    phase := uXor }
  have hx : (xorBytes openPrims s.eph.mlen.toNat s.bufAddr.toNat t).mem =
      (xorBytes openPrims s.eph.mlen.toNat s.bufAddr.toNat s).mem := xorBytes_mem_congr _ _ _ rfl rfl rfl rfl
  have h2 : exec .xor t = .next { t with
      mem := (xorBytes openPrims s.eph.mlen.toNat s.bufAddr.toNat s).mem
      eph := setPosition t.eph (position t.eph + s.eph.mlen.toNat), phase := uAbsbuf } := by
    show withPort _ _ _ _ = _
    rw [withPort_open (s := t) hb, ← hx, xorBytes_frame, if_pos (show isEnc t.op = true from ho)]
  have h1 := untilIdle_absaad (n := n + 4) hr hp hn ha hm
  rw [if_pos ho] at h1
  have h3 := untilIdle_mac (n := n)
    (s := { t with
      mem := (xorBytes openPrims s.eph.mlen.toNat s.bufAddr.toNat s).mem
      eph := setPosition t.eph (position t.eph + s.eph.mlen.toNat), phase := uAbsbuf })
    hr rfl hb (aadBytes s) rfl
  rw [if_pos (show isEnc t.op = true from ho)] at h3
  have h4 := h1.trans ((untilIdle_at (s := t) (n := n + 3) uXor rfl hr (by decide) rfl h2).trans h3)
  refine ⟨_, ?_, ?_, h4⟩ <;> rfl

/-- A decryption from the size check to the comparator (rules R150 and R153). -/
theorem untilIdle_verify {s : State} {n : Nat} (hr : s.resets = []) (hp : s.phase = uSizechk) (ho : isEnc s.op = false)
    (hn : nblk s.eph.mlen.toNat < 2 ^ 32) (ha : PortOpen s s.aadAddr.toNat s.aadLen.toNat)
    (hb : PortOpen s s.bufAddr.toNat s.eph.mlen.toNat) (hm : s.eph.macmsg = []) :
    ∃ msg, untilIdle step (n + 5) s = untilIdle step n { s with
      eph := { s.eph with
        macmsg := msg
        etag := openPrims.macfn s.eph.mackey (macInput (aadBytes s)
          (bytesAt s.mem s.bufAddr.toNat s.eph.mlen.toNat) s.aadLen s.eph.mlen) }
      phase := uCmp } := by
  have h1 := untilIdle_absaad (n := n + 3) hr hp hn ha hm
  simp only [ho, Bool.false_eq_true, if_false] at h1
  refine ⟨macInput (aadBytes s) (bytesAt s.mem s.bufAddr.toNat s.eph.mlen.toNat) s.aadLen s.eph.mlen,
    h1.trans (Eq.trans (untilIdle_mac (n := n) ?_ ?_ ?_ (aadBytes s) ?_) ?_)⟩
  · exact hr
  · rfl
  · exact hb
  · rfl
  · simp only [ho, Bool.false_eq_true, if_false]

end Sys2Proof.Machine
end

