-- ==== Sys2Proof/Laws/Operands.lean ====
section
/-!
SUPPORT. The register map (10_state.md rule R30): words and the bytes and registers they pack, and a write to one word of a register
read back there and nowhere else.
-/

namespace Sys2Proof

theorem wordOfBytes_wordByte (w : BitVec 32) :
    wordOfBytes (wordByte w 0) (wordByte w 1) (wordByte w 2) (wordByte w 3) = w := by
  have := w.isLt
  apply BitVec.eq_of_toNat_eq
  simp only [wordOfBytes, wordByte, BitVec.toNat_append, BitVec.extractLsb'_toNat, Nat.shiftRight_eq_div_pow]
  rw [← Nat.shiftLeft_add_eq_or_of_lt (by omega), ← Nat.shiftLeft_add_eq_or_of_lt (by omega),
    ← Nat.shiftLeft_add_eq_or_of_lt (by omega)]
  simp only [Nat.shiftLeft_eq]; omega

theorem toNat_wordOfBytes (a b c d : Byte) :
    (wordOfBytes a b c d).toNat = a.toNat + 256 * b.toNat + 65536 * c.toNat + 16777216 * d.toNat := by
  have := a.isLt; have := b.isLt; have := c.isLt; have := d.isLt
  simp only [wordOfBytes, BitVec.toNat_append]
  rw [← Nat.shiftLeft_add_eq_or_of_lt (by omega), ← Nat.shiftLeft_add_eq_or_of_lt (by omega),
    ← Nat.shiftLeft_add_eq_or_of_lt (by omega)]
  simp only [Nat.shiftLeft_eq]; omega

/-- The bytes of a packed word. -/
theorem wordByte_wordOfBytes (a b c d : Byte) :
    wordByte (wordOfBytes a b c d) 0 = a ∧ wordByte (wordOfBytes a b c d) 1 = b ∧
    wordByte (wordOfBytes a b c d) 2 = c ∧ wordByte (wordOfBytes a b c d) 3 = d := by
  have := a.isLt; have := b.isLt; have := c.isLt; have := d.isLt
  refine ⟨?_, ?_, ?_, ?_⟩ <;> apply BitVec.eq_of_toNat_eq <;>
    simp only [wordByte, BitVec.extractLsb'_toNat, Nat.shiftRight_eq_div_pow, toNat_wordOfBytes] <;> omega

/-- The words of a packed byte string, and its bytes in them (rule R30). -/
theorem packWords_length (m : Nat) : ∀ l : List Byte, l.length = 4 * m → (packWords l).length = m := by
  induction m with
  | zero => intro l h; obtain rfl := List.length_eq_zero_iff.mp (show l.length = 0 by omega); rfl
  | succ m ih =>
    intro l h
    match l, h with
    | a :: b :: c :: d :: rest, h => simp only [packWords, List.length_cons]; rw [ih rest (by simp at h; omega)]

theorem packWords_getD (m : Nat) : ∀ (l : List Byte) (i : Nat), l.length = 4 * m → i < 4 * m →
    wordByte ((packWords l).getD (i / 4) 0) (i % 4) = l.getD i 0 := by
  induction m with
  | zero => intro l i h hi; omega
  | succ m ih =>
    intro l i h hi
    match l, h with
    | a :: b :: c :: d :: rest, h =>
      simp only [packWords]
      by_cases h4 : i < 4
      · obtain ⟨h0, h1, h2, h3⟩ := wordByte_wordOfBytes a b c d
        interval_cases i
        · exact h0
        · exact h1
        · exact h2
        · exact h3
      · obtain ⟨k, rfl⟩ := Nat.exists_eq_add_of_le' (show 4 ≤ i by omega)
        rw [show (k + 4) / 4 = k / 4 + 1 by omega, show (k + 4) % 4 = k % 4 by omega]
        exact ih rest k (by simp at h; omega) (by omega)

end Sys2Proof

namespace Sys2Proof.Machine

@[simp] theorem numWord_setNumWord (v : BitVec 64) (high : Bool) (w : BitVec 32) :
    numWord (setNumWord v high w) high = w := by
  have := v.isLt; have := w.isLt
  apply BitVec.eq_of_toNat_eq
  cases high <;>
    simp only [numWord, setNumWord, Bool.false_eq_true, if_true, if_false, BitVec.extractLsb'_toNat, BitVec.toNat_append,
      Nat.shiftRight_eq_div_pow] <;>
    rw [← Nat.shiftLeft_add_eq_or_of_lt (by omega)] <;> simp only [Nat.shiftLeft_eq] <;> omega

@[simp] theorem numWord_setNumWord_other (v : BitVec 64) (high other : Bool) (w : BitVec 32) (h : other ≠ high) :
    numWord (setNumWord v high w) other = numWord v other := by
  have := v.isLt; have := w.isLt
  apply BitVec.eq_of_toNat_eq
  cases high <;> cases other <;> first | exact absurd rfl h | skip
  all_goals
    simp only [numWord, setNumWord, Bool.false_eq_true, if_true, if_false, BitVec.extractLsb'_toNat, BitVec.toNat_append,
      Nat.shiftRight_eq_div_pow]
    rw [← Nat.shiftLeft_add_eq_or_of_lt (by omega)]; simp only [Nat.shiftLeft_eq]; omega

/-- Writing the two words of a number, the low word first, leaves the number. -/
theorem setNumWord_both (x v : BitVec 64) :
    setNumWord (setNumWord x false (v.extractLsb' 0 32)) true (v.extractLsb' 32 32) = v := by
  have := x.isLt; have := v.isLt
  apply BitVec.eq_of_toNat_eq
  simp only [setNumWord, Bool.false_eq_true, if_true, if_false, BitVec.extractLsb'_toNat, BitVec.toNat_append,
    Nat.shiftRight_eq_div_pow]
  rw [← Nat.shiftLeft_add_eq_or_of_lt (by omega), ← Nat.shiftLeft_add_eq_or_of_lt (by omega)]
  simp only [Nat.shiftLeft_eq]; omega

/-- Byte `i` of an array after a word write. -/
theorem get_setArrayWord {n : Nat} (b : Bytes n) (j i : Nat) (w : BitVec 32) (h : 4 * j + 3 < n) :
    (setArrayWord b j w).get i = if 4 * j ≤ i ∧ i < 4 * j + 4 then wordByte w (i - 4 * j) else b.get i := by
  simp only [setArrayWord]
  rw [Bytes.get_set _ _ _ _ h, Bytes.get_set _ _ _ _ (by omega), Bytes.get_set _ _ _ _ (by omega),
    Bytes.get_set _ _ _ _ (by omega)]
  by_cases h3 : i = 4 * j + 3
  · subst h3; simp
  by_cases h2 : i = 4 * j + 2
  · subst h2; simp
  by_cases h1 : i = 4 * j + 1
  · subst h1; simp
  by_cases h0 : i = 4 * j
  · subst h0; simp
  rw [if_neg h3, if_neg h2, if_neg h1, if_neg h0, if_neg (by omega)]

theorem arrayWord_setArrayWord {n : Nat} (b : Bytes n) (j : Nat) (w : BitVec 32) (h : 4 * j + 3 < n) :
    arrayWord (setArrayWord b j w) j = w := by
  rw [arrayWord, get_setArrayWord b j _ w h, get_setArrayWord b j _ w h, get_setArrayWord b j _ w h,
    get_setArrayWord b j _ w h, if_pos (by omega), if_pos (by omega), if_pos (by omega), if_pos (by omega),
    Nat.sub_self, Nat.add_sub_cancel_left, Nat.add_sub_cancel_left, Nat.add_sub_cancel_left]
  exact wordOfBytes_wordByte w

theorem arrayWord_setArrayWord_other {n : Nat} (b : Bytes n) (j k : Nat) (w : BitVec 32) (h : 4 * j + 3 < n) (hk : k ≠ j) :
    arrayWord (setArrayWord b j w) k = arrayWord b k := by
  rw [arrayWord, get_setArrayWord b j _ w h, get_setArrayWord b j _ w h, get_setArrayWord b j _ w h,
    get_setArrayWord b j _ w h, if_neg (by omega), if_neg (by omega), if_neg (by omega), if_neg (by omega)]
  rfl

/-- Everything a write to a 64-bit register changes: that register, and nothing for the read-only `RES_LEN`. -/
theorem writeNum_eq (s : State) (r : NumReg) (v : BitVec 64) :
    writeNum s r v = { s with
      bufAddr := if r = .bufAddr then v else s.bufAddr
      bufLen := if r = .bufLen then v else s.bufLen
      aadAddr := if r = .aadAddr then v else s.aadAddr
      aadLen := if r = .aadLen then v else s.aadLen } := by
  cases r <;> rfl

@[simp] theorem readNum_writeNum (s : State) (r : NumReg) (v : BitVec 64) (h : r ≠ .resLen) : readNum (writeNum s r v) r = v := by
  cases r <;> first | rfl | exact absurd rfl h

theorem readNum_writeNum_other (s : State) (r q : NumReg) (v : BitVec 64) (h : q ≠ r) :
    readNum (writeNum s r v) q = readNum s q := by
  cases r <;> cases q <;> first | rfl | exact absurd rfl h

/-- Where the map of rule R30 places what an offset names. -/
def HostReg.placedAt (r : HostReg) (o : Nat) : Bool :=
  match r with
  | .cmd => o == 0
  | .status => o == 4
  | .num r high => o == r.offset + if high then 4 else 0
  | .nonce j => decide (j < 6) && o == 0x40 + 4 * j
  | .tag j => decide (j < 4) && o == 0x60 + 4 * j
  | .keyin j => decide (j < 8) && o == 0x80 + 4 * j
  | .reserved => (decide (o < 0x10) || decide (0x38 ≤ o)) && (decide (o < 0x40) || decide (0x58 ≤ o)) &&
      (decide (o < 0x60) || decide (0x70 ≤ o)) && (decide (o < 0x80) || decide (0xa0 ≤ o))

theorem hostReg_placedAt : ∀ i < 64, (hostReg (4 * i)).placedAt (4 * i) = true := by decide

/-- An offset of the window names a register word of its own, or is reserved. -/
theorem hostReg_injective : ∀ i < 64, ∀ j < 64, hostReg (4 * i) = hostReg (4 * j) → i = j ∨ hostReg (4 * i) = .reserved := by
  decide +revert

end Sys2Proof.Machine
end

