-- ==== Sys2Proof/Laws/HostPort.lean ====
section
/-!
SUPPORT. The host's register writes as runs of the machine (30_encoding.md rules R85 and R90), and everything one host action can do
(00_scope.md rule R14).
-/

namespace Sys2Proof.Machine

theorem run_zero (s : State) : Host.Core.run Sys2Proof.core 0 s = .next s := rfl

theorem run_next {k : Nat} {s t : State} (h : step s = .next t) :
    Host.Core.run Sys2Proof.core (k + 1) s = Host.Core.run Sys2Proof.core k t := by
  have hc : Sys2Proof.core.step s = .next t := h
  simp only [Host.Core.run, hc]

/-- What a register write leaves alone. -/
theorem writeReg_frame (s : State) (o : Nat) (w : BitVec 32) :
    writeReg s o w = { s with
      bufAddr := (writeReg s o w).bufAddr, bufLen := (writeReg s o w).bufLen, aadAddr := (writeReg s o w).aadAddr
      aadLen := (writeReg s o w).aadLen, nonce := (writeReg s o w).nonce, tag := (writeReg s o w).tag
      keyin := (writeReg s o w).keyin } := by
  unfold writeReg
  split <;> try rfl
  rename_i r _ _; cases r <;> rfl

/-- A write to no word of `KEYIN` leaves it. -/
theorem writeReg_keyin {s : State} {o : Nat} {w : BitVec 32} (h : ∀ j, hostReg o ≠ .keyin j) :
    (writeReg s o w).keyin = s.keyin := by
  unfold writeReg
  split <;> try rfl
  · rename_i r _ _; cases r <;> rfl
  · exact absurd ‹_› (h _)

theorem writeReg_hostQ (s : State) (o : Nat) (w : BitVec 32) (q : List HostAct) :
    writeReg { s with hostQ := q } o w = { writeReg s o w with hostQ := q } := by
  unfold writeReg
  split <;> try rfl
  rename_i r _ _; cases r <;> rfl

/-- Word writes in order, from an offset on. -/
def writeAll (s : State) (o : Nat) : List (BitVec 32) → State
  | [] => s
  | w :: rest => writeAll (writeReg s o w) (o + 4) rest

/-- A run through the host's word writes: each of them one step. -/
theorem run_writeWords {s : State} {k o : Nat} {ws : List (BitVec 32)} {rest : List HostAct} (hr : s.resets = [])
    (hp : s.phase = uIdle) (h0 : 0 < o) (hm : o % 4 = 0) (hw : o + 4 * ws.length ≤ 256) :
    Host.Core.run Sys2Proof.core (ws.length + k) { s with hostQ := writeWords o ws ++ rest } =
      Host.Core.run Sys2Proof.core k { writeAll s o ws with hostQ := rest } := by
  induction ws generalizing s o with
  | nil => simp [writeWords, writeAll]
  | cons w ws ih =>
    simp only [List.length_cons] at hw
    have hok : regAccessOk .word o = true := by simp [regAccessOk, hm, Config.windowBytes]; omega
    have h1 : step { s with hostQ := writeWords o (w :: ws) ++ rest } =
        .next { writeReg s o w with hostQ := writeWords (o + 4) ws ++ rest } := by
      rw [← writeReg_hostQ]
      exact step_write (s := { s with hostQ := writeWords o (w :: ws) ++ rest }) hr hp rfl hok (by omega)
    have h2 := ih (s := writeReg s o w) (o := o + 4) (by rw [writeReg_frame]; exact hr) (by rw [writeReg_frame]; exact hp)
      (by omega) (by omega) (by omega)
    rw [List.length_cons, Nat.add_right_comm]
    exact (run_next h1).trans h2

/-- Everything one host action can do when it answers a next state. -/
theorem hostAct_cases {a : HostAct} {s t : State} (h : hostAct exec a s = .next t) :
    (∃ w, a = .write .word 0x00 w ∧ ∃ i, decodeCmd w = .ok i ∧ exec i s = .next t) ∨
    (∃ w e, a = .write .word 0x00 w ∧ decodeCmd w = .error e ∧ t = reject s) ∨
    (∃ o w, a = .write .word o w ∧ t = writeReg s o w) ∨
    (∃ o, a = .read .word o ∧ t = { s with hostR := s.hostR ++ [readReg s o] }) ∨
    (∃ addr bytes, a = .mem addr bytes ∧ PortOpen s addr.toNat bytes.length ∧
      addr.toNat + bytes.length ≤ Config.addrSpace ∧
      t = { s with mem := Mem.writeRange s.mem addr.toNat bytes }) := by
  have width : ∀ {wd : AccessWidth} {o : Nat}, ¬ (!regAccessOk wd o) = true → wd = .word := fun h => by
    simp only [regAccessOk, Bool.not_eq_true', Bool.not_eq_false, Bool.and_eq_true, beq_iff_eq] at h
    exact h.1.1
  unfold hostAct at h
  split at h
  · rename_i wd o w
    split at h
    · cases h
    · rename_i hok
      have := width hok; subst this
      split at h
      · rename_i h0; subst h0
        unfold issue at h
        split at h
        · rename_i i hi; exact .inl ⟨w, rfl, i, hi, h⟩
        · rename_i e he; injection h with h; exact .inr (.inl ⟨w, e, rfl, he, h.symm⟩)
      · injection h with h; exact .inr (.inr (.inl ⟨o, w, rfl, h.symm⟩))
  · rename_i wd o
    split at h
    · cases h
    · rename_i hok
      have := width hok; subst this
      injection h with h; exact .inr (.inr (.inr (.inl ⟨o, rfl, h.symm⟩)))
  · rename_i addr bytes
    unfold hostStore at h
    obtain ⟨ho, h⟩ := withPort_next h
    injection h with h
    have hf : addr.toNat + bytes.length ≤ Config.addrSpace := by
      cases bytes with
      | nil => exact Nat.le_of_lt addr.isLt
      | cons => exact portOpen_fits ho (Nat.succ_pos _)
    exact .inr (.inr (.inr (.inr ⟨addr, bytes, rfl, ho, hf, h.symm⟩)))

end Sys2Proof.Machine
end

