-- ==== Sys2Proof/Laws/PerInstr.lean ====
section
/-! SUPPORT. Statements made per instruction: the width of its encoding. -/

namespace Sys2Proof.Laws.EncodingWidth

/-- An instruction has one encoding, of the width of its format: a 32-bit command word (30_encoding.md rule R80), four bytes, or a 5-bit
code (rule R86), one byte whose three high bits are 0. -/
def Statement (i : Instr) : Prop :=
  (i.format = .cmd → encodeUop i = none ∧ (encode i).length = 4) ∧
  (i.format = .uop → encodeCmd i = none ∧ (encode i).length = 1 ∧ ∀ b ∈ encode i, b.toNat < 32)

theorem nop : Statement .nop := by unfold Statement; decide
theorem keyloadS : Statement .keyloadS := by unfold Statement; decide
theorem keyloadX : Statement .keyloadX := by unfold Statement; decide
theorem zeroize : Statement .zeroize := by unfold Statement; decide
theorem enc : Statement .enc := by unfold Statement; decide
theorem dec : Statement .dec := by unfold Statement; decide
theorem encc : Statement .encc := by unfold Statement; decide
theorem decc : Statement .decc := by unfold Statement; decide
theorem uIdle : Statement .uIdle := by unfold Statement; decide
theorem start : Statement .start := by unfold Statement; decide
theorem seeds : Statement .seeds := by unfold Statement; decide
theorem split : Statement .split := by unfold Statement; decide
theorem derive : Statement .derive := by unfold Statement; decide
theorem seedx : Statement .seedx := by unfold Statement; decide
theorem mackey : Statement .mackey := by unfold Statement; decide
theorem skip : Statement .skip := by unfold Statement; decide
theorem sizechk : Statement .sizechk := by unfold Statement; decide
theorem absaad : Statement .absaad := by unfold Statement; decide
theorem xor : Statement .xor := by unfold Statement; decide
theorem absbuf : Statement .absbuf := by unfold Statement; decide
theorem abslen : Statement .abslen := by unfold Statement; decide
theorem final : Statement .final := by unfold Statement; decide
theorem cmp : Statement .cmp := by unfold Statement; decide
theorem tagout : Statement .tagout := by unfold Statement; decide
theorem retok : Statement .retok := by unfold Statement; decide
theorem retfail : Statement .retfail := by unfold Statement; decide

end Sys2Proof.Laws.EncodingWidth
end

