-- ==== Sys2Proof/Machine/Instantiations.lean ====
section
/-!
DEFINITION. The two instantiations of the parameters that 47_primitive_ports.md gives for testing: T, the toy of rule R190, and
P, the published functions of rules R191 to R193. The machine is built on neither (rule R189): they are values a test hands to
a meaning in place of `openPrims`.
-/

namespace Sys2Proof.Machine

/-- The number a value is, modulo 256, as a byte. -/
def byteOf (n : Nat) : Byte := BitVec.ofNat 8 n

/-- `MAC_T`'s column sum: every message byte `q` with `q mod 16 = i`, weighted by its row number counted from 1 (rule R190). -/
def toyColumn (i : Nat) : List Byte → Nat → Nat
  | [], _ => 0
  | b :: rest, q => (if q % 16 = i then (q / 16 + 1) * b.toNat else 0) + toyColumn i rest (q + 1)

/-- Instantiation T (rule R190). -/
def toyPrims : Prims where
  ks k n c := Bytes.ofFn fun j => byteOf ((k.get (j % 32)).toNat + (n.get (j % 12)).toNat + 7 * c.toNat + j)
  macfn k m := Bytes.ofFn fun i => byteOf ((k.get i).toNat + (k.get (16 + i)).toNat + toyColumn i m 0)
  kdf k s := Bytes.ofFn fun i => byteOf ((k.get i).toNat + (s.get (i % 16)).toNat + 1)

/-- The little-endian number of a byte string (rules R191 and R192). -/
def leNat : List Byte → Nat
  | [] => 0
  | b :: rest => b.toNat + 256 * leNat rest

/-- The little-endian bytes of a word. -/
def wordBytes (w : BitVec 32) : List Byte := (List.range 4).map (wordByte w)

/-- The sixteen words of the permutation of rule R191. -/
structure Words16 where
  (w0 w1 w2 w3 w4 w5 w6 w7 w8 w9 w10 w11 w12 w13 w14 w15 : BitVec 32)
deriving DecidableEq, Repr

/-- `QR(a, b, c, d)` (rule R191). -/
def quarterRound (a b c d : BitVec 32) : BitVec 32 × BitVec 32 × BitVec 32 × BitVec 32 :=
  let a := a + b
  let d := (d ^^^ a).rotateLeft 16
  let c := c + d
  let b := (b ^^^ c).rotateLeft 12
  let a := a + b
  let d := (d ^^^ a).rotateLeft 8
  let c := c + d
  let b := (b ^^^ c).rotateLeft 7
  (a, b, c, d)

/-- The eight quarter rounds of rule R191: four on the columns, four on the diagonals. -/
def doubleRound (x : Words16) : Words16 :=
  let (a0, a4, a8, a12) := quarterRound x.w0 x.w4 x.w8 x.w12
  let (a1, a5, a9, a13) := quarterRound x.w1 x.w5 x.w9 x.w13
  let (a2, a6, a10, a14) := quarterRound x.w2 x.w6 x.w10 x.w14
  let (a3, a7, a11, a15) := quarterRound x.w3 x.w7 x.w11 x.w15
  let (b0, b5, b10, b15) := quarterRound a0 a5 a10 a15
  let (b1, b6, b11, b12) := quarterRound a1 a6 a11 a12
  let (b2, b7, b8, b13) := quarterRound a2 a7 a8 a13
  let (b3, b4, b9, b14) := quarterRound a3 a4 a9 a14
  ⟨b0, b1, b2, b3, b4, b5, b6, b7, b8, b9, b10, b11, b12, b13, b14, b15⟩

/-- `n` double rounds. -/
def doubleRounds : Nat → Words16 → Words16
  | 0, x => x
  | n + 1, x => doubleRounds n (doubleRound x)

/-- The state the permutation starts from: the four constants, the eight words of the key and four more words (rules R191 and
R193). -/
def initialWords (k : Bytes 32) (x y z w : BitVec 32) : Words16 :=
  let kw (i : Nat) := wordOfBytes (k.get (4 * i)) (k.get (4 * i + 1)) (k.get (4 * i + 2)) (k.get (4 * i + 3))
  ⟨0x61707865, 0x3320646e, 0x79622d32, 0x6b206574, kw 0, kw 1, kw 2, kw 3, kw 4, kw 5, kw 6, kw 7, x, y, z, w⟩

/-- Word `i` of a byte string. -/
def bytesWord {n : Nat} (b : Bytes n) (i : Nat) : BitVec 32 :=
  wordOfBytes (b.get (4 * i)) (b.get (4 * i + 1)) (b.get (4 * i + 2)) (b.get (4 * i + 3))

/-- `KS_P` (rule R191). -/
def publishedKs (k : Bytes 32) (n : Bytes 12) (c : BitVec 32) : Bytes 64 :=
  let s := initialWords k c (bytesWord n 0) (bytesWord n 1) (bytesWord n 2)
  let w := doubleRounds 10 s
  Bytes.ofList 64 <|
    [w.w0 + s.w0, w.w1 + s.w1, w.w2 + s.w2, w.w3 + s.w3, w.w4 + s.w4, w.w5 + s.w5, w.w6 + s.w6, w.w7 + s.w7,
     w.w8 + s.w8, w.w9 + s.w9, w.w10 + s.w10, w.w11 + s.w11, w.w12 + s.w12, w.w13 + s.w13, w.w14 + s.w14,
     w.w15 + s.w15].flatMap wordBytes

/-- The accumulator of `MAC_P` over a message, at most 16 bytes at a time (rule R192); `fuel` bounds the number of blocks. -/
def polyBlocks (r : Nat) : Nat → List Byte → Nat → Nat
  | 0, _, acc => acc
  | fuel + 1, m, acc =>
    if m.isEmpty then acc
    else
      let b := m.take 16
      polyBlocks r fuel (m.drop 16) ((acc + leNat b + 2 ^ (8 * b.length)) * r % (2 ^ 130 - 5))

/-- `MAC_P` (rule R192). -/
def publishedMac (k : Bytes 32) (m : List Byte) : Bytes 16 :=
  let r := leNat (k.data.take 16) &&& 0x0ffffffc0ffffffc0ffffffc0fffffff
  let sum := polyBlocks r m.length m 0 + leNat (k.data.drop 16)
  Bytes.ofFn fun i => byteOf (sum / 2 ^ (8 * i.val))

/-- `KDF_P` (rule R193). -/
def publishedKdf (k : Bytes 32) (salt : Bytes 16) : Bytes 32 :=
  let w := doubleRounds 10 (initialWords k (bytesWord salt 0) (bytesWord salt 1) (bytesWord salt 2) (bytesWord salt 3))
  Bytes.ofList 32 ([w.w0, w.w1, w.w2, w.w3, w.w12, w.w13, w.w14, w.w15].flatMap wordBytes)

/-- Instantiation P (rules R191 to R193). -/
def publishedPrims : Prims where
  ks := publishedKs
  macfn := publishedMac
  kdf := publishedKdf

end Sys2Proof.Machine
end

