-- ==== Sys2Proof/Tests/Slice0.lean ====
section
/-!
SUPPORT. The model's own tests: ill-formed terms refused, words written out from the encoding tables, the spec's vectors
(95_test_vectors.md) on the meanings, and for every statement with hypotheses a state that meets them.
-/

namespace Sys2Proof.Tests

open Sys2Proof.Machine

/-! Ill-formed terms. One for each check of WellFormed.lean. -/

theorem test_access_width_refused : regAccessOk .byte 0x00 = false ∧ regAccessOk .doubleword 0x10 = false := by decide
theorem test_access_alignment_refused : regAccessOk .word 0x02 = false := by decide
theorem test_access_outside_window_refused : regAccessOk .word 0x100 = false ∧ regAccessOk .word 0xfc = true := by decide
theorem test_write_action_refused : (HostAct.write .halfword 0x10 0).wf = false := by decide
theorem test_read_action_refused : (HostAct.read .word 0x11).wf = false := by decide
theorem test_store_past_the_top_refused :
    (HostAct.mem 0xffffffffffffffff [0, 0]).wf = false ∧ (HostAct.mem 0xffffffffffffffff [0]).wf = true := by decide
theorem test_cmd_of_a_micro_operation_refused : (Asm.cmd .start).wf = false ∧ assemble (.cmd .start) = none := by decide
theorem test_wrw_refused : (Asm.wrw 0x41 0).wf = false := by decide
theorem test_rdw_refused : (Asm.rdw 0x100).wf = false := by decide
theorem test_mem_statement_refused : (Asm.mem 0xffffffffffffffff [0, 0]).wf = false := by decide
theorem test_set_res_len_refused : (Asm.set .resLen 0).wf = false := by decide
theorem test_setb_nonce_length_refused : (Asm.setbNonce (zeros 13)).wf = false := by decide
theorem test_setb_tag_length_refused : (Asm.setbTag (zeros 15)).wf = false := by decide
theorem test_setb_keyin_length_refused : (Asm.setbKeyin (zeros 31)).wf = false := by decide

/-! Decoding, from the word column of rule R81 and the code column of rule R86. -/

theorem test_decode_nop : decode .cmd [0x00, 0x00, 0x00, 0x00] = .ok .nop := by decide
theorem test_decode_keyloadS : decode .cmd [0x01, 0x00, 0x00, 0x00] = .ok .keyloadS := by decide
theorem test_decode_keyloadX : decode .cmd [0x02, 0x00, 0x00, 0x00] = .ok .keyloadX := by decide
theorem test_decode_zeroize : decode .cmd [0x03, 0x00, 0x00, 0x00] = .ok .zeroize := by decide
theorem test_decode_enc : decode .cmd [0x10, 0x00, 0x00, 0x00] = .ok .enc := by decide
theorem test_decode_dec : decode .cmd [0x11, 0x00, 0x00, 0x00] = .ok .dec := by decide
theorem test_decode_encc : decode .cmd [0x12, 0x00, 0x00, 0x00] = .ok .encc := by decide
theorem test_decode_decc : decode .cmd [0x13, 0x00, 0x00, 0x00] = .ok .decc := by decide
theorem test_decode_uIdle : decode .uop [0b00000000] = .ok .uIdle := by decide
theorem test_decode_start : decode .uop [0b00000001] = .ok .start := by decide
theorem test_decode_seeds : decode .uop [0b00000010] = .ok .seeds := by decide
theorem test_decode_split : decode .uop [0b00000011] = .ok .split := by decide
theorem test_decode_derive : decode .uop [0b00000100] = .ok .derive := by decide
theorem test_decode_seedx : decode .uop [0b00000101] = .ok .seedx := by decide
theorem test_decode_mackey : decode .uop [0b00000110] = .ok .mackey := by decide
theorem test_decode_skip : decode .uop [0b00000111] = .ok .skip := by decide
theorem test_decode_sizechk : decode .uop [0b00001000] = .ok .sizechk := by decide
theorem test_decode_absaad : decode .uop [0b00001001] = .ok .absaad := by decide
theorem test_decode_xor : decode .uop [0b00001010] = .ok .xor := by decide
theorem test_decode_absbuf : decode .uop [0b00001011] = .ok .absbuf := by decide
theorem test_decode_abslen : decode .uop [0b00001100] = .ok .abslen := by decide
theorem test_decode_final : decode .uop [0b00001101] = .ok .final := by decide
theorem test_decode_cmp : decode .uop [0b00001110] = .ok .cmp := by decide
theorem test_decode_tagout : decode .uop [0b00001111] = .ok .tagout := by decide
theorem test_decode_retok : decode .uop [0b00010000] = .ok .retok := by decide
theorem test_decode_retfail : decode .uop [0b00010001] = .ok .retfail := by decide

/-- The words of V-T11 and a reserved code, rejected by name. -/
theorem test_decode_rejects :
    decodeCmd 0x00000004 = .error .illegalOpcode ∧ decodeCmd 0x00000014 = .error .illegalOpcode ∧
    decodeCmd 0x000000ff = .error .illegalOpcode ∧ decodeCmd 0x00000110 = .error .reservedBits ∧
    decodeCmd 0x00000100 = .error .reservedBits ∧ decodeCmd 0x80000000 = .error .reservedBits ∧
    decodeUop 0x12 = .error .reservedCode ∧ decode .uop [0x20] = .error .reservedCode ∧
    decode .cmd [0x10, 0, 0] = .error .badLength ∧ decode .uop [] = .error .badLength := by decide

/-- The examples of rules R89 and R90: `SET BUF_LEN, 20` and `SETB NONCE` of twelve bytes. -/
theorem test_assemble_set : assemble (.set .bufLen 20) = some [.write .word 0x18 0x14, .write .word 0x1c 0] := by decide
theorem test_assemble_setb_nonce :
    assemble (.setbNonce [0xa0, 0xa1, 0xa2, 0xa3, 0xa4, 0xa5, 0xa6, 0xa7, 0xa8, 0xa9, 0xaa, 0xab]) =
      some [.write .word 0x40 0xa3a2a1a0, .write .word 0x44 0xa7a6a5a4, .write .word 0x48 0xabaaa9a8] := by decide
theorem test_assemble_reads :
    assembleAll [.get .resLen, .getbTag, .gets, .cmd .enc] =
      some [.read .word 0x30, .read .word 0x34, .read .word 0x60, .read .word 0x64, .read .word 0x68, .read .word 0x6c,
        .read .word 0x04, .write .word 0x00 0x10] := by decide

/-! Numbers (V-A1). -/

theorem test_pad16 : [0, 1, 5, 12, 15, 16, 17, 2 ^ 38 - 64, 2 ^ 64 - 1].map pad16 = [0, 15, 11, 4, 1, 0, 15, 0, 1] := by decide
theorem test_nblk :
    [0, 1, 63, 64, 65, 128, 2 ^ 38 - 64, 2 ^ 38 - 63, 2 ^ 64 - 1].map nblk =
      [0, 1, 1, 1, 2, 2, 2 ^ 32 - 1, 2 ^ 32, 2 ^ 58] := by decide
theorem test_le64 :
    le64 20 = [0x14, 0, 0, 0, 0, 0, 0, 0] ∧ le64 274877906881 = [0xc1, 0xff, 0xff, 0xff, 0x3f, 0, 0, 0] := by decide

/-! Small states. -/

/-- `k[j] = j` (V-A2). -/
def keyBytes : Bytes 32 := Bytes.ofFn fun j => byteOf j
/-- `b0b1...c7` (V-T13). -/
def nonceBytes : Bytes 24 := Bytes.ofFn fun j => byteOf (0xb0 + j)
/-- `a0a1...ab` (V-A2). -/
def seedNonceBytes : Bytes 12 := Bytes.ofFn fun j => byteOf (0xa0 + j)

/-- A key loaded, in the standard form or the extended one. -/
def keyed (xn : Bool) : State := { State.reset with key := keyBytes, status := ⟨true, xn, true, false, false⟩ }
/-- A command of `op` accepted and at `phase`. -/
def running (op : BitVec 2) (phase : BitVec 5) (xn : Bool) : State :=
  { keyed xn with op := op, phase := phase, status := ⟨true, xn, false, false, false⟩ }
/-- The seed of V-A2 in a running command, at a position. -/
def seeded (op : BitVec 2) (phase : BitVec 5) (ctr : BitVec 32) (off : BitVec 6) : State :=
  { running op phase false with eph := { Eph.reset with seedKey := keyBytes, seedNonce := seedNonceBytes, ctr := ctr, off := off } }

/-- One field of a next state. -/
def at_ {α : Type} (r : Result) (f : State → α) : Option α :=
  match r with
  | .next s => some (f s)
  | .fault _ => none
  | .refused _ => none

/-- Why a step stopped. -/
def stop (r : Result) : Option (Fault ⊕ Refusal) :=
  match r with
  | .next _ => none
  | .fault f => some (.inl f)
  | .refused r => some (.inr r)

/-! One step of each instruction, the expected values from the rules and vectors. -/

/-- V-T8 and rules R175 to R178. -/
theorem test_nop : exec .nop (keyed true) = .next (keyed true) := rfl
theorem test_keyloadS :
    at_ (exec .keyloadS { State.reset with keyin := keyBytes, cause := 3 }) (fun s => (s.key, s.keyin, statusWord s.status, s.cause)) =
      some (keyBytes, Bytes.zero 32, 0x05, 0) := by decide
theorem test_keyloadX :
    at_ (exec .keyloadX { State.reset with keyin := keyBytes }) (fun s => (s.key, s.keyin, statusWord s.status)) =
      some (keyBytes, Bytes.zero 32, 0x07) := by decide
theorem test_zeroize :
    at_ (exec .zeroize { keyed true with keyin := keyBytes }) (fun s => (s.key, s.keyin, statusWord s.status)) =
      some (Bytes.zero 32, Bytes.zero 32, 0x04) := by decide

/-- Acceptance and rejection (rules R145, R208 and R209). -/
theorem test_enc : at_ (exec .enc (keyed false)) (fun s => (s.op, s.phase, statusWord s.status)) = some (0, 1, 0x05) := by decide
theorem test_enc_keyless : at_ (exec .enc State.reset) (fun s => (s.phase, statusWord s.status)) = some (0, 0x10) := by decide
theorem test_dec :
    at_ (exec .dec { keyed false with status := ⟨true, false, false, false, true⟩ }) (fun s => (s.op, s.phase, statusWord s.status)) =
      some (1, 1, 0x01) := by decide
theorem test_encc : at_ (exec .encc (keyed true)) (fun s => (s.op, s.phase)) = some (2, 1) := by decide
theorem test_decc : at_ (exec .decc (keyed true)) (fun s => (s.op, s.phase)) = some (3, 1) := by decide
/-- Rule R73 (a): the last byte of the tag of `ENCC` would wrap. -/
theorem test_encc_wrap :
    stop (exec .encc { keyed false with bufAddr := 0xfffffffffffffff0, bufLen := 1 }) = some (.inr .regionWrap) := by decide
/-- Rule R73 (b). -/
theorem test_dec_overlap :
    stop (exec .dec { keyed false with bufAddr := 0x100, bufLen := 2, aadAddr := 0x101, aadLen := 1 }) =
      some (.inr .regionOverlap) := by decide

theorem test_uIdle : exec .uIdle State.reset = .next State.reset := rfl

/-- V-T6, `START`: the tag of `DECC` is the last 16 bytes. -/
theorem test_start_decc :
    at_ (exec .start { running 3 1 true with
        bufAddr := 0x200, bufLen := 17, mem := [(0x200, 0x99), (0x201, 0xa4), (0x210, 0x09)], cause := 3 })
      (fun s => (s.eph.mlen, s.eph.ctag.get 0, s.eph.ctag.get 15, s.phase, s.cause)) = some (1, 0xa4, 0x09, 3, 0) := by decide
/-- V-T7, `START`: 15 bytes hold no tag. -/
theorem test_start_undersize :
    at_ (exec .start { running 3 1 true with bufLen := 15 }) (fun s => (s.cause, s.phase)) = some (2, 0x11) := by decide

/-- V-T13, row 1. -/
theorem test_seeds :
    at_ (exec .seeds { running 0 2 false with nonce := nonceBytes }) (fun s => (s.eph.seedKey, s.eph.seedNonce, s.phase)) =
      some (keyBytes, Bytes.ofFn fun j => byteOf (0xb0 + j), 6) := by decide
/-- V-T13, row 4. -/
theorem test_split :
    at_ (exec .split { running 0 3 true with nonce := nonceBytes }) (fun s => (s.eph.salt, s.eph.inner, s.phase)) =
      some (Bytes.ofFn fun j => byteOf (0xb0 + j), Bytes.ofFn fun j => byteOf (0xc0 + j), 4) := by decide
/-- V-T13, row 4. -/
theorem test_derive :
    at_ (deriveOn toyPrims { running 0 4 true with eph := { Eph.reset with salt := nonceBytes.slice 0 16 } })
      (fun s => (s.eph.subkey.data.take 17, s.phase)) =
      some ([0xb1, 0xb3, 0xb5, 0xb7, 0xb9, 0xbb, 0xbd, 0xbf, 0xc1, 0xc3, 0xc5, 0xc7, 0xc9, 0xcb, 0xcd, 0xcf, 0xc1], 5) := by decide
/-- V-P2, the published derivation. -/
theorem test_derive_published :
    (publishedKdf keyBytes
      (Bytes.ofList 16 [0x00, 0x00, 0x00, 0x09, 0x00, 0x00, 0x00, 0x4a, 0x00, 0x00, 0x00, 0x00, 0x31, 0x41, 0x59, 0x27])).data.take 8 =
      [0x82, 0x41, 0x3b, 0x42, 0x27, 0xb2, 0x7b, 0xfe] := by decide
/-- V-T13, row 4. -/
theorem test_seedx :
    at_ (exec .seedx { running 0 5 true with eph := { Eph.reset with subkey := keyBytes, inner := nonceBytes.slice 16 8 } })
      (fun s => (s.eph.seedKey, s.eph.seedNonce.data, s.eph.subkey, s.phase)) =
      some (keyBytes, [0, 0, 0, 0, 0xc0, 0xc1, 0xc2, 0xc3, 0xc4, 0xc5, 0xc6, 0xc7], Bytes.zero 32, 6) := by decide
/-- V-T1 and V-A2. -/
theorem test_mackey :
    at_ (mackeyOn toyPrims (seeded 0 6 0 0)) (fun s => (s.eph.mackey.data.take 13, s.eph.scratch, s.eph.ctr, s.eph.off, s.phase)) =
      some ([0xa0, 0xa3, 0xa6, 0xa9, 0xac, 0xaf, 0xb2, 0xb5, 0xb8, 0xbb, 0xbe, 0xc1, 0xb8], Bytes.zero 32, 0, 32, 7) := by decide
theorem test_skip :
    at_ (exec .skip (seeded 0 7 0 32)) (fun s => (s.eph.ctr, s.eph.off, s.phase)) = some (1, 0, 8) := by decide
/-- V-T9, the exact bound and one above it. -/
theorem test_sizechk_bound :
    at_ (exec .sizechk { running 0 8 false with eph := { Eph.reset with mlen := 274877906880 } }) (fun s => (s.cause, s.phase)) =
      some (0, 9) := by decide
theorem test_sizechk_above :
    at_ (exec .sizechk { running 0 8 false with eph := { Eph.reset with mlen := 274877906881 } }) (fun s => (s.cause, s.phase)) =
      some (1, 0x11) := by decide
/-- V-T1: five bytes and eleven zero bytes. -/
theorem test_absaad :
    at_ (exec .absaad { running 0 9 false with
        aadAddr := 0x100, aadLen := 5, mem := [(0x100, 1), (0x101, 2), (0x102, 3), (0x103, 4), (0x104, 5)] })
      (fun s => (s.eph.macmsg, s.phase)) = some ([1, 2, 3, 4, 5, 0, 0, 0, 0, 0, 0, 0, 0, 0, 0, 0], 0x0a) := by decide
/-- V-T1: the first two bytes and the exit position. -/
theorem test_xor :
    at_ (xorOn toyPrims { seeded 0 0x0a 1 0 with
        bufAddr := 0x200, mem := [(0x200, 0x41), (0x201, 0x42), (0x202, 0x43)]
        eph := { (seeded 0 0x0a 1 0).eph with mlen := 2 } })
      (fun s => (s.mem, s.eph.ctr, s.eph.off, s.phase)) = some ([(0x200, 0xe6), (0x201, 0xe8), (0x202, 0x43)], 1, 2, 0x0b) := by decide
/-- V-A2 and rule R126: the last byte of block 1 and the first of block 2. -/
theorem test_xor_across_blocks :
    at_ (xorOn toyPrims { seeded 1 0x0a 1 63 with
        bufAddr := 0x200, eph := { (seeded 1 0x0a 1 63).eph with mlen := 2 } })
      (fun s => (s.mem, s.eph.ctr, s.eph.off, s.phase)) = some ([(0x200, 0x08), (0x201, 0xae)], 2, 1, 0x10) := by decide
theorem test_absbuf :
    at_ (exec .absbuf { running 0 0x0b false with
        bufAddr := 0x200, mem := [(0x200, 0xe6)], eph := { Eph.reset with mlen := 1 } })
      (fun s => (s.eph.macmsg, s.phase)) = some (0xe6 :: zeros 15, 0x0c) := by decide
/-- V-T1. -/
theorem test_abslen :
    at_ (exec .abslen { running 0 0x0c false with aadLen := 5, eph := { Eph.reset with mlen := 20 } })
      (fun s => (s.eph.macmsg, s.phase)) = some ([5, 0, 0, 0, 0, 0, 0, 0, 0x14, 0, 0, 0, 0, 0, 0, 0], 0x0d) := by decide
/-- V-T1, the whole MAC message and the tag. -/
theorem test_final :
    at_ (finalOn toyPrims { running 0 0x0d false with
        eph := { Eph.reset with
          mackey := (toyPrims.ks keyBytes seedNonceBytes 0).slice 0 32
          macmsg := macInput [1, 2, 3, 4, 5]
            [0xe6, 0xe8, 0xee, 0xf4, 0xf6, 0xf0, 0xfe, 0xf4, 0xf6, 0x88, 0x8e, 0x84, 0xf2, 0x8c, 0x8a, 0x98, 0x9a, 0x9c, 0x82, 0x80]
            5 20 } })
      (fun s => (s.eph.etag.data, s.phase)) =
      some ([0x13, 0x10, 0xd5, 0xe2, 0x6d, 0x62, 0x84, 0x76, 0xc4, 0x9e, 0xb0, 0xa2, 0x78, 0xb2, 0xb4, 0xd6], 0x0f) := by decide
/-- V-T12, rows 1 and 5. -/
theorem test_cmp_equal :
    at_ (exec .cmp { running 1 0x0e false with eph := { Eph.reset with etag := keyBytes.slice 0 16, ctag := keyBytes.slice 0 16 } })
      (fun s => (s.eph.diff, s.eph.eq, s.phase, s.cause)) = some (0, 1, 0x0a, 0) := by decide
theorem test_cmp_differ :
    at_ (exec .cmp { running 1 0x0e false with
        eph := { Eph.reset with etag := keyBytes.slice 0 16, ctag := Bytes.ofFn fun j => byteOf (15 - j) } })
      (fun s => (s.eph.diff, s.eph.eq, s.phase, s.cause)) = some (0x0f, 0, 0x11, 3) := by decide
theorem test_tagout_enc :
    at_ (exec .tagout { running 0 0x0f false with eph := { Eph.reset with etag := keyBytes.slice 0 16 } })
      (fun s => (s.tag, s.mem, s.phase)) = some (keyBytes.slice 0 16, [], 0x10) := by decide
/-- Rule R138: a zero byte of the tag is no cell, the other fifteen are. -/
theorem test_tagout_encc :
    at_ (exec .tagout { running 2 0x0f false with
        bufAddr := 0x200, eph := { Eph.reset with mlen := 4, etag := keyBytes.slice 0 16 } })
      (fun s => (s.tag, s.mem.length, Mem.read s.mem 0x205, Mem.read s.mem 0x213, s.phase)) =
      some (Bytes.zero 16, 15, 0x01, 0x0f, 0x10) := by decide
/-- V-T5: the result length of `ENCC`. -/
theorem test_retok :
    at_ (exec .retok { running 2 0x10 true with nonce := nonceBytes, eph := { Eph.reset with mlen := 20, seedKey := keyBytes } })
      (fun s => (s.resLen, statusWord s.status, s.nonce, s.eph, s.phase)) =
      some (36, 0x07, Bytes.zero 24, Eph.reset, 0) := by decide
/-- V-T6b. -/
theorem test_retfail :
    at_ (exec .retfail { running 3 0x11 true with
        nonce := nonceBytes, resLen := 36, cause := 3, eph := { Eph.reset with mlen := 20 } })
      (fun s => (s.resLen, statusWord s.status, s.nonce, s.eph, s.phase, s.cause)) =
      some (0, 0x0b, Bytes.zero 24, Eph.reset, 0, 3) := by decide

/-! The port, the host and the step. -/

/-- Rules R66 and R67: the first address that is not ordinary memory decides. -/
theorem test_port_stops :
    stop (exec .absaad { running 0 9 false with aadAddr := 0x100, aadLen := 2, memMap := [⟨0x100, 1, .ordinary⟩] }) =
      some (.inl .unadmittedAddress) ∧
    stop (exec .absaad { running 0 9 false with
      aadAddr := 0x100, aadLen := 2, memMap := [⟨0x100, 2, .ordinary⟩, ⟨0x101, 1, .sideEffect⟩] }) =
      some (.inr .sideEffectAddress) := by decide

/-- Rule R65. -/
theorem test_bad_register_access :
    stop (step { State.reset with hostQ := [.read .byte 0x04] }) = some (.inr .badRegisterAccess) ∧
    stop (step { State.reset with hostQ := [.write .word 0x102 0] }) = some (.inr .badRegisterAccess) := by decide

/-- Rules R31 and R82: the word of `ENC` in `CMD` runs it, the word 4 is rejected. -/
theorem test_issue :
    at_ (step { keyed false with hostQ := [.write .word 0x00 0x10] }) (fun s => (s.phase, s.hostQ)) = some (1, []) ∧
    at_ (step { keyed false with hostQ := [.write .word 0x00 0x04] }) (fun s => (s.phase, statusWord s.status)) =
      some (0, 0x11) := by decide

/-- Rule R30: the word at the lower offset is the less significant. -/
theorem test_register_map :
    readReg (writeReg (writeReg State.reset 0x18 0x44332211) 0x1c 0x88776655) 0x18 = 0x44332211 ∧
    (writeReg (writeReg State.reset 0x18 0x44332211) 0x1c 0x88776655).bufLen = 0x8877665544332211 ∧
    (writeReg State.reset 0x54 0x04030201).nonce.data.drop 20 = [1, 2, 3, 4] := by decide

/-- Rules R225 and R226: a reset is counted down, then taken; the next one follows, at once or later. -/
theorem test_resets_follow_each_other :
    at_ (step { keyed false with resets := [1] }) (fun s => (s.resets, s.key)) = some ([0], keyBytes) ∧
    at_ (step { keyed false with resets := [0, 0, 3] }) (fun s => (s.resets, s.key, s.status, s.freeCount)) =
      some ([0, 3], Bytes.zero 32, State.reset.status, 1) ∧
    at_ (step { keyed false with resets := [0, 3], freeCount := 1 }) (fun s => (s.resets, s.freeCount)) = some ([3], 2) := by decide

/-- The placing of a word: the next step runs exactly it. -/
theorem test_fetch_command : step (State.reset.withFetchWord 32 0x03) = exec .zeroize State.reset := rfl
theorem test_fetch_micro_operation :
    step (State.reset.withFetchWord 8 0x11) = exec .retfail { State.reset with phase := 0x11 } := rfl
theorem test_fetch_reserved : stop (step (State.reset.withFetchWord 8 0x12)) = some (.inr .reservedPhase) := by decide

theorem test_reset_memory_wf : Memory.wf State.reset.mem = true := by decide

/-! For each statement with hypotheses, states and operands that meet them, a boundary of every range among them. -/

/-- `RegionDuties` of a concrete state, by the machine's own check. -/
theorem duties_of {op : BitVec 2} {s : State} (h : dutyBreach op s = none) : RegionDuties op s := (dutyBreach_none_iff op s).mp h

theorem test_witness_StepRunsTheMicroOperationOfPhase :
    ((running 0 1 false).resets = [] ∧ (running 0 1 false).phase ≠ uIdle ∧ decodeUop (running 0 1 false).phase = .ok .start) ∧
    (State.reset.resets = [] ∧ State.reset.hostQ = [] ∧ decodeUop State.reset.phase = .ok .uIdle) ∧
    ((running 0 0x12 false).phase ≠ uIdle ∧ decodeUop (running 0 0x12 false).phase = .error .reservedCode) := by decide

/-- The host's next action is the issue of a word. -/
def issuing (w : BitVec 32) : State := { keyed false with hostQ := [.write .word 0x00 w] }

theorem test_witness_StepRunsTheIssuedCommand :
    (issuing 0x13).resets = [] ∧ (issuing 0x13).phase = uIdle ∧ (issuing 0x13).hostQ = .write .word 0x00 0x13 :: [] ∧
    decodeCmd 0x13 = .ok .decc ∧
    (issuing 0x14).resets = [] ∧ (issuing 0x14).phase = uIdle ∧ (issuing 0x14).hostQ = .write .word 0x00 0x14 :: [] ∧
    decodeCmd 0x14 = .error .illegalOpcode := by decide

/-- A reset with one step to go, before a step of each outcome, another after it; and one due in each kind of phase. -/
theorem test_witness_ResetAtAnyTime :
    (∃ s t : State, s.resets = (0 + 1) :: [2] ∧ step { s with resets := [] } = .next t) ∧
    (∃ s : State, s.resets = (0 + 1) :: [2] ∧ step { s with resets := [] } = .fault .unadmittedAddress) ∧
    (∃ s : State, s.resets = (0 + 1) :: [2] ∧ step { s with resets := [] } = .refused .reservedPhase) ∧
    (∃ s : State, Memory.wf s.mem = true ∧ s.resets = 0 :: [2] ∧ s.phase ≠ uXor ∧ ¬ (s.phase = uTagout ∧ s.op ≠ opEnc)) ∧
    (∃ s : State, Memory.wf s.mem = true ∧ s.resets = 0 :: [2] ∧ s.phase = uXor) ∧
    (∃ s : State, Memory.wf s.mem = true ∧ s.resets = 0 :: [2] ∧ s.phase = uTagout ∧ s.op ≠ opEnc) :=
  ⟨⟨{ State.reset with resets := [1, 2] }, _, rfl, rfl⟩,
    ⟨{ running 0 9 false with aadLen := 1, memMap := [], resets := [1, 2] }, rfl, rfl⟩,
    ⟨{ running 0 0x12 false with resets := [1, 2] }, rfl, rfl⟩,
    ⟨{ State.reset with resets := [0, 2] }, by decide⟩,
    ⟨{ running 0 0x0a false with resets := [0, 2], mem := [(0x200, 1)], bufAddr := 0x200, eph := { Eph.reset with mlen := 1 } },
      by decide⟩,
    ⟨{ running 2 0x0f false with resets := [0, 2] }, by decide⟩⟩

theorem test_witness_RegisterAccessesComplete :
    (State.reset.resets = [] ∧ State.reset.phase = uIdle) ∧
    (AccessWidth.word = .word ∧ 0x00 < 256 ∧ 0x00 % 4 = 0) ∧ (0xfc < 256 ∧ 0xfc % 4 = 0 ∧ 0xfc ≠ 0x00) ∧
    ¬ (AccessWidth.byte = .word ∧ 0x00 < 256 ∧ 0x00 % 4 = 0) ∧ ¬ (AccessWidth.word = .word ∧ 0x100 < 256 ∧ 0x100 % 4 = 0) ∧
    ¬ (AccessWidth.word = .word ∧ 0xfd < 256 ∧ 0xfd % 4 = 0) := by decide

/-- The ends of the four classes of offsets: each end falls under one clause. -/
theorem test_witness_RegisterWritesReadBack :
    (∀ o ∈ [0x10, 0x2c, 0x40, 0x54, 0x60, 0x6c], o < 256 ∧ o % 4 = 0 ∧
      ((0x10 ≤ o ∧ o < 0x30) ∨ (0x40 ≤ o ∧ o < 0x58) ∨ (0x60 ≤ o ∧ o < 0x70)) ∧ ¬ (0x80 ≤ o ∧ o < 0xa0)) ∧
    (∀ o ∈ [0x00, 0x0c, 0x30, 0x3c, 0x58, 0x5c, 0x70, 0x7c, 0xa0, 0xfc], o < 256 ∧ o % 4 = 0 ∧
      ¬ ((0x10 ≤ o ∧ o < 0x30) ∨ (0x40 ≤ o ∧ o < 0x58) ∨ (0x60 ≤ o ∧ o < 0x70) ∨ (0x80 ≤ o ∧ o < 0xa0))) ∧
    (∀ o ∈ [0x80, 0x9c], o < 256 ∧ o % 4 = 0 ∧ 0x80 ≤ o ∧ o < 0xa0 ∧
      ¬ ((0x10 ≤ o ∧ o < 0x30) ∨ (0x40 ≤ o ∧ o < 0x58) ∨ (0x60 ≤ o ∧ o < 0x70))) := by decide

/-- The ends of the reserved ranges and of the words of each array. -/
theorem test_witness_HostReadsFollowTheMap :
    (∀ o ∈ [0x08, 0x0f, 0x38, 0x3f, 0x58, 0x5f, 0x70, 0x7f, 0xa0, 0xff], (0x08 ≤ o ∧ o < 0x10) ∨ (0x38 ≤ o ∧ o < 0x40) ∨
      (0x58 ≤ o ∧ o < 0x60) ∨ (0x70 ≤ o ∧ o < 0x80) ∨ 0xa0 ≤ o) ∧
    (∀ o ∈ [0x00, 0x04, 0x10, 0x34, 0x40, 0x54, 0x60, 0x6c, 0x80, 0x9c], ¬ ((0x08 ≤ o ∧ o < 0x10) ∨ (0x38 ≤ o ∧ o < 0x40) ∨
      (0x58 ≤ o ∧ o < 0x60) ∨ (0x70 ≤ o ∧ o < 0x80) ∨ 0xa0 ≤ o)) := by decide

theorem test_witness_StatusWordLayout : 0 < 32 ∧ 4 < 32 ∧ 31 < 32 := by decide

theorem test_witness_SetLoadsTheRegister :
    State.reset.resets = [] ∧ State.reset.phase = uIdle ∧ NumReg.bufAddr ≠ .resLen ∧ NumReg.aadLen ≠ .resLen := by decide

theorem test_witness_SetbKeyinThenKeyloadLoadsTheKey : State.reset.resets = [] ∧ State.reset.phase = uIdle := by decide

theorem test_witness_SetbNonceLoadsTheNonce :
    State.reset.resets = [] ∧ State.reset.phase = uIdle ∧ ((zeros 12).length = 12 ∨ (zeros 12).length = 24) ∧
    ((zeros 24).length = 12 ∨ (zeros 24).length = 24) := by decide

/-- Two states that differ in hidden registers alone. -/
theorem test_witness_HostReadsIgnoreHiddenState :
    let s := keyed false
    let t := { keyed false with key := Bytes.zero 32, cause := 3, op := 2, keyin := keyBytes }
    s ≠ t ∧ s.bufAddr = t.bufAddr ∧ s.bufLen = t.bufLen ∧ s.aadAddr = t.aadAddr ∧ s.aadLen = t.aadLen ∧ s.resLen = t.resLen ∧
    s.nonce = t.nonce ∧ s.tag = t.tag ∧ s.status = t.status := by decide

theorem test_witness_KeyChangesOnlyByKeyCommandOrReset :
    (∃ t, step { State.reset with keyin := keyBytes, hostQ := [.write .word 0x00 0x01] } = .next t ∧
      t.key ≠ ({ State.reset with keyin := keyBytes, hostQ := [.write .word 0x00 0x01] } : State).key) ∧
    (∃ t, step { keyed false with resets := [0] } = .next t ∧
      t.key ≠ ({ keyed false with resets := [0] } : State).key) :=
  ⟨⟨_, rfl, by decide⟩, ⟨_, rfl, by decide⟩⟩

theorem test_witness_AeadCommandsAreAcceptedUnderTheDuties :
    ((Instr.encc, 2#2) ∈ [(Instr.enc, 0#2), (.dec, 1#2), (.encc, 2#2), (.decc, 3#2)]) ∧ (keyed false).status.kv = true ∧
    RegionDuties 2 { keyed false with bufAddr := 0xffffffffffffffef, bufLen := 1 } ∧
    ¬ RegionDuties 2 { keyed false with bufAddr := 0xffffffffffffffef, bufLen := 2 } :=
  ⟨by decide, rfl, duties_of (by decide), fun h => absurd ((dutyBreach_none_iff _ _).mpr h) (by decide)⟩

theorem test_witness_IllegalOrKeylessCommandsAreRejected :
    State.reset.resets = [] ∧ State.reset.phase = uIdle ∧ decodeCmd 0x110 = .error .reservedBits ∧
    Instr.decc ∈ [Instr.enc, .dec, .encc, .decc] ∧ State.reset.status.kv = false := by decide

/-- 15 and 16 bytes of `DECC`, the tag readable, and another command. -/
theorem test_witness_StartLatchesTheOperands :
    (let s := { running 3 1 false with bufLen := 15 }; s.op = opDecc ∧ s.bufLen.toNat < 16) ∧
    (let s := { running 3 1 false with bufLen := 16 };
      s.op = opDecc ∧ 16 ≤ s.bufLen.toNat ∧ PortOpen s (s.bufAddr.toNat + (s.bufLen.toNat - 16)) 16) ∧
    (running 1 1 false).op ≠ opDecc := by decide

theorem test_witness_SeedMapperIsOneFunction :
    ((running 0 2 false).resets = [] ∧ (running 0 2 false).phase = seedPhase (running 0 2 false)) ∧
    ((running 0 3 true).resets = [] ∧ (running 0 3 true).phase = seedPhase (running 0 3 true) ∧
      (running 0 3 true).status.xn = true) := by decide

theorem test_witness_MackeyIsTheFirstKeystream : (seeded 0 6 0 0).eph.ctr = 0 ∧ (seeded 0 6 0 0).eph.off = 0 := by decide

theorem test_witness_SizechkFailsExactlyAboveTheBound :
    (274877906880#64).toNat ≤ 2 ^ 38 - 64 ∧ 2 ^ 38 - 64 < (274877906881#64).toNat ∧
    ¬ 2 ^ 38 - 64 < (274877906880#64).toNat := by decide

/-- A message of two bytes at the very top of the data space, its associated data before it. -/
def atTop (op : BitVec 2) (phase : BitVec 5) : State :=
  { seeded op phase 1 0 with
    bufAddr := 0xfffffffffffffffe, bufLen := 2, aadAddr := 0xfffffffffffffffd, aadLen := 1
    eph := { (seeded op phase 1 0).eph with mlen := 2 } }

theorem test_witness_AbsaadAbsorbsThePaddedAad :
    PortOpen (atTop 0 9) (atTop 0 9).aadAddr.toNat (atTop 0 9).aadLen.toNat ∧ PortOpen State.reset 0 0 := by decide

theorem test_witness_AbsbufAbsorbsThePaddedBuffer :
    PortOpen (atTop 0 0x0b) (atTop 0 0x0b).bufAddr.toNat (atTop 0 0x0b).eph.mlen.toNat := by decide

theorem test_witness_XorAppliesTheKeystream :
    Memory.wf (atTop 0 0x0a).mem = true ∧ PortOpen (atTop 0 0x0a) (atTop 0 0x0a).bufAddr.toNat (atTop 0 0x0a).eph.mlen.toNat ∧
    (atTop 0 0x0a).eph.ctr = 1 ∧ (atTop 0 0x0a).eph.off = 0 := by decide

theorem test_witness_XorTwiceRestoresTheMemory :
    ∃ s t u : State, Memory.wf s.mem = true ∧ s.eph.mlen = 2 ∧ exec .xor s = .next t ∧
      exec .xor { t with eph := s.eph } = .next u :=
  ⟨atTop 0 0x0a, _, _, by decide, by decide,
    withPort_open (s := atTop 0 0x0a) (by decide), withPort_open (fun i hi => by
      rw [portKind_congr (s := atTop 0 0x0a) (by rw [xorBytes_frame])]
      revert i
      rw [xorBytes_frame]
      decide)⟩

theorem test_witness_CmpDecidesEqualityOfTheTags :
    0 < 8 ∧ 7 < 8 ∧ (running 1 0x0e false).eph.etag = (running 1 0x0e false).eph.ctag ∧
    (let s := { running 1 0x0e false with eph := { Eph.reset with etag := keyBytes.slice 0 16 } }; s.eph.etag ≠ s.eph.ctag) := by
  decide

theorem test_witness_TagoutDeliversTheTag :
    (running 0 0x0f false).op = opEnc ∧ (running 2 0x0f false).op ≠ opEnc ∧
    (let s := { running 2 0x0f false with bufAddr := 0xffffffffffffffef, eph := { Eph.reset with mlen := 1 } };
      Memory.wf s.mem = true ∧ PortOpen s (s.bufAddr.toNat + s.eph.mlen.toNat) 16) := by decide

/-- The first address of two, and the second, the one that stops. -/
theorem test_witness_MicroOperationsCompleteExactlyWhenAdmitted :
    Instr.absaad.format = .uop ∧ PortOpen (atTop 0 9) (accesses .absaad (atTop 0 9)).1 (accesses .absaad (atTop 0 9)).2 ∧
    FirstStop { running 0 9 false with aadLen := 2, memMap := [⟨0, 1, .ordinary⟩] } 0 2 .absent ∧
    FirstStop { running 0 9 false with aadLen := 2, memMap := [⟨0, 1, .sideEffect⟩] } 0 2 .sideEffect :=
  ⟨rfl, by decide, ⟨by decide, 1, by decide, by decide, by decide⟩, ⟨by decide, 0, by decide, by decide, by decide⟩⟩

theorem test_witness_NoInstructionWritesTheOperandAddresses : ∃ t, exec .retok (running 0 0x10 false) = .next t := ⟨_, rfl⟩

/-- A finished command whose every register differs from what its return leaves. -/
def full : State :=
  { running 2 0x10 false with
    nonce := nonceBytes, eph := { Eph.reset with mlen := 4, mackey := keyBytes, etag := keyBytes.slice 0 16, ctag := keyBytes.slice 0 16 } }

/-- The same with nothing in the ephemeral state at its reset value. -/
def stirred : State :=
  { full with
    eph := {
      seedKey := keyBytes, seedNonce := keyBytes.slice 1 12, ctr := 1, off := 1, salt := keyBytes.slice 1 16, inner := keyBytes.slice 1 8
      subkey := keyBytes, scratch := keyBytes, mackey := keyBytes, macmsg := [1], mlen := 4, etag := keyBytes.slice 1 16
      ctag := keyBytes.slice 1 16, diff := 1, eq := 1 } }

/-- Each antecedent of the frame, by an instruction that writes the register. -/
theorem test_witness_RegistersAreWrittenOnlyByTheirWriters :
    (∃ t, exec .retok stirred = .next t ∧ t.resLen ≠ stirred.resLen ∧ t.nonce ≠ stirred.nonce ∧ t.phase ≠ stirred.phase ∧
      t.status.done ≠ stirred.status.done ∧
      t.eph.seedKey ≠ stirred.eph.seedKey ∧ t.eph.seedNonce ≠ stirred.eph.seedNonce ∧ t.eph.ctr ≠ stirred.eph.ctr ∧
      t.eph.off ≠ stirred.eph.off ∧ t.eph.salt ≠ stirred.eph.salt ∧ t.eph.inner ≠ stirred.eph.inner ∧
      t.eph.subkey ≠ stirred.eph.subkey ∧ t.eph.scratch ≠ stirred.eph.scratch ∧ t.eph.mackey ≠ stirred.eph.mackey ∧
      t.eph.macmsg ≠ stirred.eph.macmsg ∧ t.eph.mlen ≠ stirred.eph.mlen ∧ t.eph.etag ≠ stirred.eph.etag ∧
      t.eph.ctag ≠ stirred.eph.ctag ∧ t.eph.diff ≠ stirred.eph.diff ∧ t.eph.eq ≠ stirred.eph.eq) ∧
    (∃ t, exec .retfail full = .next t ∧ t.status.fail ≠ full.status.fail) ∧
    (∃ t, exec .tagout { full with op := 0 } = .next t ∧ t.tag ≠ full.tag) ∧
    (∃ t, exec .zeroize { full with status := ⟨true, true, false, false, true⟩, keyin := keyBytes } = .next t ∧
      t.key ≠ full.key ∧ t.keyin ≠ keyBytes ∧ t.status.kv = false ∧ t.status.xn = false ∧ t.status.cmderr = false) ∧
    (∃ t, exec .dec full = .next t ∧ t.op ≠ full.op ∧ t.phase ≠ full.phase) ∧
    (∃ t, exec .dec { full with status := ⟨false, false, true, false, false⟩ } = .next t ∧ t.status.done = false) ∧
    (∃ t, exec .start { full with cause := 3 } = .next t ∧ t.cause ≠ 3) :=
  ⟨⟨_, rfl, by decide⟩, ⟨_, rfl, by decide⟩, ⟨_, rfl, by decide⟩, ⟨_, rfl, by decide⟩, ⟨_, rfl, by decide⟩, ⟨_, rfl, by decide⟩,
    ⟨_, rfl, by decide⟩⟩

theorem test_witness_MemoryIsWrittenOnlyByXorTagoutAndHost :
    (∃ t, exec .retok full = .next t) ∧
    (∃ t, exec .tagout full = .next t ∧ t.mem ≠ full.mem ∧ ¬ InRange (accesses .tagout full).1 (accesses .tagout full).2 0 ∧
      ¬ InRange (accesses .tagout full).1 (accesses .tagout full).2 20) ∧
    (∃ t, step { State.reset with hostQ := [.mem 0xffffffffffffffff [1]] } = .next t ∧ t.mem ≠ []) ∧
    (State.reset.resets = [] ∧ State.reset.phase = uIdle ∧ Memory.wf State.reset.mem = true ∧
      PortOpen State.reset (0xffffffffffffffff#64).toNat [(1 : Byte)].length) :=
  ⟨⟨_, rfl⟩, ⟨_, rfl, by decide⟩, ⟨_, rfl, by decide⟩, by decide⟩

/-- A host store past the end of the data space, and one on a device, stop. -/
theorem test_host_store_stops :
    step { State.reset with hostQ := [.mem 0xffffffffffffffff [1, 2]] } = .fault .unadmittedAddress ∧
    step { State.reset with memMap := [⟨8, 4, .sideEffect⟩, ⟨0, 16, .ordinary⟩], hostQ := [.mem 7 [1, 2]] } =
      .refused .sideEffectAddress := ⟨rfl, rfl⟩

theorem test_witness_PhaseFollowsTheSuccessorRelation :
    ∃ t, (running 3 1 false).resets = [] ∧ (running 3 1 false).phase ≠ uIdle ∧ step (running 3 1 false) = .next t ∧
      t.phase = uRetfail := ⟨_, rfl, by decide, rfl, rfl⟩

/-- A decryption whose comparator has found the tags equal, and one still at its start: both meet the invariant. -/
theorem test_witness_DecryptionWritesOnlyVerifiedPlaintext :
    (let s := { seeded 1 0x0a 1 0 with eph := { (seeded 1 0x0a 1 0).eph with eq := 1 } }
     ∃ t, Invariant s ∧ s.resets.head? ≠ some 0 ∧ s.phase ≠ uIdle ∧ isEnc s.op = false ∧ step s = .next t ∧ s.phase = uXor) ∧
    (∃ t, Invariant (running 1 1 false) ∧ (running 1 1 false).resets.head? ≠ some 0 ∧ (running 1 1 false).phase ≠ uIdle ∧
      isEnc (running 1 1 false).op = false ∧ step (running 1 1 false) = .next t ∧ (running 1 1 false).phase ≠ uXor) := by
  refine ⟨⟨_, ?_, by decide, by decide, by decide, rfl, by decide⟩, ⟨_, ?_, by decide, by decide, by decide, rfl, by decide⟩⟩
  · exact ⟨by decide, by decide, by decide, ⟨by decide, by decide, by decide, by decide⟩, by decide, by decide, by decide,
      ⟨by decide, by decide, by decide, by decide, by decide, by decide, by decide, by decide, by decide, by decide, by decide,
        by decide, by decide, by decide⟩⟩
  · exact ⟨by decide, by decide, by decide, ⟨by decide, by decide, by decide, by decide⟩, by decide, by decide, by decide,
      ⟨by decide, by decide, by decide, by decide, by decide, by decide, by decide, by decide, by decide, by decide, by decide,
        by decide, by decide, by decide⟩⟩

theorem test_witness_EveryStepKeepsTheInvariant : ∃ t, Invariant (running 0 1 true) ∧ step (running 0 1 true) = .next t :=
  ⟨_, ⟨by decide, by decide, by decide, ⟨by decide, by decide, by decide, by decide⟩, by decide, by decide, by decide,
      ⟨by decide, by decide, by decide, by decide, by decide, by decide, by decide, by decide, by decide, by decide, by decide,
        by decide, by decide, by decide⟩⟩, rfl⟩

theorem test_witness_MacInputBindsItsParts :
    ([1, 2] : List Byte).length < 2 ^ 64 ∧ ([3] : List Byte).length < 2 ^ 64 ∧
    macInput [1, 2] [3] (BitVec.ofNat 64 2) (BitVec.ofNat 64 1) = macInput [1, 2] [3] (BitVec.ofNat 64 2) (BitVec.ofNat 64 1) := by
  decide

/-- A message of one byte at 0x200, its associated data of one byte at 0x100. -/
def oneByte (xn : Bool) : State := { keyed xn with bufAddr := 0x200, bufLen := 1, aadAddr := 0x100, aadLen := 1, mem := [(0x200, 0x41)] }
/-- The same with 16 bytes more for a tag. -/
def oneByteAndTag (xn : Bool) : State := { oneByte xn with bufLen := 17 }

theorem ready_oneByte (op : BitVec 2) (xn : Bool) (h : dutyBreach op (oneByte xn) = none) : Ready op (oneByte xn) :=
  ⟨rfl, rfl, rfl, rfl, duties_of h⟩

theorem test_witness_AdmittedCommandsTerminate :
    (Instr.decc, opDecc) ∈ [(Instr.enc, opEnc), (.dec, opDec), (.encc, opEncc), (.decc, opDecc)] ∧
    Ready opDecc (oneByteAndTag true) ∧ RegionsAdmitted opDecc (oneByteAndTag true) :=
  ⟨by decide, ⟨rfl, rfl, rfl, rfl, duties_of (by decide)⟩, by decide⟩

theorem test_witness_EncEncryptsInPlace :
    Ready opEnc (oneByte true) ∧ RegionsAdmitted opEnc (oneByte true) ∧ nblk (oneByte true).bufLen.toNat < 2 ^ 32 :=
  ⟨ready_oneByte _ _ (by decide), by decide, by decide⟩

theorem test_witness_EnccAppendsTheTag :
    Ready opEncc (oneByte false) ∧ RegionsAdmitted opEncc (oneByte false) ∧ nblk (oneByte false).bufLen.toNat < 2 ^ 32 :=
  ⟨ready_oneByte _ _ (by decide), by decide, by decide⟩

/-- `DEC` of one byte, `TAG` the tag the machine will compute, or that tag with one bit flipped. -/
def decGood : State :=
  { oneByte false with tag := tagOf openPrims (seedOf (oneByte false)).1 (seedOf (oneByte false)).2 (aadBytes (oneByte false)) (message opDec (oneByte false)) }
def decBad : State := { decGood with tag := decGood.tag.set 0 (decGood.tag.get 0 ^^^ 1) }

theorem test_witness_DecryptionVerifiesThenDecrypts :
    (Instr.dec, opDec) ∈ [(Instr.dec, opDec), (.decc, opDecc)] ∧
    (Ready opDec decGood ∧ RegionsAdmitted opDec decGood ∧ nblk (messageLen opDec decGood) < 2 ^ 32 ∧
      (tagOf openPrims (seedOf decGood).1 (seedOf decGood).2 (aadBytes decGood) (message opDec decGood)).data =
        suppliedTag opDec decGood) ∧
    (Ready opDec decBad ∧ RegionsAdmitted opDec decBad ∧
      (tagOf openPrims (seedOf decBad).1 (seedOf decBad).2 (aadBytes decBad) (message opDec decBad)).data ≠
        suppliedTag opDec decBad) ∧
    (Ready opDecc (oneByteAndTag false) ∧ RegionsAdmitted opDecc (oneByteAndTag false) ∧
      16 ≤ (oneByteAndTag false).bufLen.toNat ∧ nblk (messageLen opDecc (oneByteAndTag false)) < 2 ^ 32) := by
  refine ⟨by decide, ⟨⟨rfl, rfl, rfl, rfl, duties_of (by decide)⟩, by decide, by decide, rfl⟩,
    ⟨⟨rfl, rfl, rfl, rfl, duties_of (by decide)⟩, by decide, ?_⟩,
    ⟨⟨rfl, rfl, rfl, rfl, duties_of (by decide)⟩, by decide, by decide, by decide⟩⟩
  intro h
  have h0 : decGood.tag.get 0 = (decGood.tag.set 0 (decGood.tag.get 0 ^^^ 1)).get 0 := congrArg (fun l => l.getD 0 0#8) h
  rw [Bytes.get_set _ _ _ _ (by decide), if_pos rfl] at h0
  revert h0
  generalize decGood.tag.get 0 = b
  revert b
  decide

theorem test_witness_SizeFailuresTouchNoMemoryButTheTagOfDecc :
    (let s := { keyed false with bufLen := 15 }; Ready opDecc s ∧ s.bufLen.toNat < 16) ∧
    (let s := { keyed false with bufLen := 274877906881 }; Ready opEnc s ∧ 2 ^ 32 ≤ nblk (messageLen opEnc s)) ∧
    (let s := { keyed false with bufLen := 274877906897 };
      Ready opDecc s ∧ 16 ≤ s.bufLen.toNat ∧ PortOpen s (s.bufAddr.toNat + messageLen opDecc s) 16 ∧
      2 ^ 32 ≤ nblk (messageLen opDecc s)) :=
  ⟨⟨⟨rfl, rfl, rfl, rfl, duties_of (by decide)⟩, by decide⟩, ⟨⟨rfl, rfl, rfl, rfl, duties_of (by decide)⟩, by decide⟩,
    ⟨⟨rfl, rfl, rfl, rfl, duties_of (by decide)⟩, by decide, by decide, by decide⟩⟩

theorem test_witness_FailuresAreOpaqueAndHarmless :
    ∃ s t : State, s.phase = uIdle ∧ s.status.kv = true ∧ s.resets = [] ∧ CommandRun .decc s t ∧ t.status.fail = true :=
  ⟨keyed false, _, rfl, rfl, rfl, ⟨_, rfl, rfl⟩, rfl⟩

theorem test_witness_DecUndoesEnc :
    Ready opEnc (oneByte false) ∧ RegionsAdmitted opEnc (oneByte false) ∧ nblk (oneByte false).bufLen.toNat < 2 ^ 32 :=
  ⟨ready_oneByte _ _ (by decide), by decide, by decide⟩

theorem test_witness_DeccUndoesEncc :
    Ready opEncc (oneByte true) ∧ RegionsAdmitted opEncc (oneByte true) ∧ nblk (oneByte true).bufLen.toNat < 2 ^ 32 :=
  ⟨ready_oneByte _ _ (by decide), by decide, by decide⟩

/-- An encryption of the empty message in the extended form, run to its end. -/
theorem test_witness_ExtendedFormIsStandardUnderTheSubkey :
    ∃ t, Instr.enc ∈ [Instr.enc, .dec, .encc, .decc] ∧ (keyed true).phase = uIdle ∧ (keyed true).status.kv = true ∧
      (keyed true).status.xn = true ∧ (keyed true).resets = [] ∧ CommandRun .enc (keyed true) t :=
  ⟨_, by decide, rfl, rfl, rfl, rfl, ⟨_, rfl, rfl⟩⟩

theorem test_witness_StandardFormIgnoresTheNonceTail :
    (running 0 1 false).phase = uStart ∧ (running 0 1 false).status.xn = false ∧ (running 0 1 false).resets = [] ∧
    (Bytes.ofList 24 (zeros 12 ++ List.replicate 12 0xff)).data.take 12 = (running 0 1 false).nonce.data.take 12 := by decide

end Sys2Proof.Tests
end

section
/-! Proofs of the statements about the scope of the machine (00_scope.md): the helpers of rule R9, and what one step runs
(rule R14). -/

namespace Sys2Proof.Machine

/-! The helpers of rule R9; `pad16_aligns`, `le64_length` and `le64_getD` say the rest. -/

theorem pad16_lt (n : Nat) : pad16 n < 16 := by rw [pad16_eq]; exact Nat.mod_lt _ (by decide)

/-- The blocks hold all `n` bytes. -/
theorem le_nblk_mul (n : Nat) : n ≤ nblk n * 64 := by rw [nblk_eq]; omega

/-- One block fewer would not hold them. -/
theorem nblk_mul_lt (n : Nat) : nblk n * 64 < n + 64 := by rw [nblk_eq]; omega

/-- Settles O49, each helper by its own lemmas. -/
theorem arithmeticHelpersAreAsDefined : Obligations.ArithmeticHelpersAreAsDefined :=
  ⟨fun n => ⟨pad16_aligns n, pad16_lt n⟩,
   fun n => ⟨nblk_mul_lt n, le_nblk_mul n⟩,
   fun v => ⟨le64_length v, le64_getD v⟩⟩

/-! The fetch of a micro-operation (rules R29, R86 and R87). -/

theorem microStep_of_decodeUop_ok {run : Instr → State → Result} {s : State} {i : Instr} (hi : decodeUop s.phase = .ok i) :
    microStep run s = run i s := by simp only [microStep, hi]

theorem microStep_of_decodeUop_error {run : Instr → State → Result} {s : State} {e : DecodeError}
    (he : decodeUop s.phase = .error e) : microStep run s = .refused .reservedPhase := by simp only [microStep, he]

/-- It is the sequencer's turn when `PHASE` is not `U_IDLE`, and also when the host has nothing to do (assumption 4). -/
theorem step_eq_microStep {s : State} (hr : s.resets = []) (hs : s.phase ≠ uIdle ∨ s.hostQ = []) :
    step s = microStep exec s := by
  by_cases hp : s.phase = uIdle
  · have hq : s.hostQ = [] := hs.resolve_left (not_not_intro hp)
    simp only [step, stepWith, hr, agentStep, if_pos hp, hq]
  · simp only [step, stepWith, hr, agentStep, if_neg hp]

/-- Settles O5: such a step is the fetch by `PHASE`. -/
theorem stepRunsTheMicroOperationOfPhase : Obligations.StepRunsTheMicroOperationOfPhase := by
  intro s hr hs
  rw [step_eq_microStep hr hs]
  exact ⟨fun _ hi => microStep_of_decodeUop_ok hi, fun _ he => microStep_of_decodeUop_error he⟩

/-! The issue of a command (rules R31, R82 and R208). -/

theorem issue_of_decodeCmd_ok {run : Instr → State → Result} {w : BitVec 32} {s : State} {i : Instr}
    (hi : decodeCmd w = .ok i) : issue run w s = run i s := by simp only [issue, hi]

theorem issue_of_decodeCmd_error {run : Instr → State → Result} {w : BitVec 32} {s : State} {e : DecodeError}
    (he : decodeCmd w = .error e) : issue run w s = .next (reject s) := by simp only [issue, he]

/-- A 32-bit write to `CMD` is an access the window admits (rule R65), and the issue of its word. -/
theorem hostAct_write_cmd (run : Instr → State → Result) (w : BitVec 32) (s : State) :
    hostAct run (.write .word 0x00 w) s = issue run w s := by
  have hok : regAccessOk .word 0x00 = true := by decide
  simp only [hostAct, hok, Bool.not_true, Bool.false_eq_true, if_false, if_true]

/-- Settles O6: such a step is the issue of `w` in the state without that action. -/
theorem stepRunsTheIssuedCommand : Obligations.StepRunsTheIssuedCommand := by
  intro s w rest hr hp hq
  rw [step_host hr hp hq, hostAct_write_cmd]
  exact ⟨fun _ hi => issue_of_decodeCmd_ok hi, fun _ he => issue_of_decodeCmd_error he⟩

end Sys2Proof.Machine
end

section
/-! Proofs of the statements about the state (10_state.md): what a reset finds in the memory (rule R226), and the invariant, which
every step keeps. -/

namespace Sys2Proof.Machine

/-! Writes through the open port keep the memory in canonical form. -/

theorem xorBytes_wf_of_portOpen (P : Prims) {s : State} {a n : Nat} (h : Memory.wf s.mem = true) (ho : PortOpen s a n) :
    Memory.wf (xorBytes P n a s).mem = true := by
  rcases Nat.eq_zero_or_pos n with h0 | h0
  · exact xorBytes_wf P n a s h (.inl h0)
  · exact xorBytes_wf P n a s h (.inr (portOpen_fits ho h0))

theorem writeRange_wf_of_portOpen {s : State} {a : Nat} {l : List Byte} (h : Memory.wf s.mem = true)
    (ho : PortOpen s a l.length) : Memory.wf (Mem.writeRange s.mem a l) = true := by
  cases l with
  | nil => exact h
  | cons v rest => exact writeRange_wf h (portOpen_fits ho (Nat.succ_pos _))

/-! What a reset finds in the memory (rule R226). -/

/-- The part of an access that is done when the reset arrives is open. -/
theorem portOpen_interrupted (s : State) (a n k : Nat) :
    k % (openRun s a n + 1) ≤ n ∧ PortOpen s a (k % (openRun s a n + 1)) := by
  obtain ⟨hle, hopen⟩ := openRun_open s a n
  have hk : k % (openRun s a n + 1) ≤ openRun s a n := Nat.le_of_lt_succ (Nat.mod_lt _ (Nat.succ_pos _))
  exact ⟨Nat.le_trans hk hle, portOpen_mono hopen hk⟩

/-- Everything a reset can leave of the memory: the first `n` bytes of an interrupted `XOR` or combined `TAGOUT` done, else the
memory as it was. -/
theorem interruptedMem_cases (P : Prims) (k : Nat) (s : State) :
    (s.phase = uXor ∧ ∃ n ≤ s.eph.mlen.toNat, PortOpen s s.bufAddr.toNat n ∧
      interruptedMem P k s = (xorBytes P n s.bufAddr.toNat s).mem) ∨
    ((s.phase = uTagout ∧ s.op ≠ opEnc) ∧ ∃ n ≤ 16, PortOpen s (s.bufAddr.toNat + s.eph.mlen.toNat) n ∧
      interruptedMem P k s = Mem.writeRange s.mem (s.bufAddr.toNat + s.eph.mlen.toNat) (s.eph.etag.data.take n)) ∨
    (s.phase ≠ uXor ∧ ¬ (s.phase = uTagout ∧ s.op ≠ opEnc) ∧ interruptedMem P k s = s.mem) := by
  unfold interruptedMem
  split_ifs with hx ht
  · obtain ⟨hn, ho⟩ := portOpen_interrupted s s.bufAddr.toNat s.eph.mlen.toNat k
    exact .inl ⟨hx, _, hn, ho, rfl⟩
  · obtain ⟨hn, ho⟩ := portOpen_interrupted s (s.bufAddr.toNat + s.eph.mlen.toNat) 16 k
    exact .inr (.inl ⟨ht, _, hn, ho, rfl⟩)
  · exact .inr (.inr ⟨hx, ht, rfl⟩)

theorem interruptedMem_wf (P : Prims) (k : Nat) {s : State} (h : Memory.wf s.mem = true) :
    Memory.wf (interruptedMem P k s) = true := by
  rcases interruptedMem_cases P k s with ⟨-, n, -, ho, hm⟩ | ⟨-, n, hn, ho, hm⟩ | ⟨-, -, hm⟩
  · rw [hm]; exact xorBytes_wf_of_portOpen P h ho
  · have hl : (s.eph.etag.data.take n).length = n := by simp [hn]
    rw [hm]; exact writeRange_wf_of_portOpen h (by rw [hl]; exact ho)
  · rw [hm]; exact h

/-! The invariant by phase: a command past `START` says which facts hold at which micro-operation, an idle sequencer says few. -/

/-- What the invariant says at `PHASE = c` in particular, past `START`. -/
def PhaseFacts (s : State) (c : BitVec 5) : Prop :=
  if c = uSeeds then s.status.xn = false
  else if c = uSplit ∨ c = uDerive ∨ c = uSeedx then s.status.xn = true
  else if c = uMackey then position s.eph = 0
  else if c = uSkip then position s.eph = 32 ∧ s.eph.macmsg = []
  else if c = uSizechk then position s.eph = 64 ∧ s.eph.macmsg = []
  else if c = uRetfail then True
  else nblk s.eph.mlen.toNat < 2 ^ 32 ∧
    if c = uAbsaad then position s.eph = 64 ∧ s.eph.macmsg = []
    else if c = uXor then position s.eph = 64 ∧ (isEnc s.op = false → s.eph.eq = 1 ∧ s.eph.etag = s.eph.ctag)
    else if c = uCmp then position s.eph = 64 ∧ isEnc s.op = false
    else if c = uTagout then isEnc s.op = true
    else c ≠ uRetok → isEnc s.op = false → position s.eph = 64

/-- The invariant of a command past `START`. -/
structure Active (s : State) : Prop where
  started : uStart < s.phase
  legal : s.phase ≤ uRetfail
  mem : Memory.wf s.mem = true
  status : s.status = ⟨true, s.status.xn, false, false, false⟩
  cause : s.cause ≠ causeNone ↔ s.phase = uRetfail
  scratch : s.eph.scratch = Bytes.zero 32
  macmsg : s.eph.macmsg.length % 16 = 0
  facts : PhaseFacts s s.phase

theorem Active.factsAt {s : State} {c : BitVec 5} (h : Active s) (hc : s.phase = c) : PhaseFacts s c := hc ▸ h.facts

theorem PhaseFacts.sized {s : State} {c : BitVec 5} (h : PhaseFacts s c) (h1 : uAbsaad ≤ c) (h2 : c ≠ uRetfail) :
    nblk s.eph.mlen.toNat < 2 ^ 32 := by
  unfold PhaseFacts at h
  rw [if_neg (by bv_omega), if_neg (by bv_omega), if_neg (by bv_omega), if_neg (by bv_omega), if_neg (by bv_omega),
    if_neg h2] at h
  exact h.1

theorem Active.running {s : State} (h : Active s) : Running s where
  key _ := by rw [h.status]; exact ⟨rfl, rfl⟩
  cleared _ _ := by rw [h.status]; exact ⟨rfl, rfl⟩
  cause _ _ := h.cause
  standard hp := h.factsAt hp
  extended hp := by rcases hp with hp | hp | hp <;> exact h.factsAt hp
  startPos hp := h.factsAt hp
  macPos hp := (h.factsAt hp).1
  xorPos hp := by
    rcases hp with hp | hp | hp
    · exact (h.factsAt hp).1
    · exact (h.factsAt hp).2.1
    · exact (h.factsAt hp).2.1
  decPos ho hp := by
    rcases hp with hp | hp | hp | hp
    · exact (h.factsAt hp).2 (by decide) ho
    · exact (h.factsAt hp).2 (by decide) ho
    · exact (h.factsAt hp).2 (by decide) ho
    · exact (h.factsAt hp).2.1
  sized h1 h2 := h.facts.sized h1 h2
  macEmpty hp := by
    rcases hp with hp | hp | hp
    · exact (h.factsAt hp).2
    · exact (h.factsAt hp).2
    · exact (h.factsAt hp).2.2
  verified hp ho := (h.factsAt hp).2.2 ho
  cmpDec hp := (h.factsAt hp).2.2
  tagoutEnc hp := (h.factsAt hp).2

theorem Active.invariant {s : State} (h : Active s) : Invariant s where
  mem := h.mem
  phase := h.legal
  idle hp := by have := h.started; rw [hp] at this; exact absurd this (by decide)
  status := by rw [h.status]; exact ⟨by simp, by simp, by simp, fun _ => rfl⟩
  key hk := by rw [h.status] at hk; cases hk
  scratch := h.scratch
  macmsg := h.macmsg
  running := h.running

theorem Running.facts {s : State} (h : Running s) (h1 : uStart < s.phase) (h2 : s.phase ≤ uRetfail) :
    PhaseFacts s s.phase := by
  unfold PhaseFacts
  split_ifs with hseeds hext hmackey hskip hsize hfail haad hxor hcmp htag
  · exact h.standard hseeds
  · exact h.extended hext
  · exact h.startPos hmackey
  · exact ⟨h.macPos hskip, h.macEmpty (.inl hskip)⟩
  · exact ⟨h.xorPos (.inl hsize), h.macEmpty (.inr (.inl hsize))⟩
  · exact ⟨h.sized (by bv_omega) hfail, h.xorPos (.inr (.inl haad)), h.macEmpty (.inr (.inr haad))⟩
  · exact ⟨h.sized (by bv_omega) hfail, h.xorPos (.inr (.inr hxor)), h.verified hxor⟩
  · exact ⟨h.sized (by bv_omega) hfail, h.decPos (h.cmpDec hcmp) (.inr (.inr (.inr hcmp))), h.cmpDec hcmp⟩
  · exact ⟨h.sized (by bv_omega) hfail, h.tagoutEnc htag⟩
  · exact ⟨h.sized (by bv_omega) hfail, fun hok ho => h.decPos ho (by bv_omega)⟩

theorem Invariant.active {s : State} (h : Invariant s) (hs : uStart < s.phase) : Active s where
  started := hs
  legal := h.phase
  mem := h.mem
  status := by
    obtain ⟨hkv, herr⟩ := h.running.key (by bv_omega)
    obtain ⟨hdone, hfail⟩ := h.running.cleared (by bv_omega) (by bv_omega)
    calc s.status = ⟨s.status.kv, s.status.xn, s.status.done, s.status.fail, s.status.cmderr⟩ := rfl
      _ = ⟨true, s.status.xn, false, false, false⟩ := by rw [hkv, hdone, hfail, herr]
  cause := h.running.cause (by bv_omega) (by bv_omega)
  scratch := h.scratch
  macmsg := h.macmsg
  facts := h.running.facts hs h.phase

/-- Past `START` a command goes on from `c` to `c'` without failing. -/
theorem Active.advance {s t : State} {c c' : BitVec 5} (h : Active s) (hp : s.phase = c) (hp' : t.phase = c')
    (hc : c ≠ uRetfail ∧ uStart < c' ∧ c' < uRetfail) (hst : t.status = s.status) (hca : t.cause = s.cause)
    (hm : Memory.wf t.mem = true) (hscr : t.eph.scratch = Bytes.zero 32) (hmac : t.eph.macmsg.length % 16 = 0)
    (hf : PhaseFacts t c') : Active t where
  started := by rw [hp']; exact hc.2.1
  legal := by rw [hp']; exact BitVec.le_of_lt hc.2.2
  mem := hm
  status := by rw [hst]; exact h.status
  cause := by
    rw [hca, h.cause, hp, hp']
    exact iff_of_false hc.1 (BitVec.ne_of_lt hc.2.2)
  scratch := hscr
  macmsg := hmac
  facts := by rw [hp']; exact hf

/-- A failure past `START` (rule R203). -/
theorem Active.fail {s t : State} (h : Active s) (hp : t.phase = uRetfail) (hc : t.cause ≠ causeNone)
    (hst : t.status = s.status) (hm : t.mem = s.mem) (hscr : t.eph.scratch = s.eph.scratch)
    (hmac : t.eph.macmsg = s.eph.macmsg) : Active t where
  started := by rw [hp]; decide
  legal := by rw [hp]; decide
  mem := by rw [hm]; exact h.mem
  status := by rw [hst]; exact h.status
  cause := iff_of_true hc hp
  scratch := by rw [hscr]; exact h.scratch
  macmsg := by rw [hmac]; exact h.macmsg
  facts := by rw [hp]; trivial

/-! The micro-operations past `START`, each from the facts at its phase to those at the next. -/

theorem execSeeds_active {s t : State} (h : Active s) (hp : s.phase = uSeeds) (ht : execSeeds s = .next t) : Active t := by
  injection ht with ht; subst ht
  exact h.advance (c' := uMackey) hp rfl (by decide) rfl rfl h.mem h.scratch h.macmsg rfl

theorem execSplit_active {s t : State} (h : Active s) (hp : s.phase = uSplit) (ht : execSplit s = .next t) : Active t := by
  have hx : s.status.xn = true := h.factsAt hp
  injection ht with ht; subst ht
  exact h.advance (c' := uDerive) hp rfl (by decide) rfl rfl h.mem h.scratch h.macmsg hx

theorem execDerive_active {s t : State} (h : Active s) (hp : s.phase = uDerive) (ht : execDerive s = .next t) : Active t := by
  have hx : s.status.xn = true := h.factsAt hp
  injection ht with ht; subst ht
  exact h.advance (c' := uSeedx) hp rfl (by decide) rfl rfl h.mem h.scratch h.macmsg hx

theorem execSeedx_active {s t : State} (h : Active s) (hp : s.phase = uSeedx) (ht : execSeedx s = .next t) : Active t := by
  injection ht with ht; subst ht
  exact h.advance (c' := uMackey) hp rfl (by decide) rfl rfl h.mem h.scratch h.macmsg rfl

theorem execMackey_active {s t : State} (h : Active s) (hp : s.phase = uMackey) (ht : execMackey s = .next t) : Active t := by
  rw [execMackey_start (h.factsAt hp)] at ht
  injection ht with ht; subst ht
  exact h.advance (c' := uSkip) hp rfl (by decide) rfl rfl h.mem rfl rfl ⟨rfl, rfl⟩

theorem execSkip_active {s t : State} (h : Active s) (hp : s.phase = uSkip) (ht : execSkip s = .next t) : Active t := by
  injection ht with ht; subst ht
  exact h.advance (c' := uSizechk) hp rfl (by decide) rfl rfl h.mem h.scratch h.macmsg ⟨rfl, (h.factsAt hp).2⟩

theorem execSizechk_active {s t : State} (h : Active s) (hp : s.phase = uSizechk) (ht : execSizechk s = .next t) : Active t := by
  by_cases hn : nblk s.eph.mlen.toNat < 2 ^ 32
  · rw [execSizechk_pass hn] at ht
    injection ht with ht; subst ht
    exact h.advance (c' := uAbsaad) hp rfl (by decide) rfl rfl h.mem h.scratch h.macmsg ⟨hn, h.factsAt hp⟩
  · rw [execSizechk_fail (by omega)] at ht
    injection ht with ht; subst ht
    exact h.fail rfl (by simp) rfl rfl rfl rfl

theorem execAbsaad_active {s t : State} (h : Active s) (hp : s.phase = uAbsaad) (ht : execAbsaad s = .next t) : Active t := by
  obtain ⟨hn, hpos, -⟩ := h.factsAt hp
  obtain ⟨-, ht⟩ := withPort_next ht
  injection ht with ht; subst ht
  have hmac := absorbPadded_aligned (Mem.readRange s.mem s.aadAddr.toNat s.aadLen.toNat) s.eph h.macmsg
  cases ho : isEnc s.op with
  | true =>
    exact h.advance (c' := uXor) hp rfl (by decide) rfl rfl h.mem h.scratch hmac
      ⟨hn, hpos, fun hd => absurd (ho.symm.trans hd) (by decide)⟩
  | false =>
    exact h.advance (c' := uAbsbuf) hp rfl (by decide) rfl rfl h.mem h.scratch hmac ⟨hn, fun _ _ => hpos⟩

theorem execXor_active {s t : State} (h : Active s) (hp : s.phase = uXor) (ht : execXor s = .next t) : Active t := by
  obtain ⟨hn, hpos, -⟩ := h.factsAt hp
  obtain ⟨hopen, ht⟩ := withPort_next ht
  rw [xorBytes_frame] at ht
  injection ht with ht; subst ht
  have hm : Memory.wf (xorBytes openPrims s.eph.mlen.toNat s.bufAddr.toNat s).mem = true :=
    xorBytes_wf_of_portOpen _ h.mem hopen
  cases ho : isEnc s.op with
  | true =>
    exact h.advance (c' := uAbsbuf) hp rfl (by decide) rfl rfl hm h.scratch h.macmsg
      ⟨hn, fun _ hd => absurd (ho.symm.trans hd) (by decide)⟩
  | false =>
    exact h.advance (c' := uRetok) hp rfl (by decide) rfl rfl hm h.scratch h.macmsg
      ⟨hn, fun hok => absurd rfl hok⟩

theorem execAbsbuf_active {s t : State} (h : Active s) (hp : s.phase = uAbsbuf) (ht : execAbsbuf s = .next t) : Active t := by
  obtain ⟨hn, hpos⟩ := h.factsAt hp
  obtain ⟨-, ht⟩ := withPort_next ht
  injection ht with ht; subst ht
  exact h.advance (c' := uAbslen) hp rfl (by decide) rfl rfl h.mem h.scratch (absorbPadded_aligned _ _ h.macmsg)
    ⟨hn, fun _ => hpos (by decide)⟩

theorem execAbslen_active {s t : State} (h : Active s) (hp : s.phase = uAbslen) (ht : execAbslen s = .next t) : Active t := by
  obtain ⟨hn, hpos⟩ := h.factsAt hp
  injection ht with ht; subst ht
  refine h.advance (c' := uFinal) hp rfl (by decide) rfl rfl h.mem h.scratch ?_
    ⟨hn, fun _ => hpos (by decide)⟩
  have hmac := h.macmsg
  simp only [absorb, List.length_append, le64_length]
  omega

theorem execFinal_active {s t : State} (h : Active s) (hp : s.phase = uFinal) (ht : execFinal s = .next t) : Active t := by
  obtain ⟨hn, hpos⟩ := h.factsAt hp
  injection ht with ht; subst ht
  cases ho : isEnc s.op with
  | true => exact h.advance (c' := uTagout) hp rfl (by decide) rfl rfl h.mem h.scratch h.macmsg ⟨hn, ho⟩
  | false =>
    exact h.advance (c' := uCmp) hp rfl (by decide) rfl rfl h.mem h.scratch h.macmsg
      ⟨hn, hpos (by decide) ho, ho⟩

theorem execCmp_active {s t : State} (h : Active s) (hp : s.phase = uCmp) (ht : execCmp s = .next t) : Active t := by
  obtain ⟨hn, hpos, -⟩ := h.factsAt hp
  by_cases he : s.eph.etag = s.eph.ctag
  · rw [execCmp_equal he] at ht
    injection ht with ht; subst ht
    exact h.advance (c' := uXor) hp rfl (by decide) rfl rfl h.mem h.scratch h.macmsg
      ⟨hn, hpos, fun _ => ⟨rfl, he⟩⟩
  · rw [execCmp_differ he] at ht
    injection ht with ht; subst ht
    exact h.fail rfl (by simp) rfl rfl rfl rfl

theorem execTagout_active {s t : State} (h : Active s) (hp : s.phase = uTagout) (ht : execTagout s = .next t) : Active t := by
  obtain ⟨hn, -⟩ := h.factsAt hp
  by_cases ho : s.op = opEnc
  · rw [execTagout_enc ho] at ht
    injection ht with ht; subst ht
    exact h.advance (c' := uRetok) hp rfl (by decide) rfl rfl h.mem h.scratch h.macmsg
      ⟨hn, fun hok => absurd rfl hok⟩
  · rw [execTagout_combined ho] at ht
    obtain ⟨hopen, ht⟩ := withPort_next ht
    injection ht with ht; subst ht
    have hm : Memory.wf (Mem.writeRange s.mem (s.bufAddr.toNat + s.eph.mlen.toNat) s.eph.etag.data) = true :=
      writeRange_wf_of_portOpen h.mem (by rw [s.eph.etag.len]; exact hopen)
    exact h.advance (c' := uRetok) hp rfl (by decide) rfl rfl hm h.scratch h.macmsg
      ⟨hn, fun hok => absurd rfl hok⟩

/-! `START`. -/

/-- `START` answers a next state when a whole tag could be read, or fails with `UNDERSIZE`. -/
theorem execStart_next {s t : State} (ht : execStart s = .next t) :
    s.op = opDecc ∧ s.bufLen.toNat < 16 ∨ StartOk s := by
  by_cases hl : s.op = opDecc ∧ s.bufLen.toNat < 16
  · exact .inl hl
  · refine .inr fun ho => ?_
    have hl' : 16 ≤ s.bufLen.toNat := by by_contra hn; exact hl ⟨ho, by omega⟩
    rw [execStart_decc ho hl'] at ht
    exact ⟨hl', (withPort_next ht).1⟩

/-- `START` clears the outcome and goes on to `c`. -/
theorem Invariant.start {s t : State} {c : BitVec 5} (h : Invariant s) (hp : s.phase = uStart) (hp' : t.phase = c)
    (hc : uStart < c ∧ c ≤ uRetfail) (hst : t.status = { s.status with done := false, fail := false })
    (hca : t.cause ≠ causeNone ↔ c = uRetfail) (hm : t.mem = s.mem) (hscr : t.eph.scratch = s.eph.scratch)
    (hmac : t.eph.macmsg = s.eph.macmsg) (hf : PhaseFacts t c) : Active t where
  started := by rw [hp']; exact hc.1
  legal := by rw [hp']; exact hc.2
  mem := by rw [hm]; exact h.mem
  status := by
    obtain ⟨hkv, herr⟩ := h.running.key (by rw [hp]; decide)
    simp only [hst, hkv, herr]
  cause := by rw [hp']; exact hca
  scratch := by rw [hscr]; exact h.scratch
  macmsg := by rw [hmac]; exact h.macmsg
  facts := by rw [hp']; exact hf

theorem execStart_active {s t : State} (h : Invariant s) (hp : s.phase = uStart) (ht : execStart s = .next t) : Active t := by
  rcases execStart_next ht with ⟨ho, hl⟩ | hok
  · rw [execStart_undersize ho hl] at ht
    injection ht with ht; subst ht
    exact h.start hp (c := uRetfail) rfl (by decide) rfl (by simp) rfl rfl rfl trivial
  · rw [execStart_ok hok] at ht
    injection ht with ht; subst ht
    cases hx : s.status.xn with
    | true =>
      have hs : seedPhase s = uSplit := by simp [seedPhase, hx]
      exact h.start hp (c := uSplit) hs (by decide) (by simp [hx]) (by simp) rfl rfl rfl hx
    | false =>
      have hs : seedPhase s = uSeeds := by simp [seedPhase, hx]
      exact h.start hp (c := uSeeds) hs (by decide) (by simp [hx]) (by simp) rfl rfl rfl hx

/-! The idle sequencer and the command just accepted. -/

theorem running_of_idle {s : State} (hp : s.phase = uIdle) : Running s := by
  constructor <;> simp [hp]

/-- Before the first micro-operation the invariant says nothing of the phase but that a key is loaded. -/
theorem running_of_start {s : State} (hp : s.phase = uStart) (hk : s.status.kv = true) (he : s.status.cmderr = false) :
    Running s := by
  constructor <;> simp [hp, hk, he]

theorem invariant_of_idle {s : State} (hp : s.phase = uIdle) (hm : Memory.wf s.mem = true) (he : s.eph = Eph.reset)
    (hst : StatusOk s.status) (hk : s.status.kv = false → s.key = Bytes.zero 32) : Invariant s where
  mem := hm
  phase := by rw [hp]; decide
  idle _ := he
  status := hst
  key := hk
  scratch := by rw [he]; rfl
  macmsg := by rw [he]; rfl
  running := running_of_idle hp


/-- The return of a command (rules R154 and R156). -/
theorem returnWith_invariant {s : State} (h : Active s) (len : BitVec 64) (ok : Bool) : Invariant (returnWith len ok s) := by
  refine invariant_of_idle rfl h.mem rfl ?_ ?_
  · rw [returnWith_status, h.status]
    constructor <;> simp
  · intro hk
    rw [returnWith_status, h.status] at hk
    cases hk

theorem reject_invariant {s : State} (h : Invariant s) (hp : s.phase = uIdle) : Invariant (reject s) :=
  invariant_of_idle hp h.mem (h.idle hp) ⟨by simp, by simp, by simp, h.status.variant⟩ h.key

theorem finishKeyCommand_invariant {k : Bytes 32} {kv xn : Bool} {s : State} (h : Invariant s) (hp : s.phase = uIdle)
    (hx : xn = true → kv = true) (hk : kv = false → k = Bytes.zero 32) : Invariant (finishKeyCommand k kv xn s) :=
  invariant_of_idle hp h.mem (h.idle hp) ⟨by simp, by simp, by simp, hx⟩ hk


/-- Acceptance of an AEAD command (rule R145): the idle sequencer's state, a key in it, at `START`. -/
theorem acceptAead_invariant {op : BitVec 2} {s t : State} (h : Invariant s) (hp : s.phase = uIdle)
    (ht : acceptAead op s = .next t) : Invariant t := by
  rcases acceptAead_next ht with ⟨-, rfl⟩ | ⟨hk, -, rfl⟩
  · exact reject_invariant h hp
  · have he := h.idle hp
    exact {
      mem := h.mem
      phase := by show uStart ≤ uRetfail; decide
      idle := fun hi => absurd (show uStart = uIdle from hi) (by decide)
      status := ⟨h.status.doneFail, by simp, by simp, h.status.variant⟩
      key := h.key
      scratch := h.scratch
      macmsg := h.macmsg
      running := running_of_start rfl hk rfl }

/-- A command that the idle machine runs keeps the invariant. -/
theorem exec_cmd_invariant {i : Instr} {s t : State} (h : Invariant s) (hp : s.phase = uIdle) (hi : i.format = .cmd)
    (ht : exec i s = .next t) : Invariant t := by
  cases i with
  | nop => injection ht with ht; subst ht; exact h
  | keyloadS => injection ht with ht; subst ht; exact finishKeyCommand_invariant h hp (by simp) (by simp)
  | keyloadX => injection ht with ht; subst ht; exact finishKeyCommand_invariant h hp (by simp) (by simp)
  | zeroize => injection ht with ht; subst ht; exact finishKeyCommand_invariant h hp (by simp) (by simp)
  | enc => exact acceptAead_invariant h hp ht
  | dec => exact acceptAead_invariant h hp ht
  | encc => exact acceptAead_invariant h hp ht
  | decc => exact acceptAead_invariant h hp ht
  | uIdle | start | seeds | split | derive | seedx | mackey | skip | sizechk | absaad | xor | absbuf | abslen | final | cmp
  | tagout | retok | retfail => cases hi

/-- The micro-operation that `PHASE` names keeps the invariant. -/
theorem exec_uop_invariant {i : Instr} {s t : State} (h : Invariant s) (hi : decodeUop s.phase = .ok i)
    (ht : exec i s = .next t) : Invariant t := by
  have hc := encodeUop_of_decodeUop hi
  have hp : ∀ c, encodeUop i = some c → s.phase = c := fun c hc' => Option.some.inj (hc.symm.trans hc')
  have ha : ∀ c, encodeUop i = some c → uStart < c → Active s := fun c hc' hlt => h.active (by rw [hp c hc']; exact hlt)
  cases i with
  | nop | keyloadS | keyloadX | zeroize | enc | dec | encc | decc => cases hc
  | uIdle => injection ht with ht; subst ht; exact h
  | start => exact (execStart_active h (hp _ rfl) ht).invariant
  | seeds => exact (execSeeds_active (ha _ rfl (by decide)) (hp _ rfl) ht).invariant
  | split => exact (execSplit_active (ha _ rfl (by decide)) (hp _ rfl) ht).invariant
  | derive => exact (execDerive_active (ha _ rfl (by decide)) (hp _ rfl) ht).invariant
  | seedx => exact (execSeedx_active (ha _ rfl (by decide)) (hp _ rfl) ht).invariant
  | mackey => exact (execMackey_active (ha _ rfl (by decide)) (hp _ rfl) ht).invariant
  | skip => exact (execSkip_active (ha _ rfl (by decide)) (hp _ rfl) ht).invariant
  | sizechk => exact (execSizechk_active (ha _ rfl (by decide)) (hp _ rfl) ht).invariant
  | absaad => exact (execAbsaad_active (ha _ rfl (by decide)) (hp _ rfl) ht).invariant
  | xor => exact (execXor_active (ha _ rfl (by decide)) (hp _ rfl) ht).invariant
  | absbuf => exact (execAbsbuf_active (ha _ rfl (by decide)) (hp _ rfl) ht).invariant
  | abslen => exact (execAbslen_active (ha _ rfl (by decide)) (hp _ rfl) ht).invariant
  | final => exact (execFinal_active (ha _ rfl (by decide)) (hp _ rfl) ht).invariant
  | cmp => exact (execCmp_active (ha _ rfl (by decide)) (hp _ rfl) ht).invariant
  | tagout => exact (execTagout_active (ha _ rfl (by decide)) (hp _ rfl) ht).invariant
  | retok => injection ht with ht; subst ht; exact returnWith_invariant (ha _ rfl (by decide)) _ _
  | retfail => injection ht with ht; subst ht; exact returnWith_invariant (ha _ rfl (by decide)) _ _

/-! The host and the platform. -/

/-- A host action at an idle sequencer keeps the invariant. -/
theorem hostAct_invariant {a : HostAct} {s t : State} (h : Invariant s) (hp : s.phase = uIdle)
    (ht : hostAct exec a s = .next t) : Invariant t := by
  rcases hostAct_cases ht with ⟨w, -, i, hi, hx⟩ | ⟨-, -, -, -, rfl⟩ | ⟨o, w, -, rfl⟩ | ⟨o, -, rfl⟩ | ⟨addr, bytes, -, ho, -, rfl⟩
  · exact exec_cmd_invariant h hp (decodeCmd_format hi) hx
  · exact reject_invariant h hp
  · rw [writeReg_frame]; exact invariant_of_idle hp h.mem (h.idle hp) h.status h.key
  · exact invariant_of_idle hp h.mem (h.idle hp) h.status h.key
  · exact invariant_of_idle hp (writeRange_wf_of_portOpen h.mem ho) (h.idle hp) h.status h.key

theorem statusOk_reset : StatusOk State.reset.status := ⟨by decide, by decide, by decide, by decide⟩

/-- The platform's reset gives the invariant, whatever the registers held (rules R47 and R226). -/
theorem platformReset_invariant {s : State} (hm : Memory.wf s.mem = true) : Invariant (platformReset s) :=
  invariant_of_idle rfl (interruptedMem_wf openPrims _ hm) rfl statusOk_reset fun _ => rfl

/-- The invariant speaks of the registers and the memory, not of the resets to come or the host's list. -/
theorem Invariant.withInputs {s : State} (h : Invariant s) (r : List Nat) (q : List HostAct) :
    Invariant { s with resets := r, hostQ := q } := { h with running := { h.running with } }

/-- The countdown changes the resets to come alone. -/
theorem resetTick_eq (s : State) : resetTick s = { s with resets := (resetTick s).resets } := by
  unfold resetTick
  split <;> rfl

/-- Settles O47. -/
theorem invariantHoldsAtReset : Obligations.InvariantHoldsAtReset :=
  invariant_of_idle rfl rfl rfl statusOk_reset fun _ => rfl

/-- Settles O48, by what a step can do: a reset, the micro-operation of `PHASE`, or a host action. -/
theorem everyStepKeepsTheInvariant : Obligations.EveryStepKeepsTheInvariant := by
  intro s t h hs
  rcases step_cases hs with ⟨-, rfl⟩ | ⟨-, -, i, hi, hx⟩ | ⟨-, hp, a, rest, -, ha⟩
  · exact platformReset_invariant h.mem
  · rw [resetTick_eq] at hx
    exact exec_uop_invariant (h.withInputs (resetTick s).resets s.hostQ) hi hx
  · rw [resetTick_eq] at ha
    exact hostAct_invariant (h.withInputs _ rest) hp ha

end Sys2Proof.Machine
end

section
/-! What an instruction can write, said once for all 26, and the frames that follow from it (10_state.md rules R22 to R46). -/

namespace Sys2Proof.Machine

/-- `Effect i s t`: the next state `t` is `s` with the registers that `i` may write replaced, whatever their new values, and `PHASE`
at the successor of rule R146. -/
inductive Effect : Instr → State → State → Prop
  | none {i s} (hi : i ∈ [Instr.nop, .uIdle]) : Effect i s s
  | key {i s} (hi : i ∈ [Instr.keyloadS, .keyloadX, .zeroize]) (key : Bytes 32) (kv xn : Bool) :
      Effect i s (finishKeyCommand key kv xn s)
  | reject {i s} (hi : i ∈ [Instr.enc, .dec, .encc, .decc]) (hk : s.status.kv = false) : Effect i s (reject s)
  | accept {i s} (hi : i ∈ [Instr.enc, .dec, .encc, .decc]) (hk : s.status.kv = true) (op : BitVec 2) :
      Effect i s { s with op := op, status := { s.status with cmderr := false }, phase := uStart }
  | undersize {s} : Effect .start s (raiseFail causeUndersize (clearOutcome s))
  | start {s} (mlen : BitVec 64) (ctag : Bytes 16) :
      Effect .start s { clearOutcome s with eph := { s.eph with mlen := mlen, ctag := ctag }, phase := seedPhase s }
  | seeds {s} (k : Bytes 32) (n : Bytes 12) (c : BitVec 32) (o : BitVec 6) :
      Effect .seeds s { s with eph := { s.eph with seedKey := k, seedNonce := n, ctr := c, off := o }, phase := uMackey }
  | split {s} (salt : Bytes 16) (inner : Bytes 8) :
      Effect .split s { s with eph := { s.eph with salt := salt, inner := inner }, phase := uDerive }
  | derive {s} (k : Bytes 32) : Effect .derive s { s with eph := { s.eph with subkey := k }, phase := uSeedx }
  | seedx {s} (k sub : Bytes 32) (n : Bytes 12) (c : BitVec 32) (o : BitVec 6) (salt : Bytes 16) (inner : Bytes 8) :
      Effect .seedx s { s with
        eph := { s.eph with seedKey := k, seedNonce := n, ctr := c, off := o, subkey := sub, salt := salt, inner := inner }
        phase := uMackey }
  | mackey {s} (p : Nat) (k z : Bytes 32) (m : List Byte) :
      Effect .mackey s { s with eph := { setPosition s.eph p with mackey := k, scratch := z, macmsg := m }, phase := uSkip }
  | skip {s} (c : BitVec 32) (o : BitVec 6) :
      Effect .skip s { s with eph := { s.eph with ctr := c, off := o }, phase := uSizechk }
  | sized {s} : Effect .sizechk s { s with phase := uAbsaad }
  | oversize {s} : Effect .sizechk s (raiseFail causeOversize s)
  | absaad {s} (m : List Byte) :
      Effect .absaad s { s with eph := { s.eph with macmsg := m }, phase := if isEnc s.op then uXor else uAbsbuf }
  | xor {s} (mem : List Host.Cell) (p : Nat) :
      Effect .xor s { s with mem := mem, eph := setPosition s.eph p, phase := if isEnc s.op then uAbsbuf else uRetok }
  | absbuf {s} (m : List Byte) : Effect .absbuf s { s with eph := { s.eph with macmsg := m }, phase := uAbslen }
  | abslen {s} (m : List Byte) : Effect .abslen s { s with eph := { s.eph with macmsg := m }, phase := uFinal }
  | final {s} (tag : Bytes 16) :
      Effect .final s { s with eph := { s.eph with etag := tag }, phase := if isEnc s.op then uTagout else uCmp }
  | equal {s} (d : BitVec 8) (e : BitVec 1) : Effect .cmp s { s with eph := { s.eph with diff := d, eq := e }, phase := uXor }
  | differ {s} (d : BitVec 8) (e : BitVec 1) :
      Effect .cmp s { s with eph := { s.eph with diff := d, eq := e }, cause := causeAuthfail, phase := uRetfail }
  | tag {s} (ho : s.op = opEnc) (tag : Bytes 16) : Effect .tagout s { s with tag := tag, phase := uRetok }
  | tagMem {s} (mem : List Host.Cell) : Effect .tagout s { s with mem := mem, phase := uRetok }
  | ret {i s} (hi : i ∈ [Instr.retok, .retfail]) (len : BitVec 64) (ok : Bool) : Effect i s (returnWith len ok s)

theorem acceptAead_effect {i : Instr} {op : BitVec 2} {s t : State} (hi : i ∈ [Instr.enc, .dec, .encc, .decc])
    (ht : acceptAead op s = .next t) : Effect i s t := by
  rcases acceptAead_next ht with ⟨hk, rfl⟩ | ⟨hk, -, rfl⟩
  · exact .reject hi hk
  · exact .accept hi hk op

theorem execStart_effect {s t : State} (ht : execStart s = .next t) : Effect .start s t := by
  rcases execStart_next ht with ⟨ho, hl⟩ | hok
  · rw [execStart_undersize ho hl] at ht
    injection ht with ht; subst ht; exact .undersize
  · rw [execStart_ok hok] at ht
    injection ht with ht; subst ht; exact .start _ _

theorem execSizechk_effect {s t : State} (ht : execSizechk s = .next t) : Effect .sizechk s t := by
  by_cases hn : nblk s.eph.mlen.toNat < 2 ^ 32
  · rw [execSizechk_pass hn] at ht
    injection ht with ht; subst ht; exact .sized
  · rw [execSizechk_fail (by omega)] at ht
    injection ht with ht; subst ht; exact .oversize

theorem execCmp_effect {s t : State} (ht : execCmp s = .next t) : Effect .cmp s t := by
  by_cases he : s.eph.etag = s.eph.ctag
  · rw [execCmp_equal he] at ht
    injection ht with ht; subst ht; exact .equal _ _
  · rw [execCmp_differ he] at ht
    injection ht with ht; subst ht; exact .differ _ _

theorem execTagout_effect {s t : State} (ht : execTagout s = .next t) : Effect .tagout s t := by
  by_cases ho : s.op = opEnc
  · rw [execTagout_enc ho] at ht
    injection ht with ht; subst ht; exact .tag ho _
  · rw [execTagout_combined ho] at ht
    obtain ⟨-, ht⟩ := withPort_next ht
    injection ht with ht; subst ht; exact .tagMem _

/-- Everything an instruction can do when it answers a next state. -/
theorem exec_effect {i : Instr} {s t : State} (ht : exec i s = .next t) : Effect i s t := by
  cases i with
  | nop => injection ht with ht; subst ht; exact .none (by decide)
  | keyloadS => injection ht with ht; subst ht; exact .key (by decide) _ _ _
  | keyloadX => injection ht with ht; subst ht; exact .key (by decide) _ _ _
  | zeroize => injection ht with ht; subst ht; exact .key (by decide) _ _ _
  | enc => exact acceptAead_effect (by decide) ht
  | dec => exact acceptAead_effect (by decide) ht
  | encc => exact acceptAead_effect (by decide) ht
  | decc => exact acceptAead_effect (by decide) ht
  | uIdle => injection ht with ht; subst ht; exact .none (by decide)
  | start => exact execStart_effect ht
  | seeds => injection ht with ht; subst ht; exact .seeds _ _ _ _
  | split => injection ht with ht; subst ht; exact .split _ _
  | derive => injection ht with ht; subst ht; exact .derive _
  | seedx => injection ht with ht; subst ht; exact .seedx _ _ _ _ _ _ _
  | mackey =>
    injection (mackeyOn_eq openPrims s).symm.trans ht with ht
    subst ht; exact .mackey _ _ _ _
  | skip => injection ht with ht; subst ht; exact .skip _ _
  | sizechk => exact execSizechk_effect ht
  | absaad =>
    obtain ⟨-, ht⟩ := withPort_next ht
    injection ht with ht; subst ht; exact .absaad _
  | xor =>
    obtain ⟨-, ht⟩ := withPort_next ht
    rw [xorBytes_frame] at ht
    injection ht with ht; subst ht; exact .xor _ _
  | absbuf =>
    obtain ⟨-, ht⟩ := withPort_next ht
    injection ht with ht; subst ht; exact .absbuf _
  | abslen => injection ht with ht; subst ht; exact .abslen _
  | final => injection ht with ht; subst ht; exact .final _
  | cmp => exact execCmp_effect ht
  | tagout => exact execTagout_effect ht
  | retok => injection ht with ht; subst ht; exact .ret (by decide) _ _
  | retfail => injection ht with ht; subst ht; exact .ret (by decide) _ _

/-- Settles O42: no effect reaches these registers. -/
theorem noInstructionWritesTheOperandAddresses : Obligations.NoInstructionWritesTheOperandAddresses := by
  intro i s t ht
  cases exec_effect ht <;> exact ⟨rfl, rfl, rfl, rfl, rfl, rfl, rfl, rfl, rfl⟩

/-- Settles O43, effect by effect. -/
theorem registersAreWrittenOnlyByTheirWriters : Obligations.RegistersAreWrittenOnlyByTheirWriters := by
  intro i s t ht
  cases exec_effect ht with
  | none hi => simp
  | key hi =>
    fin_cases hi <;> simp
  | reject hi hk => simp [hi, hk]
  | accept hi hk => simp [hi, hk]
  | ret hi =>
    fin_cases hi <;> simp [Instr.format]
  | tag ho => simp [ho, Instr.format]
  | undersize | start | seeds | split | derive | seedx | mackey | skip | sized | oversize | absaad | xor | absbuf | abslen | final
  | equal | differ | tagMem => simp [Instr.format, setPosition]

/-- Settles O21. -/
theorem idleChangesNothing : Obligations.IdleChangesNothing := fun _ => rfl

end Sys2Proof.Machine
end

section
/-! What no instruction reads: the resets to come, and `NONCE` but by the seed mapper and the returns. A step before a reset that is
not due and the reset itself (10_state.md rule R47, 70_reset_and_hazards.md rules R225 and R226), and the tail of `NONCE` in the
standard form (rule R27). -/

namespace Sys2Proof.Machine

/-- The same outcome with another next state. -/
def mapNext (f : State → State) : Result → Result
  | .next t => .next (f t)
  | .fault x => .fault x
  | .refused r => .refused r

/-- The state with another `NONCE` and other resets to come. -/
def withUnread (n : Bytes 24) (r : List Nat) (s : State) : State := { s with nonce := n, resets := r }

/-- An access under the same map, with the next state changed by `f`. -/
theorem withPort_mapNext {s t : State} {f : State → State} {a n : Nat} {k k' : Result} (hm : t.memMap = s.memMap)
    (hk : k' = mapNext f k) : withPort t a n k' = mapNext f (withPort s a n k) := by
  subst hk
  rw [withPort_congr hm]
  induction n generalizing a with
  | zero => rfl
  | succ n ih =>
    simp only [withPort, ih]
    split <;> rfl

section
variable (n : Bytes 24) (r : List Nat) (s : State)

theorem acceptAead_withUnread (op : BitVec 2) :
    acceptAead op (withUnread n r s) = mapNext (withUnread n r) (acceptAead op s) := by
  have hs : (withUnread n r s).status = s.status := rfl
  have hd : dutyBreach op (withUnread n r s) = dutyBreach op s := rfl
  simp only [acceptAead, hs, hd]
  split_ifs
  · rfl
  · cases dutyBreach op s <;> rfl

theorem execStart_withUnread : execStart (withUnread n r s) = mapNext (withUnread n r) (execStart s) := by
  by_cases ho : s.op = opDecc
  · by_cases hl : s.bufLen.toNat < 16
    · rw [execStart_undersize ho hl, execStart_undersize (s := withUnread n r s) ho hl]; rfl
    · rw [execStart_decc ho (Nat.le_of_not_lt hl), execStart_decc (s := withUnread n r s) ho (Nat.le_of_not_lt hl)]
      exact withPort_mapNext rfl rfl
  · rw [execStart_other ho, execStart_other (s := withUnread n r s) ho]; rfl

theorem execSizechk_withUnread : execSizechk (withUnread n r s) = mapNext (withUnread n r) (execSizechk s) := by
  by_cases hn : nblk s.eph.mlen.toNat < 2 ^ 32
  · rw [execSizechk_pass hn, execSizechk_pass (s := withUnread n r s) hn]; rfl
  · rw [execSizechk_fail (Nat.le_of_not_lt hn), execSizechk_fail (s := withUnread n r s) (Nat.le_of_not_lt hn)]; rfl

theorem execCmp_withUnread : execCmp (withUnread n r s) = mapNext (withUnread n r) (execCmp s) := by
  by_cases he : s.eph.etag = s.eph.ctag
  · rw [execCmp_equal he, execCmp_equal (s := withUnread n r s) he]; rfl
  · rw [execCmp_differ he, execCmp_differ (s := withUnread n r s) he]; rfl

theorem execTagout_withUnread : execTagout (withUnread n r s) = mapNext (withUnread n r) (execTagout s) := by
  by_cases ho : s.op = opEnc
  · rw [execTagout_enc ho, execTagout_enc (s := withUnread n r s) ho]; rfl
  · rw [execTagout_combined ho, execTagout_combined (s := withUnread n r s) ho]
    exact withPort_mapNext rfl rfl

theorem execMackey_withUnread : execMackey (withUnread n r s) = mapNext (withUnread n r) (execMackey s) := by
  rw [execMackey, execMackey, mackeyOn_eq, mackeyOn_eq]; rfl

theorem xorBytes_withUnread (P : Prims) (m a : Nat) :
    xorBytes P m a (withUnread n r s) = withUnread n r (xorBytes P m a s) := by
  have hm : (xorBytes P m a (withUnread n r s)).mem = (xorBytes P m a s).mem := xorBytes_mem_congr P m a rfl rfl rfl rfl
  have hf := xorBytes_frame P m a (withUnread n r s)
  rw [hm] at hf
  exact hf.trans (congrArg (withUnread n r) (xorBytes_frame P m a s)).symm

theorem execXor_withUnread : execXor (withUnread n r s) = mapNext (withUnread n r) (execXor s) :=
  withPort_mapNext rfl (by rw [xorBytes_withUnread]; rfl)

/-- But for the seed mapper and the returns no instruction reads `NONCE`, and none reads the resets to come. -/
theorem exec_withUnread (i : Instr) (hi : i ∉ [Instr.seeds, .split, .retok, .retfail]) :
    exec i (withUnread n r s) = mapNext (withUnread n r) (exec i s) := by
  cases i with
  | seeds | split | retok | retfail => exact absurd (by decide) hi
  | nop | keyloadS | keyloadX | zeroize | uIdle | derive | seedx | skip | abslen | final => rfl
  | enc | dec | encc | decc => exact acceptAead_withUnread n r s _
  | start => exact execStart_withUnread n r s
  | mackey => exact execMackey_withUnread n r s
  | sizechk => exact execSizechk_withUnread n r s
  | absaad | absbuf => exact withPort_mapNext rfl rfl
  | xor => exact execXor_withUnread n r s
  | cmp => exact execCmp_withUnread n r s
  | tagout => exact execTagout_withUnread n r s

end

/-! A step while the next reset is not due. -/

/-- The state with other resets to come. -/
def withResets (r : List Nat) (s : State) : State := { s with resets := r }

/-- No instruction but a return writes `NONCE`. -/
theorem exec_nonce {i : Instr} {s t : State} (ht : exec i s = .next t) (hi : i ∉ [Instr.retok, .retfail]) :
    t.nonce = s.nonce := by
  have hw := registersAreWrittenOnlyByTheirWriters i s t ht
  by_contra hn
  exact hi (hw.2.1 hn)

theorem exec_withResets (i : Instr) (r : List Nat) (s : State) :
    exec i (withResets r s) = mapNext (withResets r) (exec i s) := by
  by_cases hi : i ∈ [Instr.seeds, .split, .retok, .retfail]
  · fin_cases hi <;> rfl
  · refine (exec_withUnread s.nonce r s i hi).trans ?_
    cases ht : exec i s with
    | next t =>
      have hn : t.nonce = s.nonce := exec_nonce ht fun hr => hi (by simp at hr ⊢; tauto)
      simp only [mapNext, withUnread, withResets, ← hn]
    | fault f => rfl
    | refused x => rfl

theorem writeReg_withResets (r : List Nat) (s : State) (o : Nat) (w : BitVec 32) :
    writeReg (withResets r s) o w = withResets r (writeReg s o w) := by
  cases hr : hostReg o with
  | num q high => cases q <;> simp only [writeReg, hr] <;> rfl
  | nonce | tag | keyin => simp only [writeReg, hr]; rfl
  | cmd | status | reserved => simp only [writeReg, hr]

theorem issue_withResets (w : BitVec 32) (r : List Nat) (s : State) :
    issue exec w (withResets r s) = mapNext (withResets r) (issue exec w s) := by
  unfold issue
  split
  · exact exec_withResets _ r s
  · rfl

theorem hostAct_withResets (a : HostAct) (r : List Nat) (s : State) :
    hostAct exec a (withResets r s) = mapNext (withResets r) (hostAct exec a s) := by
  cases a with
  | write width o w =>
    simp only [hostAct, writeReg_withResets, issue_withResets]
    split_ifs <;> rfl
  | read width o =>
    simp only [hostAct]
    split_ifs <;> rfl
  | mem addr bytes => exact withPort_mapNext rfl rfl

theorem microStep_withResets (r : List Nat) (s : State) :
    microStep exec (withResets r s) = mapNext (withResets r) (microStep exec s) := by
  have hp : (withResets r s).phase = s.phase := rfl
  unfold microStep
  rw [hp]
  split
  · exact exec_withResets _ r s
  · rfl

theorem agentStep_withResets (r : List Nat) (s : State) :
    agentStep exec (withResets r s) = mapNext (withResets r) (agentStep exec s) := by
  have hp : (withResets r s).phase = s.phase := rfl
  have hq : (withResets r s).hostQ = s.hostQ := rfl
  unfold agentStep
  rw [hp, hq]
  split_ifs
  · split
    · exact microStep_withResets r s
    · rename_i a rest _; exact hostAct_withResets a r { s with hostQ := rest }
  · exact microStep_withResets r s

/-- With the next reset `n + 1` steps away a step is that of the state without resets, the count lowered. -/
theorem step_countdown {s : State} {n : Nat} {later : List Nat} (hr : s.resets = (n + 1) :: later) :
    step s = mapNext (withResets (n :: later)) (step { s with resets := [] }) := by
  rw [← show agentStep exec { s with resets := [] } = step { s with resets := [] } from rfl, ← agentStep_withResets]
  simp only [step, stepWith, hr]
  rfl

/-! A reset that is due. -/

/-- The bytes that an interrupted `XOR` leaves. -/
theorem read_xorBytes_of_portOpen (P : Prims) {s : State} {n : Nat} (hm : Memory.wf s.mem = true)
    (ho : PortOpen s s.bufAddr.toNat n) (a : Nat) :
    Mem.read (xorBytes P n s.bufAddr.toNat s).mem a =
      if InRange s.bufAddr.toNat n a then
        Mem.read s.mem a ^^^ ksStream P s.eph.seedKey s.eph.seedNonce (position s.eph + (a - s.bufAddr.toNat))
      else Mem.read s.mem a := by
  split_ifs with ha
  · obtain ⟨i, rfl⟩ := Nat.exists_eq_add_of_le ha.1
    have hi : i < n := by have := ha.2; omega
    rw [xorBytes_read P n _ i s hm (portOpen_fits ho (by omega)) hi, Nat.add_sub_cancel_left]
  · exact xorBytes_read_ne P n _ a s ha

/-- The bytes that a string written in part leaves. -/
theorem read_writeRange_take {s : State} {k n at_ : Nat} (b : Bytes k) (hm : Memory.wf s.mem = true) (hn : n ≤ k)
    (ho : PortOpen s at_ n) (a : Nat) :
    Mem.read (Mem.writeRange s.mem at_ (b.data.take n)) a =
      if InRange at_ n a then b.get (a - at_) else Mem.read s.mem a := by
  have hl : (b.data.take n).length = n := by simp [hn]
  split_ifs with ha
  · obtain ⟨i, rfl⟩ := Nat.exists_eq_add_of_le ha.1
    have hi : i < n := by have := ha.2; omega
    rw [read_writeRange hm (by rw [hl]; exact portOpen_fits ho (by omega)) (by rw [hl]; exact hi), Nat.add_sub_cancel_left,
      Bytes.get]
    simp [List.getD, hi]
  · exact read_writeRange_ne (by rw [hl]; exact ha)

theorem step_reset {s : State} {later : List Nat} (hr : s.resets = 0 :: later) : step s = .next (platformReset s) := by
  simp only [step, stepWith, hr]

/-- Settles O7: the countdown, and the reset itself by what it can leave of the memory. -/
theorem resetAtAnyTime : Obligations.ResetAtAnyTime := by
  refine ⟨fun s n later hr => ?_, fun s later hm hr => ⟨platformReset s, step_reset hr, ?_, ?_⟩⟩
  · rw [step_countdown hr]
    exact ⟨fun t ht => by rw [ht]; rfl, fun f hf => by rw [hf]; rfl, fun x hx => by rw [hx]; rfl⟩
  · simp only [platformReset, platformResetOn, resetRegisters, hr, List.tail_cons]
  · rcases interruptedMem_cases openPrims (Config.resetPoint s.freeCount) s with
      ⟨hx, n, hn, ho, hmem⟩ | ⟨ht, n, hn, ho, hmem⟩ | ⟨hx, ht, hmem⟩
    · refine ⟨fun h => absurd hx h, fun _ => ⟨n, hn, fun a => ?_⟩, fun h => absurd (hx.symm.trans h) (by decide)⟩
      exact (congrArg (Mem.read · a) hmem).trans (read_xorBytes_of_portOpen openPrims hm ho a)
    · refine ⟨fun _ h => absurd ht h, fun h => absurd (h.symm.trans ht.1) (by decide), fun _ _ => ⟨n, hn, fun a => ?_⟩⟩
      exact (congrArg (Mem.read · a) hmem).trans (read_writeRange_take s.eph.etag hm hn ho a)
    · exact ⟨fun _ _ => hmem, fun h => absurd h hx, fun h1 h2 => absurd ⟨h1, h2⟩ ht⟩

/-! The tail of `NONCE` in the standard form (rule R27). -/

/-- The micro-operations of a command in the standard form, in an order that every step follows (the table of rule R146). -/
def standardPath (enc : Bool) : List (BitVec 5) :=
  [uStart, uSeeds, uMackey, uSkip, uSizechk, uAbsaad] ++
    (if enc then [uXor, uAbsbuf, uAbslen, uFinal, uTagout] else [uAbsbuf, uAbslen, uFinal, uCmp, uXor]) ++ [uRetok, uRetfail]

theorem standardPath_running {enc : Bool} {c : BitVec 5} (h : c ∈ standardPath enc) :
    c ≠ uIdle ∧ c ≠ uSplit ∧ c ≤ uRetfail := by
  decide +revert

/-- A micro-operation keeps the command, the variant and the resets to come. -/
theorem Effect.uop_frame {i : Instr} {s t : State} (h : Effect i s t) (hf : i.format = .uop) :
    t.op = s.op ∧ t.status.xn = s.status.xn ∧ t.resets = s.resets := by
  cases h with
  | key hi | reject hi | accept hi => fin_cases hi <;> cases hf
  | none | undersize | start | seeds | split | derive | seedx | mackey | skip | sized | oversize | absaad | xor | absbuf | abslen
  | final | equal | differ | tag | tagMem | ret => exact ⟨rfl, rfl, rfl⟩

/-- Each micro-operation of the standard form but the returns goes on along the path. -/
theorem Effect.onPath {i : Instr} {s t : State} (h : Effect i s t) (hi : encodeUop i = some s.phase)
    (hx : s.status.xn = false) (hs : s.phase ∈ standardPath (isEnc s.op)) (hr : i ∉ [Instr.retok, .retfail]) :
    t.phase ∈ standardPath (isEnc s.op) ∧
      (standardPath (isEnc s.op)).idxOf s.phase < (standardPath (isEnc s.op)).idxOf t.phase := by
  cases h with
  | none hi' =>
    have hc : i = .uIdle := by fin_cases hi' <;> [cases hi; rfl]
    subst hc
    injection hi with hi
    rw [← hi] at hs
    exact absurd rfl (standardPath_running hs).1
  | key hi' => fin_cases hi' <;> cases hi
  | reject hi' => fin_cases hi' <;> cases hi
  | accept hi' => fin_cases hi' <;> cases hi
  | ret hi' => exact absurd hi' hr
  | start =>
    have hp : seedPhase s = uSeeds := by simp [seedPhase, hx]
    injection hi with hi
    rw [← hi, hp]
    dsimp only
    generalize isEnc s.op = enc
    revert enc; decide
  | undersize | seeds | split | derive | seedx | mackey | skip | sized | oversize | absaad | xor | absbuf | abslen | final
  | equal | differ | tag | tagMem =>
    injection hi with hi
    rw [← hi] at hs ⊢
    dsimp only [raiseFail]
    generalize isEnc s.op = enc at hs ⊢
    revert enc; decide

theorem execSeeds_withUnread {n : Bytes 24} {s : State} (r : List Nat) (hn : n.data.take 12 = s.nonce.data.take 12) :
    execSeeds (withUnread n r s) = mapNext (withUnread n r) (execSeeds s) := by
  have hs : n.slice 0 12 = s.nonce.slice 0 12 := Bytes.ext_data (by
    rw [Bytes.slice_data _ _ _ (by decide), Bytes.slice_data _ _ _ (by decide), List.drop_zero, List.drop_zero, hn])
  simp only [execSeeds, withUnread, mapNext, hs]

/-- Before the return, an instruction of the standard form reads no byte of `NONCE` from 12 on. -/
theorem exec_nonce_tail {i : Instr} {n : Bytes 24} {s : State} (r : List Nat) (hn : n.data.take 12 = s.nonce.data.take 12)
    (hs : i ≠ .split) (hr : i ∉ [Instr.retok, .retfail]) :
    exec i (withUnread n r s) = mapNext (withUnread n r) (exec i s) := by
  by_cases hi : i = .seeds
  · subst hi; exact execSeeds_withUnread r hn
  · refine exec_withUnread n r s i fun hm => ?_
    simp only [List.mem_cons, List.not_mem_nil, or_false] at hm hr
    tauto

/-- The returns clear `NONCE`, whatever it held (rule R155). -/
theorem exec_return_withUnread {i : Instr} (hi : i ∈ [Instr.retok, .retfail]) (n : Bytes 24) {s : State} (hr : s.resets = []) :
    exec i (withUnread n [] s) = exec i s := by
  have hs : withUnread n [] s = { s with nonce := n } := by rw [withUnread, ← hr]
  rw [hs]
  fin_cases hi <;> rfl

/-- A command of the standard form, from any of its micro-operations to its end. -/
theorem untilIdle_nonce_tail {k : Nat} {n : Bytes 24} {s : State} (hr : s.resets = []) (hx : s.status.xn = false)
    (hs : s.phase ∈ standardPath (isEnc s.op)) (hn : n.data.take 12 = s.nonce.data.take 12)
    (hk : (standardPath (isEnc s.op)).length ≤ (standardPath (isEnc s.op)).idxOf s.phase + k) :
    untilIdle step k (withUnread n [] s) = untilIdle step k s := by
  induction k generalizing s with
  | zero => have := List.idxOf_lt_length_iff.mpr hs; omega
  | succ k ih =>
    obtain ⟨hp, hsplit, hle⟩ := standardPath_running hs
    obtain ⟨i, hi⟩ := decodeUop_legal s.phase hle
    have hc := encodeUop_of_decodeUop hi
    have hne : i ≠ .split := by rintro rfl; exact hsplit (Option.some.inj hc).symm
    simp only [untilIdle, if_neg hp, step_running hr hp hi,
      step_running (s := withUnread n [] s) rfl hp hi, show (withUnread n [] s).phase = s.phase from rfl]
    by_cases hret : i ∈ [Instr.retok, .retfail]
    · rw [exec_return_withUnread hret n hr]
    · rw [exec_nonce_tail [] hn hne hret]
      cases ht : exec i s with
      | fault f => rfl
      | refused x => rfl
      | next t =>
        obtain ⟨hop, hxn, hres⟩ := (exec_effect ht).uop_frame (decodeUop_format hi)
        obtain ⟨hpath, hlt⟩ := (exec_effect ht).onPath hc hx hs hret
        rw [← hop] at hpath hlt hk
        exact ih (hres.trans hr) (hxn.trans hx) hpath (by rw [exec_nonce ht hret]; exact hn) (by omega)

/-- Settles O60: from `START` the path has 13 micro-operations, and a command may run 16. -/
theorem standardFormIgnoresTheNonceTail : Obligations.StandardFormIgnoresTheNonceTail := by
  intro s n hp hx hr hn
  have hs : { s with nonce := n } = withUnread n [] s := by rw [withUnread, ← hr]
  have hpath : ∀ enc, uStart ∈ standardPath enc ∧ (standardPath enc).length ≤ (standardPath enc).idxOf uStart + 16 := by decide
  obtain ⟨hmem, hlen⟩ := hpath (isEnc s.op)
  rw [hs]
  exact untilIdle_nonce_tail hr hx (by rw [hp]; exact hmem) hn (by rw [hp]; exact hlen)

end Sys2Proof.Machine
end

section
/-! The host's register interface (10_state.md rules R30 to R33, 60_exceptions.md rule R216): what a read returns, what a write
changes, and the pseudo-instructions that load a register (rule R90). -/

namespace Sys2Proof.Machine

/-- Settles O8. -/
theorem resetValuesOfTheRegisters : Obligations.ResetValuesOfTheRegisters := by
  unfold Obligations.ResetValuesOfTheRegisters
  decide

/-! The `STATUS` word (rule R32). -/

theorem flagBit_getLsbD (b : Bool) (k : Nat) : (flagBit b).getLsbD k = (k == 0 && b) := by
  cases b <;> cases k <;> simp [flagBit]

/-- Settles O12: each flag is one bit of the concatenation. -/
theorem statusWordLayout : Obligations.StatusWordLayout := by
  intro st k hk
  simp only [statusWord, BitVec.getLsbD_append, flagBit_getLsbD, BitVec.getLsbD_zero]
  match k with
  | 0 | 1 | 2 | 3 | 4 => simp
  | k + 5 => simp

/-! Reads. -/

/-- Settles O16: every word that is read comes from one of these registers. -/
theorem hostReadsIgnoreHiddenState : Obligations.HostReadsIgnoreHiddenState := by
  intro s t h0 h1 h2 h3 h4 hnonce htag hstatus offset
  have hnum : ∀ r, readNum s r = readNum t r := by
    intro r
    cases r with
    | bufAddr => exact h0
    | bufLen => exact h1
    | aadAddr => exact h2
    | aadLen => exact h3
    | resLen => exact h4
  simp only [readReg, hnum, hnonce, htag, hstatus]

/-- The words of a 64-bit register, the low one first. -/
theorem numWord_low (v : BitVec 64) : numWord v false = v.setWidth 32 := by
  ext i hi
  simp [numWord]

theorem numWord_high (v : BitVec 64) : numWord v true = (v >>> 32).setWidth 32 := by
  ext i hi
  simp [numWord]

theorem wordByte_eq_setWidth (w : BitVec 32) (i : Nat) : wordByte w i = (w >>> (8 * i)).setWidth 8 := by
  ext j hj
  simp [wordByte]

/-! The map of rule R30, register by register. -/

theorem hostReg_num_low (r : NumReg) : hostReg r.offset = .num r false := by cases r <;> rfl
theorem hostReg_num_high (r : NumReg) : hostReg (r.offset + 4) = .num r true := by cases r <;> rfl
theorem hostReg_nonce : ∀ j < 6, hostReg (0x40 + 4 * j) = .nonce j := by decide
theorem hostReg_tag : ∀ j < 4, hostReg (0x60 + 4 * j) = .tag j := by decide
theorem hostReg_keyin : ∀ j < 8, hostReg (0x80 + 4 * j) = .keyin j := by decide

theorem hostReg_reserved {o : Nat} (h : (0x08 ≤ o ∧ o < 0x10) ∨ (0x38 ≤ o ∧ o < 0x40) ∨ (0x58 ≤ o ∧ o < 0x60) ∨
    (0x70 ≤ o ∧ o < 0x80) ∨ 0xa0 ≤ o) : hostReg o = .reserved := by
  unfold hostReg
  rw [if_neg (by omega), if_neg (by omega), if_neg (by omega), if_neg (by omega), if_neg (by omega), if_neg (by omega)]

/-- Settles O10, range by range of the map. -/
theorem hostReadsFollowTheMap : Obligations.HostReadsFollowTheMap := by
  intro s
  refine ⟨rfl, rfl, fun r => ⟨?_, ?_⟩, fun j hj => ?_, fun j hj => ?_, fun j hj => ?_, fun o ho => ?_⟩
  · have hr : hostReg (0x10 + 8 * r.index) = .num r false := hostReg_num_low r
    simp only [readReg, hr, numWord_low]
  · have hr : hostReg (0x14 + 8 * r.index) = .num r true := by cases r <;> rfl
    simp only [readReg, hr, numWord_high]
  · simp only [readReg, hostReg_nonce j hj]; rfl
  · simp only [readReg, hostReg_tag j hj]; rfl
  · simp only [readReg, hostReg_keyin j hj]
  · simp only [readReg, hostReg_reserved ho]

/-! Writes. -/

/-- The register words that a write changes and a read returns. -/
def HostReg.readWrite : HostReg → Bool
  | .num r _ => r != .resLen
  | .nonce j => decide (j < 6)
  | .tag j => decide (j < 4)
  | .cmd | .status | .keyin _ | .reserved => false

/-- The register words that ignore a write. -/
def HostReg.readOnly : HostReg → Bool
  | .num r _ => r == .resLen
  | .cmd | .status | .reserved => true
  | .nonce _ | .tag _ | .keyin _ => false

theorem hostReg_readWrite : ∀ i < 64,
    (0x10 ≤ 4 * i ∧ 4 * i < 0x30) ∨ (0x40 ≤ 4 * i ∧ 4 * i < 0x58) ∨ (0x60 ≤ 4 * i ∧ 4 * i < 0x70) →
      (hostReg (4 * i)).readWrite = true := by decide

theorem hostReg_readOnly : ∀ i < 64,
    ¬ ((0x10 ≤ 4 * i ∧ 4 * i < 0x30) ∨ (0x40 ≤ 4 * i ∧ 4 * i < 0x58) ∨ (0x60 ≤ 4 * i ∧ 4 * i < 0x70) ∨
      (0x80 ≤ 4 * i ∧ 4 * i < 0xa0)) → (hostReg (4 * i)).readOnly = true := by decide

theorem writeReg_readOnly {s : State} {o : Nat} {w : BitVec 32} (h : (hostReg o).readOnly = true) : writeReg s o w = s := by
  cases hr : hostReg o with
  | cmd | status | reserved => simp only [writeReg, hr]
  | num r high =>
    rw [hr] at h
    obtain rfl : r = .resLen := by simpa [HostReg.readOnly] using h
    simp only [writeReg, hr, writeNum]
  | nonce j | tag j | keyin j => rw [hr] at h; cases h

theorem readReg_writeReg_same {s : State} {o : Nat} {w : BitVec 32} (h : (hostReg o).readWrite = true) :
    readReg (writeReg s o w) o = w := by
  cases hr : hostReg o with
  | cmd | status | keyin | reserved => rw [hr] at h; cases h
  | num r high =>
    rw [hr] at h
    have hne : r ≠ .resLen := by simpa [HostReg.readWrite] using h
    simp only [readReg, writeReg, hr, readNum_writeNum _ _ _ hne, numWord_setNumWord]
  | nonce j =>
    rw [hr] at h
    have hj : j < 6 := by simpa [HostReg.readWrite] using h
    simp only [readReg, writeReg, hr, arrayWord_setArrayWord s.nonce j w (by omega)]
  | tag j =>
    rw [hr] at h
    have hj : j < 4 := by simpa [HostReg.readWrite] using h
    simp only [readReg, writeReg, hr, arrayWord_setArrayWord s.tag j w (by omega)]

/-- A write to a word of a 64-bit register leaves the other words of these registers. -/
theorem numWord_writeNum_other {s : State} {r q : NumReg} {high high' : Bool} {w : BitVec 32} (h : (q, high') ≠ (r, high)) :
    numWord (readNum (writeNum s r (setNumWord (readNum s r) high w)) q) high' = numWord (readNum s q) high' := by
  by_cases hq : q = r
  · subst hq
    have hh : high' ≠ high := fun he => h (by rw [he])
    by_cases hl : q = .resLen
    · subst hl; rfl
    · rw [readNum_writeNum _ _ _ hl, numWord_setNumWord_other _ _ _ _ hh]
  · rw [readNum_writeNum_other _ _ _ _ hq]

theorem readReg_writeReg_other {s : State} {o o' : Nat} {w : BitVec 32} (h : (hostReg o).readWrite = true)
    (hne : hostReg o' ≠ hostReg o) : readReg (writeReg s o w) o' = readReg s o' := by
  cases hr : hostReg o with
  | cmd | status | keyin | reserved => rw [hr] at h; cases h
  | num r high =>
    simp only [writeReg, hr]
    cases hr' : hostReg o' with
    | num q high' =>
      simp only [readReg, hr']
      exact numWord_writeNum_other fun he => hne (by rw [hr, hr']; cases he; rfl)
    | cmd | status | keyin | reserved | nonce | tag => simp only [readReg, hr', writeNum_eq]
  | nonce j =>
    rw [hr] at h
    have hj : j < 6 := by simpa [HostReg.readWrite] using h
    simp only [writeReg, hr]
    cases hr' : hostReg o' with
    | nonce k =>
      simp only [readReg, hr']
      exact arrayWord_setArrayWord_other s.nonce j k w (by omega) fun he => hne (by rw [hr, hr', he])
    | num q _ => cases q <;> simp only [readReg, hr', readNum]
    | cmd | status | keyin | reserved | tag => simp only [readReg, hr']
  | tag j =>
    rw [hr] at h
    have hj : j < 4 := by simpa [HostReg.readWrite] using h
    simp only [writeReg, hr]
    cases hr' : hostReg o' with
    | tag k =>
      simp only [readReg, hr']
      exact arrayWord_setArrayWord_other s.tag j k w (by omega) fun he => hne (by rw [hr, hr', he])
    | num q _ => cases q <;> simp only [readReg, hr', readNum]
    | cmd | status | keyin | reserved | nonce => simp only [readReg, hr']

/-- Settles O11, class by class of offsets. -/
theorem registerWritesReadBack : Obligations.RegisterWritesReadBack := by
  intro s o w ho hm
  obtain ⟨i, rfl⟩ : ∃ i, o = 4 * i := ⟨o / 4, by omega⟩
  have hi : i < 64 := by omega
  refine ⟨fun hc => ?_, fun hc => writeReg_readOnly (hostReg_readOnly i hi hc), fun hc => ?_⟩
  · have hrw := hostReg_readWrite i hi hc
    refine ⟨?_, readReg_writeReg_same hrw, fun other hother hm' hne => ?_⟩
    · have hk : ∀ j, hostReg (4 * i) ≠ .keyin j := fun j hj => by rw [hj] at hrw; cases hrw
      have hf := writeReg_frame s (4 * i) w
      rw [writeReg_keyin hk] at hf
      exact hf
    · obtain ⟨j, rfl⟩ : ∃ j, other = 4 * j := ⟨other / 4, by omega⟩
      refine readReg_writeReg_other hrw fun he => ?_
      rcases hostReg_injective j (by omega) i hi he with hij | hres
      · exact hne (by rw [hij])
      · rw [← he, hres] at hrw; cases hrw
  · obtain ⟨j, rfl⟩ : ∃ j, i = 0x20 + j := ⟨i - 0x20, by omega⟩
    have hw : writeReg s (4 * (0x20 + j)) w = { s with keyin := setArrayWord s.keyin j w } := by
      have hr : hostReg (4 * (0x20 + j)) = .keyin j := by rw [Nat.mul_add]; exact hostReg_keyin j (by omega)
      simp only [writeReg, hr]
    rw [hw]
    refine ⟨rfl, fun k hk => ?_⟩
    rw [get_setArrayWord s.keyin j k w (by omega)]
    have he : 4 * (0x20 + j) - 0x80 = 4 * j := by omega
    rw [he]
    split_ifs with hkj
    · rw [wordByte_eq_setWidth, show k - 4 * j = k % 4 by omega]
    · rfl

/-! The pseudo-instructions of rule R90. -/

theorem writeNum_writeNum (s : State) (r : NumReg) (u v : BitVec 64) : writeNum (writeNum s r u) r v = writeNum s r v := by
  cases r <;> rfl

theorem numReg_offset_fits (r : NumReg) : 0 < r.offset ∧ r.offset % 4 = 0 ∧ r.offset + 8 ≤ 256 := by
  cases r <;> decide

/-- The two writes of `SET`, the low word first, leave the value in the register. -/
theorem writeAll_num {s : State} {r : NumReg} (v : BitVec 64) (hr : r ≠ .resLen) :
    writeAll s r.offset [v.extractLsb' 0 32, v.extractLsb' 32 32] = writeNum s r v := by
  simp only [writeAll, writeReg, hostReg_num_low, hostReg_num_high, writeNum_writeNum, readNum_writeNum _ _ _ hr,
    setNumWord_both]

/-- Settles O13: the run of the two writes. -/
theorem setLoadsTheRegister : Obligations.SetLoadsTheRegister := by
  intro s r v rest hres hp hr
  obtain ⟨hpos, halign, hfit⟩ := numReg_offset_fits r
  refine ⟨writeWords r.offset [v.extractLsb' 0 32, v.extractLsb' 32 32], ?_, ?_⟩
  · simp [assemble, Asm.wf, hr]
  · have hrun := run_writeWords (k := 0) (o := r.offset) (ws := [v.extractLsb' 0 32, v.extractLsb' 32 32]) (rest := rest)
      hres hp hpos halign hfit
    rw [writeAll_num v hr, writeNum_eq] at hrun
    exact hrun

/-- A byte array with the words from word `j` on replaced. -/
def setWords {n : Nat} (b : Bytes n) (j : Nat) : List (BitVec 32) → Bytes n
  | [] => b
  | w :: ws => setWords (setArrayWord b j w) (j + 1) ws

theorem get_setWords {n : Nat} (b : Bytes n) (j i : Nat) (ws : List (BitVec 32)) (h : 4 * (j + ws.length) ≤ n) :
    (setWords b j ws).get i =
      if 4 * j ≤ i ∧ i < 4 * (j + ws.length) then wordByte (ws.getD (i / 4 - j) 0) (i % 4) else b.get i := by
  induction ws generalizing b j with
  | nil => rw [if_neg (by simp only [List.length_nil]; omega)]; rfl
  | cons w ws ih =>
    simp only [List.length_cons] at h ⊢
    rw [setWords, ih _ _ (by omega), get_setArrayWord b j i w (by omega)]
    by_cases h1 : i < 4 * j
    · rw [if_neg (by omega), if_neg (by omega), if_neg (by omega)]
    by_cases h2 : i < 4 * j + 4
    · rw [if_neg (by omega), if_pos (by omega), if_pos (by omega), show i / 4 - j = 0 by omega,
        show i - 4 * j = i % 4 by omega]
      rfl
    by_cases h3 : i < 4 * (j + 1 + ws.length)
    · rw [if_pos (by omega), if_pos (by omega), show i / 4 - j = i / 4 - (j + 1) + 1 by omega, List.getD_cons_succ]
    · rw [if_neg (by omega), if_neg (by omega), if_neg (by omega)]

/-- The words of a byte string, packed and written from word 0 on, are its bytes; the rest of the array is as before. -/
theorem setWords_packWords {n m : Nat} (b : Bytes n) {l : List Byte} (hl : l.length = 4 * m) (hn : 4 * m ≤ n) :
    (setWords b 0 (packWords l)).data = l ++ b.data.drop l.length := by
  have hlen : (packWords l).length = m := packWords_length m l hl
  apply List.ext_getElem
  · simp only [Bytes.data_length, List.length_append, List.length_drop]; omega
  · intro i h1 h2
    rw [← Bytes.get_data _ i h1, get_setWords b 0 i _ (by omega), hlen]
    rw [Bytes.data_length] at h1
    by_cases hi : i < 4 * m
    · rw [if_pos (by omega), Nat.sub_zero, packWords_getD m l i hl hi, List.getElem_append_left (by omega)]
      simp [List.getD, List.getElem?_eq_getElem (show i < l.length by omega)]
    · rw [if_neg (by omega), List.getElem_append_right (by omega), List.getElem_drop,
        Bytes.get_data b i (by rw [Bytes.data_length]; exact h1)]
      congr 1; omega

theorem writeAll_nonce {s : State} {j : Nat} {ws : List (BitVec 32)} (h : j + ws.length ≤ 6) :
    writeAll s (0x40 + 4 * j) ws = { s with nonce := setWords s.nonce j ws } := by
  induction ws generalizing s j with
  | nil => rfl
  | cons w ws ih =>
    simp only [List.length_cons] at h
    have hw : writeReg s (0x40 + 4 * j) w = { s with nonce := setArrayWord s.nonce j w } := by
      simp only [writeReg, hostReg_nonce j (by omega)]
    rw [writeAll, hw, show 0x40 + 4 * j + 4 = 0x40 + 4 * (j + 1) by omega, ih (by omega)]
    rfl

/-- Settles O15: the run of the word writes, whose bytes are the string's. -/
theorem setbNonceLoadsTheNonce : Obligations.SetbNonceLoadsTheNonce := by
  intro s bytes rest hres hp hlen
  obtain ⟨m, hm, hm6⟩ : ∃ m, bytes.length = 4 * m ∧ m ≤ 6 := ⟨bytes.length / 4, by omega, by omega⟩
  have hw : (packWords bytes).length = m := packWords_length m bytes hm
  refine ⟨writeWords 0x40 (packWords bytes), { s with nonce := setWords s.nonce 0 (packWords bytes), hostQ := rest },
    ?_, ?_, rfl, setWords_packWords s.nonce hm (by omega)⟩
  · have hwf : (Asm.setbNonce bytes).wf = true := by simpa [Asm.wf] using hlen
    simp [assemble, hwf]
  · have hrun := run_writeWords (k := 0) (o := 0x40) (ws := packWords bytes) (rest := rest) hres hp (by decide) (by decide)
      (by omega)
    have hall := writeAll_nonce (s := s) (j := 0) (ws := packWords bytes) (by omega)
    rw [show 0x40 + 4 * 0 = 0x40 from rfl] at hall
    rw [hall, hw] at hrun
    rw [hm, Nat.mul_div_cancel_left m (by decide)]
    exact hrun

end Sys2Proof.Machine
end

section
/-! Proofs of the statements about the ports (20_memory.md): the accesses that the register window admits (rule R65), and the data
accesses of a micro-operation (rule R68). -/

namespace Sys2Proof.Machine

/-! The register window. -/

theorem regAccessOk_iff (width : AccessWidth) (o : Nat) :
    regAccessOk width o = true ↔ width = .word ∧ o < 256 ∧ o % 4 = 0 := by
  simp only [regAccessOk, Config.windowBytes, Bool.and_eq_true, beq_iff_eq, decide_eq_true_eq, and_assoc]

theorem hostAct_read_ok {run : Instr → State → Result} {width : AccessWidth} {o : Nat} (h : regAccessOk width o = true)
    (s : State) : hostAct run (.read width o) s = .next { s with hostR := s.hostR ++ [readReg s o] } := by
  simp only [hostAct, h, Bool.not_true, Bool.false_eq_true, if_false]

theorem hostAct_read_bad {run : Instr → State → Result} {width : AccessWidth} {o : Nat} (h : regAccessOk width o = false)
    (s : State) : hostAct run (.read width o) s = .refused .badRegisterAccess := by
  simp only [hostAct, h, Bool.not_false, if_true]

theorem hostAct_write_bad {run : Instr → State → Result} {width : AccessWidth} {o : Nat} (h : regAccessOk width o = false)
    (w : BitVec 32) (s : State) : hostAct run (.write width o w) s = .refused .badRegisterAccess := by
  simp only [hostAct, h, Bool.not_false, if_true]

/-- Settles O9: each step is the host's access, which `regAccessOk` admits or not. -/
theorem registerAccessesComplete : Obligations.RegisterAccessesComplete := by
  intro s width o w rest hr hp
  have hstep : ∀ a, step { s with hostQ := a :: rest } = hostAct exec a { s with hostQ := rest } := fun a =>
    step_host (s := { s with hostQ := a :: rest }) hr hp rfl
  refine ⟨fun h => ?_, fun h => ?_⟩
  · have hok := (regAccessOk_iff width o).mpr h
    obtain ⟨rfl, -, -⟩ := h
    exact ⟨(hstep _).trans (hostAct_read_ok hok _), fun h0 => step_write hr hp rfl hok h0⟩
  · have hbad : regAccessOk width o = false := Bool.eq_false_iff.mpr fun hok => h ((regAccessOk_iff width o).mp hok)
    exact ⟨(hstep _).trans (hostAct_read_bad hbad _), (hstep _).trans (hostAct_write_bad hbad w _)⟩

/-! The master port. -/

/-- Settles O41: a micro-operation is its accesses through the port and then a next state. -/
theorem microOperationsCompleteExactlyWhenAdmitted : Obligations.MicroOperationsCompleteExactlyWhenAdmitted := by
  intro i s hi
  obtain ⟨t, ht⟩ := exec_uop_eq_withPort hi s
  rw [ht]
  exact ⟨fun h => ⟨t, withPort_open h⟩, withPort_absent, withPort_sideEffect⟩

end Sys2Proof.Machine
end

section
/-! Proof of the statement about who writes the data memory (20_memory.md rule R68): an instruction, a step, a host store. -/

namespace Sys2Proof.Machine

/-- No instruction writes the memory but `XOR` and `TAGOUT` of a combined command. -/
theorem exec_mem_eq {i : Instr} {s t : State} (ht : exec i s = .next t) (hx : i ≠ .xor)
    (hc : ¬ (i = .tagout ∧ s.op ≠ opEnc)) : t.mem = s.mem := by
  cases exec_effect ht with
  | xor => exact absurd rfl hx
  | tagMem mem =>
    have ho : s.op = opEnc := by_contra fun ho => hc ⟨rfl, ho⟩
    injection (execTagout_enc ho).symm.trans ht with ht
    exact (congrArg State.mem ht).symm
  | none | key | reject | accept | undersize | start | seeds | split | derive | seedx | mackey | skip | sized | oversize | absaad
  | absbuf | abslen | final | equal | differ | tag | ret => rfl

theorem exec_command_mem {i : Instr} {s t : State} (hi : i.format = .cmd) (ht : exec i s = .next t) : t.mem = s.mem := by
  refine exec_mem_eq ht ?_ ?_
  · rintro rfl; cases hi
  · rintro ⟨rfl, -⟩; cases hi

/-- `XOR` leaves every byte but those of its accesses. -/
theorem exec_xor_read {s t : State} {a : Nat} (ht : exec .xor s = .next t)
    (ha : ¬ InRange (accesses .xor s).1 (accesses .xor s).2 a) : Mem.read t.mem a = Mem.read s.mem a := by
  obtain ⟨-, ht⟩ := withPort_next ht
  injection ht with ht
  subst ht
  exact xorBytes_read_ne openPrims _ _ a s ha

/-- `TAGOUT` leaves every byte but those of its accesses. -/
theorem exec_tagout_read {s t : State} {a : Nat} (ht : exec .tagout s = .next t)
    (ha : ¬ InRange (accesses .tagout s).1 (accesses .tagout s).2 a) : Mem.read t.mem a = Mem.read s.mem a := by
  by_cases ho : s.op = opEnc
  · rw [exec_mem_eq ht (by decide) fun hc => hc.2 ho]
  · simp only [accesses, if_neg ho] at ha
    obtain ⟨-, ht⟩ := withPort_next ((execTagout_combined ho).symm.trans ht)
    injection ht with ht
    subst ht
    exact read_writeRange_ne (by rw [s.eph.etag.data_length]; exact ha)

/-- The micro-operations that change the memory, by the code of `PHASE` that runs them. -/
theorem phase_of_exec_mem_ne {i : Instr} {s t : State} (hi : decodeUop s.phase = .ok i) (ht : exec i s = .next t)
    (hm : t.mem ≠ s.mem) : s.phase = uXor ∨ (s.phase = uTagout ∧ s.op ≠ opEnc) := by
  have hc := encodeUop_of_decodeUop hi
  by_cases hx : i = .xor
  · subst hx; exact .inl (Option.some.inj hc).symm
  · by_cases hg : i = .tagout ∧ s.op ≠ opEnc
    · obtain ⟨rfl, ho⟩ := hg; exact .inr ⟨(Option.some.inj hc).symm, ho⟩
    · exact absurd (exec_mem_eq ht hx hg) hm

/-- A host action that changes the memory is a store. -/
theorem hostAct_mem_ne {a : HostAct} {s t : State} (ht : hostAct exec a s = .next t) (hm : t.mem ≠ s.mem) :
    ∃ addr bytes, a = .mem addr bytes := by
  rcases hostAct_cases ht with
    ⟨w, -, i, hi, hx⟩ | ⟨w, e, -, -, rfl⟩ | ⟨o, w, -, rfl⟩ | ⟨o, -, rfl⟩ | ⟨addr, bytes, ha, -, -, -⟩
  · exact absurd (exec_command_mem (decodeCmd_format hi) hx) hm
  · exact absurd rfl hm
  · exact absurd (by rw [writeReg_frame]) hm
  · exact absurd rfl hm
  · exact ⟨addr, bytes, ha⟩

/-- A reset that changes the memory interrupts a micro-operation that writes it (rule R226). -/
theorem phase_of_platformReset_mem_ne {s : State} (hm : (platformReset s).mem ≠ s.mem) :
    s.phase = uXor ∨ (s.phase = uTagout ∧ s.op ≠ opEnc) := by
  rcases interruptedMem_cases openPrims (Config.resetPoint s.freeCount) s with ⟨hx, -⟩ | ⟨hg, -⟩ | ⟨-, -, hmem⟩
  · exact .inl hx
  · exact .inr hg
  · exact absurd hmem hm

/-- The steps that change the memory: the reset, the micro-operations and the host's store. -/
theorem step_mem_ne {s t : State} (ht : step s = .next t) (hm : t.mem ≠ s.mem) :
    s.phase = uXor ∨ (s.phase = uTagout ∧ s.op ≠ opEnc) ∨
      (s.phase = uIdle ∧ s.resets.head? ≠ some 0 ∧ ∃ addr bytes rest, s.hostQ = .mem addr bytes :: rest) := by
  rcases step_cases ht with ⟨-, rfl⟩ | ⟨-, -, i, hi, hx⟩ | ⟨hd, hp, a, rest, hq, ha⟩
  · exact (phase_of_platformReset_mem_ne hm).imp_right .inl
  · rw [resetTick_eq] at hx
    exact (phase_of_exec_mem_ne (s := { s with resets := (resetTick s).resets }) hi hx hm).imp_right .inl
  · rw [resetTick_eq] at ha
    obtain ⟨addr, bytes, rfl⟩ := hostAct_mem_ne ha hm
    exact .inr (.inr ⟨hp, hd, addr, bytes, rest, hq⟩)

/-- A host store through the open port. -/
theorem hostStore_open {addr : Nat} {bytes : List Byte} {s : State} (ho : PortOpen s addr bytes.length) :
    hostStore addr bytes s = .next { s with mem := Mem.writeRange s.mem addr bytes } := withPort_open ho

theorem read_writeRange_of_portOpen {s : State} {addr i : Nat} {bytes : List Byte} (hw : Memory.wf s.mem = true)
    (ho : PortOpen s addr bytes.length) (hi : i < bytes.length) :
    Mem.read (Mem.writeRange s.mem addr bytes) (addr + i) = bytes.getD i 0#8 :=
  read_writeRange hw (portOpen_fits ho (Nat.zero_lt_of_lt hi)) hi

/-- Settles O44: what an instruction writes, what a step writes, and the host's store. -/
theorem memoryIsWrittenOnlyByXorTagoutAndHost : Obligations.MemoryIsWrittenOnlyByXorTagoutAndHost := by
  refine ⟨fun i s t ht => ⟨exec_mem_eq ht, ?_⟩, fun s t => step_mem_ne, fun s addr bytes rest hr hp hw ho => ?_⟩
  · rintro (rfl | rfl) a ha
    · exact exec_xor_read ht ha
    · exact exec_tagout_read ht ha
  · have hstep : step { s with hostQ := .mem addr bytes :: rest } =
        .next { s with mem := Mem.writeRange s.mem addr.toNat bytes, hostQ := rest } :=
      (step_host (s := { s with hostQ := .mem addr bytes :: rest }) hr hp rfl).trans
        (hostStore_open (s := { s with hostQ := rest }) ho)
    exact ⟨_, hstep, rfl, fun i hi => read_writeRange_of_portOpen hw ho hi, fun a ha => read_writeRange_ne ha⟩

end Sys2Proof.Machine
end

section
/-! Proofs of the statements about the duties and the sizes of a command's regions (20_memory.md rule R73, 44_aead_commands.md rules
R145 and R148, 41_mac_processor.md rule R111). -/

namespace Sys2Proof.Machine

/-- The state an accepted AEAD command starts from (rule R145). -/
def accepted (op : BitVec 2) (s : State) : State :=
  { s with op := op, status := { s.status with cmderr := false }, phase := uStart }

section
variable {s t : State} {i : Instr} {op : BitVec 2}
  (hi : (i, op) ∈ [(Instr.enc, opEnc), (.dec, opDec), (.encc, opEncc), (.decc, opDecc)])
include hi

/-- The four AEAD commands differ in the `OP` they latch alone. -/
theorem exec_aead : exec i s = acceptAead op s := by
  fin_cases hi <;> rfl

/-- A ready command runs as its sequence runs from `START` (rules R145 and R146). -/
theorem commandRun_of_accepted (h : Ready op s) (ht : runCommand (accepted op s) = .next t) : CommandRun i s t :=
  ⟨accepted op s, (exec_aead hi).trans (acceptAead_ok h.key h.duties), ht⟩

end

/-- Settles O19: acceptance of the `OP` that the command latches. -/
theorem aeadCommandsAreAcceptedUnderTheDuties : Obligations.AeadCommandsAreAcceptedUnderTheDuties := by
  intro s i op hi hk
  rw [exec_aead hi]
  exact ⟨acceptAead_ok hk, acceptAead_breach hk⟩

/-- The length that `START` computes is that of the message, when a `DECC` region holds a tag (rule R148). -/
theorem startLen_toNat {s : State} (h : s.op = opDecc → 16 ≤ s.bufLen.toNat) :
    (startLen s).toNat = messageLen s.op s := by
  unfold startLen messageLen
  split_ifs with ho
  · exact toNat_sub_16 (h ho)
  · rfl

/-- A `DECC` region shorter than a tag: `START` and then the return (rule R148). -/
theorem runCommand_undersize {s : State} {op : BitVec 2} (h : Ready op s) (ho : op = opDecc) (hl : s.bufLen.toNat < 16) :
    runCommand (accepted op s) = .next (finished s op 0 false causeUndersize) :=
  (untilIdle_at (s := accepted op s) uStart rfl h.noReset (by decide) rfl (execStart_undersize ho hl)).trans
    (untilIdle_retfail (s := raiseFail causeUndersize (clearOutcome (accepted op s))) h.noReset rfl)

/-- A message of too many blocks: on to the size check and then the return (rule R111). -/
theorem runCommand_oversize {s : State} {op : BitVec 2} (h : Ready op s)
    (hd : op = opDecc → 16 ≤ s.bufLen.toNat ∧ PortOpen s (s.bufAddr.toNat + messageLen op s) 16)
    (hn : 2 ^ 32 ≤ nblk (messageLen op s)) :
    runCommand (accepted op s) = .next (finished s op 0 false causeOversize) := by
  have hstart : StartOk (accepted op s) := fun ho => by
    obtain ⟨hl, hopen⟩ := hd ho
    rw [messageLen, if_pos (show op = opDecc from ho)] at hopen
    exact ⟨hl, hopen⟩
  have hlen : (startLen (accepted op s)).toNat = messageLen op s := startLen_toNat fun ho => (hd ho).1
  obtain ⟨m, hm, hrun⟩ := untilIdle_to_sizechk (n := 10) (s := accepted op s) h.noReset rfl hstart
  obtain ⟨k, rfl⟩ := Nat.exists_eq_add_of_le' (Nat.le_trans (show 2 ≤ 10 by decide) hm)
  exact hrun.trans (untilIdle_oversize (s := atSizechk (accepted op s)) h.noReset rfl (hlen.symm ▸ hn))

/-- Settles O55: the command is accepted, and its sequence fails at `START` or at the size check. -/
theorem sizeFailuresTouchNoMemoryButTheTagOfDecc : Obligations.SizeFailuresTouchNoMemoryButTheTagOfDecc := by
  intro s i op hi h
  exact ⟨fun ho hl => commandRun_of_accepted hi h (runCommand_undersize h ho hl),
    fun hd hn => commandRun_of_accepted hi h (runCommand_oversize h hd hn)⟩

end Sys2Proof.Machine
end

section
/-! Proofs of the statements about the encodings (30_encoding.md): the two decoders row by row (rules R80 to R82, R86 and R87),
decoding against encoding, the rejected words (rules R208 and R209), and `SETB KEYIN` with `KEYLOAD.S` (rules R90 and R176). -/

namespace Sys2Proof

/-! The rows of the two tables. -/

/-- A word whose `k` upper bits are zero is its `n` lower bits. -/
theorem upperZero_iff {n k : Nat} (w : BitVec (n + k)) (c : BitVec n) :
    w.extractLsb' n k = 0#k ∧ w.extractLsb' 0 n = c ↔ c.setWidth (n + k) = w := by
  constructor
  · rintro ⟨hr, rfl⟩
    apply BitVec.eq_of_getLsbD_eq
    intro i hi
    have hup : (w.extractLsb' n k).getLsbD (i - n) = false := by rw [hr, BitVec.getLsbD_zero]
    rw [BitVec.getLsbD_extractLsb'] at hup
    by_cases hn : i < n
    · simp [hi, hn]
    · simp only [show i - n < k by omega, show n + (i - n) = i by omega, decide_true, Bool.true_and] at hup
      simp [BitVec.getLsbD_extractLsb', hn, hup]
  · rintro rfl
    constructor <;> apply BitVec.eq_of_getLsbD_eq <;> intro i hi
    · simp
    · simp [hi]; omega

theorem decodeCmd_eq_ok_iff_mem (w : BitVec 32) (i : Instr) :
    decodeCmd w = .ok i ↔ (w, i) ∈ cmdTable.map fun row => (row.1.setWidth 32, row.2) := by
  rw [decodeCmd_eq_ok, List.mem_map]
  constructor
  · rintro ⟨hr, hi⟩
    exact ⟨_, hi, Prod.ext ((upperZero_iff (n := 8) (k := 24) w _).mp ⟨hr, rfl⟩) rfl⟩
  · rintro ⟨row, hrow, h⟩
    obtain ⟨hw, rfl⟩ := Prod.mk.inj h
    obtain ⟨hr, hc⟩ := (upperZero_iff (k := 24) w row.1).mpr hw
    exact ⟨hr, hc ▸ hrow⟩

/-- Settles O1: the rows of the command table, each opcode read as a 32-bit word. -/
theorem commandWordsDecodeExactly : Obligations.CommandWordsDecodeExactly := decodeCmd_eq_ok_iff_mem

/-- Settles O2: the rows of the micro-operation table. -/
theorem microOperationCodesDecodeExactly : Obligations.MicroOperationCodesDecodeExactly := decodeUop_eq_ok

/-- Settles O4, by evaluation of the fifteen words. -/
theorem sampleWordsDecode : Obligations.SampleWordsDecode := by
  unfold Obligations.SampleWordsDecode
  decide

/-! Decoding against encoding. -/

theorem decodeCmd_eq_ok_iff_encodeCmd (w : BitVec 32) (i : Instr) : decodeCmd w = .ok i ↔ encodeCmd i = some w := by
  constructor
  · intro h
    have rows : ∀ row ∈ cmdTable, encodeCmd row.2 = some (row.1.setWidth 32) := by decide
    obtain ⟨row, hrow, hw⟩ := List.mem_map.mp ((decodeCmd_eq_ok_iff_mem w i).mp h)
    obtain ⟨rfl, rfl⟩ := Prod.mk.inj hw
    exact rows row hrow
  · intro h
    cases i <;> cases h <;> rfl

theorem decodeUop_eq_ok_iff_encodeUop (c : BitVec 5) (i : Instr) : decodeUop c = .ok i ↔ encodeUop i = some c := by
  refine ⟨encodeUop_of_decodeUop, fun h => ?_⟩
  cases i <;> cases h <;> rfl

/-- Bytes decode as a command exactly when they are the bytes of a word that does. -/
theorem decode_cmd_eq_ok (bytes : List Byte) (i : Instr) :
    decode .cmd bytes = .ok i ↔ ∃ w, (List.range 4).map (wordByte w) = bytes ∧ decodeCmd w = .ok i := by
  constructor
  · intro h
    unfold decode at h
    split at h
    · rename_i b0 b1 b2 b3 _
      obtain ⟨h0, h1, h2, h3⟩ := wordByte_wordOfBytes b0 b1 b2 b3
      exact ⟨wordOfBytes b0 b1 b2 b3, by simp [List.range_succ, h0, h1, h2, h3], h⟩
    · contradiction
    · cases h
  · rintro ⟨w, rfl, h⟩
    rw [← wordOfBytes_wordByte w] at h
    exact h

/-- Bytes decode as a micro-operation exactly when they are the one byte of a code that does. -/
theorem decode_uop_eq_ok (bytes : List Byte) (i : Instr) :
    decode .uop bytes = .ok i ↔ ∃ c : BitVec 5, [c.setWidth 8] = bytes ∧ decodeUop c = .ok i := by
  constructor
  · intro h
    unfold decode at h
    split at h
    · contradiction
    · rename_i b _
      split at h
      · cases h
      · rename_i hb
        exact ⟨b.extractLsb' 0 5, congrArg (· :: []) ((upperZero_iff (n := 5) (k := 3) b _).mp ⟨not_not.mp hb, rfl⟩), h⟩
    · cases h
  · rintro ⟨c, rfl, h⟩
    obtain ⟨hb, hc⟩ := (upperZero_iff (k := 3) _ c).mpr rfl
    simp only [decode, hb, hc, ne_eq, not_true, if_false, h]

/-- A command is encoded as the bytes of its word. -/
theorem encode_cmd_iff (bytes : List Byte) (i : Instr) :
    i.format = .cmd ∧ encode i = bytes ↔ ∃ w, (List.range 4).map (wordByte w) = bytes ∧ encodeCmd i = some w := by
  cases i <;> simp [Instr.format, encode, encodeCmd, encodeUop]

/-- A micro-operation is encoded as the one byte of its code. -/
theorem encode_uop_iff (bytes : List Byte) (i : Instr) :
    i.format = .uop ∧ encode i = bytes ↔ ∃ c : BitVec 5, [c.setWidth 8] = bytes ∧ encodeUop i = some c := by
  cases i <;> simp [Instr.format, encode, encodeCmd, encodeUop]

/-- Settles O3: in each format the bytes are those of one word or code, which the decoder and the encoder read alike. -/
theorem bytesDecodeExactlyWhenEncoded : Obligations.BytesDecodeExactlyWhenEncoded := by
  intro f bytes i
  cases f with
  | cmd => simp only [decode_cmd_eq_ok, encode_cmd_iff, decodeCmd_eq_ok_iff_encodeCmd]
  | uop => simp only [decode_uop_eq_ok, encode_uop_iff, decodeUop_eq_ok_iff_encodeUop]

/-! The illegal words (rule R82). -/

theorem and_mask_of_shiftRight_eq_zero {w : BitVec 32} (h : w >>> 8 = 0) : w &&& 0xff = w := by
  have hlt : w.toNat < 2 ^ 8 := by
    have h0 : w.toNat >>> 8 = 0 := congrArg BitVec.toNat h
    rw [Nat.shiftRight_eq_div_pow] at h0
    omega
  apply BitVec.eq_of_toNat_eq
  exact (Nat.and_two_pow_sub_one_eq_mod w.toNat 8).trans (Nat.mod_eq_of_lt hlt)

/-- A word is legal when `RSV` is 0 and `OPC` stands in the table: then it is that `OPC`. -/
theorem decodeCmd_legal_iff (w : BitVec 32) : (∃ i, decodeCmd w = .ok i) ↔
    w >>> 8 = 0 ∧ w &&& 0xff ∈ cmdTable.map fun row => row.1.setWidth 32 := by
  simp only [decodeCmd_eq_ok_iff_mem]
  constructor
  · rintro ⟨i, hi⟩
    have rows : ∀ row ∈ cmdTable, row.1.setWidth 32 >>> 8 = 0 ∧ row.1.setWidth 32 &&& 0xff = row.1.setWidth 32 := by decide
    obtain ⟨row, hrow, hw⟩ := List.mem_map.mp hi
    obtain ⟨rfl, -⟩ := Prod.mk.inj hw
    obtain ⟨hr, hc⟩ := rows row hrow
    exact ⟨hr, List.mem_map.mpr ⟨row, hrow, hc.symm⟩⟩
  · rintro ⟨hr, hc⟩
    rw [and_mask_of_shiftRight_eq_zero hr] at hc
    obtain ⟨row, hrow, rfl⟩ := List.mem_map.mp hc
    exact ⟨row.2, List.mem_map_of_mem hrow⟩

theorem decodeCmd_illegal_iff (w : BitVec 32) : (∃ e, decodeCmd w = .error e) ↔
    w >>> 8 ≠ 0 ∨ w &&& 0xff ∉ cmdTable.map fun row => row.1.setWidth 32 := by
  rw [ne_eq, ← not_and_or, ← decodeCmd_legal_iff]
  cases decodeCmd w <;> simp

end Sys2Proof

namespace Sys2Proof.Machine

theorem acceptAead_keyless {op : BitVec 2} {s : State} (hk : s.status.kv = false) : acceptAead op s = .next (reject s) := by
  simp only [acceptAead, hk, Bool.not_false, if_true]

/-- Settles O20: such a word's issue, and acceptance without a key, are rejections. -/
theorem illegalOrKeylessCommandsAreRejected : Obligations.IllegalOrKeylessCommandsAreRejected := by
  refine ⟨decodeCmd_illegal_iff, fun s w e rest hr hp he => ?_, fun s i hi hk => ?_⟩
  · exact (stepRunsTheIssuedCommand { s with hostQ := .write .word 0x00 w :: rest } w rest hr hp rfl).2 e he
  · obtain ⟨op, hop⟩ : ∃ op, (i, op) ∈ [(Instr.enc, opEnc), (.dec, opDec), (.encc, opEncc), (.decc, opDecc)] := by
      revert hi; cases i <;> decide
    exact (exec_aead hop).trans (acceptAead_keyless hk)

/-! `SETB KEYIN` and `KEYLOAD.S` (rules R90 and R176). -/

/-- The words of a whole array, packed and written from word 0 on, leave nothing of what stood there. -/
theorem setWords_packWords_whole {n m : Nat} (a b : Bytes n) (hn : n = 4 * m) : setWords a 0 (packWords b.data) = b := by
  apply Bytes.ext_data
  rw [setWords_packWords a (b.len.trans hn) hn.ge, List.drop_of_length_le (by simp), List.append_nil]

theorem writeAll_keyin {s : State} {j : Nat} {ws : List (BitVec 32)} (h : j + ws.length ≤ 8) :
    writeAll s (0x80 + 4 * j) ws = { s with keyin := setWords s.keyin j ws } := by
  induction ws generalizing s j with
  | nil => rfl
  | cons w ws ih =>
    simp only [List.length_cons] at h
    have hw : writeReg s (0x80 + 4 * j) w = { s with keyin := setArrayWord s.keyin j w } := by
      simp only [writeReg, hostReg_keyin j (by omega)]
    rw [writeAll, hw, show 0x80 + 4 * j + 4 = 0x80 + 4 * (j + 1) by omega, ih (by omega)]
    rfl

/-- The eight writes of `SETB KEYIN` leave the string in the register. -/
theorem writeAll_packWords_keyin (s : State) (b : Bytes 32) : writeAll s 0x80 (packWords b.data) = { s with keyin := b } := by
  have hall := writeAll_keyin (s := s) (j := 0) (ws := packWords b.data) (by rw [packWords_length 8 _ b.len])
  rwa [setWords_packWords_whole (m := 8) _ _ rfl] at hall

/-- Settles O14: the eight word writes, then the issue of `KEYLOAD.S`. -/
theorem setbKeyinThenKeyloadLoadsTheKey : Obligations.SetbKeyinThenKeyloadLoadsTheKey := by
  intro s b rest hres hp
  have hw : (packWords b.data).length = 8 := packWords_length 8 b.data b.len
  refine ⟨writeWords 0x80 (packWords b.data) ++ [.write .word 0x00 0x01], ?_, ?_⟩
  · simp [assembleAll, assemble, Asm.wf, Instr.isCommand, Instr.format, encodeCmd]
  · have hrun := run_writeWords (k := 1) (o := 0x80) (ws := packWords b.data) (rest := .write .word 0x00 0x01 :: rest)
      hres hp (by decide) (by decide) (by omega)
    rw [writeAll_packWords_keyin, hw] at hrun
    have hstep := (stepRunsTheIssuedCommand { s with keyin := b, hostQ := .write .word 0x00 0x01 :: rest } 0x01 rest
      hres hp rfl).1 .keyloadS rfl
    rw [List.append_assoc]
    exact hrun.trans (run_next hstep)

end Sys2Proof.Machine
end

section
/-! Proofs of the statements about the engine construction (40_engine_construction.md): the one-time MAC key of `MACKEY` (rule R101)
and the absolute move of `SKIP` (rule R102). -/

namespace Sys2Proof.Machine

/-- Byte `i` of a string of 32 keystream bytes. -/
theorem get_keystream_bytes {P : Prims} {k : Bytes 32} {n : Bytes 12} {p i : Nat} (hi : i < 32) :
    (Bytes.ofList 32 ((List.range 32).map fun j => ksStream P k n (p + j))).get i = ksStream P k n (p + i) := by
  rw [Bytes.get_ofList (by simp)]
  simp [List.getD, List.getElem?_range hi]

theorem position_eq_zero {e : Eph} (hc : e.ctr = 0) (ho : e.off = 0) : position e = 0 := by
  simp [position, hc, ho]

/-- Byte `i` of the one-time MAC key is byte `i` of block 0 (rule R101). -/
theorem get_macKeyOf {P : Prims} {k : Bytes 32} {n : Bytes 12} {i : Nat} (hi : i < 32) :
    (macKeyOf P k n).get i = (P.ks k n 0).get i := by
  rw [macKeyOf, Bytes.get_slice _ 0 32 i (by omega) hi, Nat.zero_add]

/-- Settles O28: `mackeyOn_eq` gives the state answered; its key is read byte by byte, at block 0, byte 0 from block 0 itself. -/
theorem mackeyIsTheFirstKeystream : Obligations.MackeyIsTheFirstKeystream := by
  refine ⟨rfl, fun s => ⟨_, mackeyOn_eq openPrims s, rfl, fun i => get_keystream_bytes, fun hc ho => ?_⟩⟩
  have hp : position s.eph = 0 := position_eq_zero hc ho
  rw [hp, mackey_eq_macKeyOf]
  exact ⟨rfl, rfl, fun i => get_macKeyOf⟩

/-- Settles O29: `SKIP` writes the counter and the offset without reading them. -/
theorem skipGoesToBlockOne : Obligations.SkipGoesToBlockOne :=
  ⟨rfl, fun _ => rfl⟩

end Sys2Proof.Machine
end

section
/-! Proofs of the statements about the size check and the padding and length-binding processor (41_mac_processor.md): `SIZECHK`
(rule R111), what `ABSAAD`, `ABSBUF` and `ABSLEN` absorb (rules R113 to R115), `FINAL` (rule R116) and the MAC input as a whole
(rule R117). -/

namespace Sys2Proof.Machine

/-! The micro-operations. -/

/-- The branch on `enc(OP)` in terms of the codes of rule R35. -/
theorem ite_isEnc {α : Type} (op : BitVec 2) (x y : α) :
    (if isEnc op then x else y) = if op = 0 ∨ op = 2 then x else y := by
  simp only [isEnc, Bool.or_eq_true, beq_iff_eq]

/-- Rule R113: with the associated data admitted, `ABSAAD` appends it and its padding. -/
theorem execAbsaad_open {s : State} (h : PortOpen s s.aadAddr.toNat s.aadLen.toNat) :
    execAbsaad s = .next { s with
      eph := { s.eph with
        macmsg := s.eph.macmsg ++ (bytesAt s.mem s.aadAddr.toNat s.aadLen.toNat ++ zeros (pad16 s.aadLen.toNat)) }
      phase := if isEnc s.op then uXor else uAbsbuf } := by
  rw [execAbsaad, withPort_open h, absorbPadded_bytesAt]

/-- Rule R114: with the message admitted, `ABSBUF` appends it and its padding. -/
theorem execAbsbuf_open {s : State} (h : PortOpen s s.bufAddr.toNat s.eph.mlen.toNat) :
    execAbsbuf s = .next { s with
      eph := { s.eph with
        macmsg := s.eph.macmsg ++ (bytesAt s.mem s.bufAddr.toNat s.eph.mlen.toNat ++ zeros (pad16 s.eph.mlen.toNat)) }
      phase := uAbslen } := by
  rw [execAbsbuf, withPort_open h, absorbPadded_bytesAt]

/-- Settles O30: `nblk_lt_iff` turns the check on the block count into the bound on the length. -/
theorem sizechkFailsExactlyAboveTheBound : Obligations.SizechkFailsExactlyAboveTheBound := by
  refine ⟨rfl, fun s => ⟨fun h => ?_, fun h => ?_⟩⟩
  · exact execSizechk_pass ((nblk_lt_iff _).mpr h)
  · have hblk : ¬ nblk s.eph.mlen.toNat < 2 ^ 32 := fun hlt => Nat.not_le.mpr h ((nblk_lt_iff _).mp hlt)
    exact execSizechk_fail (Nat.le_of_not_lt hblk)

/-- Settles O31: the port passes, and what is absorbed is `absorbPadded` of the bytes at `AAD_ADDR`. -/
theorem absaadAbsorbsThePaddedAad : Obligations.AbsaadAbsorbsThePaddedAad := by
  refine ⟨rfl, fun s h => (execAbsaad_open h).trans ?_⟩
  rw [ite_isEnc, ← List.append_assoc]
  rfl

/-- Settles O32: the port passes, and what is absorbed is `absorbPadded` of the bytes at `BUF_ADDR`. -/
theorem absbufAbsorbsThePaddedBuffer : Obligations.AbsbufAbsorbsThePaddedBuffer := by
  refine ⟨rfl, fun s h => (execAbsbuf_open h).trans ?_⟩
  rw [← List.append_assoc]
  rfl

/-- Settles O33: the two strings absorbed are `le64` of the lengths, and `le64_getD` gives their bytes. -/
theorem abslenBindsBothLengths : Obligations.AbslenBindsBothLengths := by
  refine ⟨rfl, fun s => ⟨le64 s.aadLen, le64 s.eph.mlen, rfl, le64_length _, le64_length _, fun i hi => ?_⟩⟩
  exact ⟨le64_getD s.aadLen i hi, le64_getD s.eph.mlen i hi⟩

/-- Settles O34: `FINAL` over the open parameters, its branch read as the codes of `OP`. -/
theorem finalComputesTheTag : Obligations.FinalComputesTheTag := by
  refine ⟨rfl, fun s => ?_⟩
  rw [← ite_isEnc]
  rfl

/-! The MAC input as a whole (rule R117). -/

theorem macInput_length (a c : List Byte) (la lc : BitVec 64) :
    (macInput a c la lc).length = (a.length + pad16 a.length) + (c.length + pad16 c.length) + 16 := by
  simp only [macInput, List.length_append, zeros_length, le64_length]
  omega

/-- The last 16 bytes of a MAC input give both lengths. -/
theorem macInput_lengths_injective {a c a' c' : List Byte} {la lc la' lc' : BitVec 64}
    (h : macInput a c la lc = macInput a' c' la' lc') : la = la' ∧ lc = lc' := by
  obtain ⟨h, hc⟩ := List.append_inj' h (by simp only [le64_length])
  obtain ⟨-, ha⟩ := List.append_inj' h (by simp only [le64_length])
  exact ⟨le64_injective ha, le64_injective hc⟩

/-- Of parts of known lengths the MAC input gives the parts: the padding depends on the lengths alone. -/
theorem macInput_parts_injective {a c a' c' : List Byte} {la lc la' lc' : BitVec 64} (ha : a.length = a'.length)
    (hc : c.length = c'.length) (h : macInput a c la lc = macInput a' c' la' lc') : a = a' ∧ c = c' := by
  simp only [macInput, List.append_assoc] at h
  obtain ⟨haa, h⟩ := List.append_inj h ha
  obtain ⟨-, h⟩ := List.append_inj h (by rw [ha])
  exact ⟨haa, (List.append_inj h hc).1⟩

theorem ofNat_injective_of_lt {m n : Nat} (hm : m < 2 ^ 64) (hn : n < 2 ^ 64) (h : BitVec.ofNat 64 m = BitVec.ofNat 64 n) :
    m = n := by
  have hmod : m ≡ n [MOD 2 ^ 64] := congrArg BitVec.toNat h
  exact hmod.eq_of_lt_of_lt hm hn

/-- Settles O50: equal inputs end in equal lengths, and with equal lengths the parts stand at the same places; each padded part
is a multiple of 16 long. -/
theorem macInputBindsItsParts : Obligations.MacInputBindsItsParts := by
  intro a c a' c' ha hc ha' hc'
  refine ⟨fun h => ?_, ?_, ?_⟩
  · obtain ⟨hla, hlc⟩ := macInput_lengths_injective h
    exact macInput_parts_injective (ofNat_injective_of_lt ha ha' hla) (ofNat_injective_of_lt hc hc' hlc) h
  · rw [macInput_length]
    exact Nat.le_add_left 16 _
  · have hpa := pad16_aligns a.length
    have hpc := pad16_aligns c.length
    rw [macInput_length]
    omega

end Sys2Proof.Machine
end

section
/-! Proofs of the statements about the keystream sequencer (42_keystream_sequencer.md): what `XOR` does to the message (rules R126 to
R128), and that a second run over the same bytes restores them (rule R130). -/

namespace Sys2Proof.Machine

/-- Rule R128: with the message admitted, `XOR` is its loop, the generator moved on by `MLEN`. -/
theorem execXor_open {s : State} (h : PortOpen s s.bufAddr.toNat s.eph.mlen.toNat) :
    execXor s = .next { s with
      mem := (xorBytes openPrims s.eph.mlen.toNat s.bufAddr.toNat s).mem
      eph := setPosition s.eph (position s.eph + s.eph.mlen.toNat)
      phase := if isEnc s.op then uAbsbuf else uRetok } := by
  rw [execXor, xorOn, withPort_open h, xorBytes_frame]

theorem position_eq_64 {e : Eph} (hc : e.ctr = 1) (ho : e.off = 0) : position e = 64 := by
  simp [position, hc, ho]

/-- Keystream byte `i` of a message that starts at block 1, byte 0 (rule R125). -/
theorem ksStream_message (P : Prims) (k : Bytes 32) (n : Bytes 12) (i : Nat) :
    ksStream P k n (64 + i) = (P.ks k n (BitVec.ofNat 32 (1 + i / 64))).get (i % 64) := by
  rw [ksStream, Nat.add_div_left i (by decide), Nat.add_mod_left, Nat.add_comm 1]

/-- Settles O35: `execXor_open` gives the state answered; `xorBytes_read` and `xorBytes_read_ne` read its memory. -/
theorem xorAppliesTheKeystream : Obligations.XorAppliesTheKeystream := by
  refine ⟨rfl, fun s hw ho => ?_⟩
  have hread := fun i (hi : i < s.eph.mlen.toNat) =>
    xorBytes_read openPrims _ _ i s hw (portOpen_fits ho (Nat.zero_lt_of_lt hi)) hi
  refine ⟨_, execXor_open ho, ?_, hread, fun hc hz i hi => ?_, fun a ha => xorBytes_read_ne openPrims _ _ a s ha⟩
  · rw [ite_isEnc]
  · refine (hread i hi).trans ?_
    rw [position_eq_64 hc hz, ksStream_message]

/-- The loop of `XOR` run again with the seed and from the position of the first run restores each byte that still stands as the
first run left it (rule R130). -/
theorem read_xorBytes_xorBytes (P : Prims) {s t : State} {n a : Nat} (hw : Memory.wf s.mem = true)
    (ho : PortOpen s s.bufAddr.toNat n) (hwt : Memory.wf t.mem = true) (hot : PortOpen t t.bufAddr.toNat n)
    (hb : t.bufAddr = s.bufAddr) (hk : t.eph.seedKey = s.eph.seedKey) (hn : t.eph.seedNonce = s.eph.seedNonce)
    (hp : position t.eph = position s.eph) (hr : Mem.read t.mem a = Mem.read (xorBytes P n s.bufAddr.toNat s).mem a) :
    Mem.read (xorBytes P n t.bufAddr.toNat t).mem a = Mem.read s.mem a := by
  rw [read_xorBytes_of_portOpen P hwt hot, hr, read_xorBytes_of_portOpen P hw ho, hb, hk, hn, hp]
  split_ifs with ha
  · rw [BitVec.xor_assoc, BitVec.xor_self, BitVec.xor_zero]
  · rfl

/-- Everything `XOR` can do to the memory when it answers a next state. -/
theorem execXor_next {s t : State} (h : execXor s = .next t) :
    PortOpen s s.bufAddr.toNat s.eph.mlen.toNat ∧ t.bufAddr = s.bufAddr ∧
      t.mem = (xorBytes openPrims s.eph.mlen.toNat s.bufAddr.toNat s).mem := by
  obtain ⟨ho, -⟩ := withPort_next h
  injection (execXor_open ho).symm.trans h with ht
  subst ht
  exact ⟨ho, rfl, rfl⟩

/-- Settles O36: both runs are the loop of `XOR`, the second over what the first left at every address. -/
theorem xorTwiceRestoresTheMemory : Obligations.XorTwiceRestoresTheMemory := by
  intro s t u hw ht hu
  obtain ⟨ho, hbuf, hmem⟩ := execXor_next ht
  obtain ⟨ho', -, hu⟩ := execXor_next hu
  have hwt : Memory.wf t.mem = true := hmem ▸ xorBytes_wf_of_portOpen openPrims hw ho
  rw [hu]
  exact mem_ext (xorBytes_wf_of_portOpen (s := { t with eph := s.eph }) openPrims hwt ho') hw fun a =>
    read_xorBytes_xorBytes openPrims hw ho hwt ho' hbuf rfl rfl rfl (congrArg (Mem.read · a) hmem)

end Sys2Proof.Machine
end

section
/-! An AEAD command that succeeds, from its issue to its return (44_aead_commands.md rules R149, R150, R152 and R153). -/

namespace Sys2Proof.Machine

/-! What `XOR` of a command does to the memory. -/

/-- The generator where `XOR` of a command finds it: the command's seed at block 1, byte 0 (rules R102 and R169). -/
def atMessage (s : State) : State :=
  { s with eph := { s.eph with seedKey := (seedOf s).1, seedNonce := (seedOf s).2, ctr := 1, off := 0 } }

/-- The memory with the `n` bytes from `BUF_ADDR` on encrypted or decrypted, as `XOR` of a command does it (rule R128). -/
def cryptMem (s : State) (n : Nat) : List Host.Cell := (xorBytes openPrims n s.bufAddr.toNat (atMessage s)).mem

/-- A command past `SKIP` has the generator at its message. -/
theorem xorBytes_of_seeded {s t : State} {n l a : Nat} (hl : l = n) (ha : a = s.bufAddr.toNat) (hm : t.mem = s.mem)
    (hk : t.eph.seedKey = (seedOf s).1) (hn : t.eph.seedNonce = (seedOf s).2) (hp : position t.eph = 64) :
    (xorBytes openPrims l a t).mem = cryptMem s n := by
  subst hl ha
  exact xorBytes_mem_congr openPrims _ _ hm hk hn hp

theorem read_cryptMem_ne {s : State} {n a : Nat} (ha : ¬ InRange s.bufAddr.toNat n a) :
    Mem.read (cryptMem s n) a = Mem.read s.mem a :=
  xorBytes_read_ne openPrims n _ a (atMessage s) ha

section
variable {s : State} {n : Nat} (hw : Memory.wf s.mem = true) (ho : PortOpen s s.bufAddr.toNat n)
include hw ho

theorem cryptMem_wf : Memory.wf (cryptMem s n) = true :=
  xorBytes_wf_of_portOpen (s := atMessage s) openPrims hw ho

theorem read_cryptMem (a : Nat) :
    Mem.read (cryptMem s n) a = if InRange s.bufAddr.toNat n a then
      Mem.read s.mem a ^^^ ksStream openPrims (seedOf s).1 (seedOf s).2 (64 + (a - s.bufAddr.toNat)) else Mem.read s.mem a :=
  read_xorBytes_of_portOpen openPrims (s := atMessage s) hw ho a

theorem bytesAt_cryptMem :
    bytesAt (cryptMem s n) s.bufAddr.toNat n = crypt openPrims (seedOf s).1 (seedOf s).2 (bytesAt s.mem s.bufAddr.toNat n) := by
  rw [crypt, bytesAt_length]
  refine List.map_congr_left fun i hi => ?_
  have hi : i < n := List.mem_range.mp hi
  rw [bytesAt_getD _ _ _ _ hi, read_cryptMem hw ho, if_pos ⟨Nat.le_add_right _ _, Nat.add_lt_add_left hi _⟩,
    Nat.add_sub_cancel_left]

/-- A byte encrypted and decrypted under the same seed is restored (rule R130). -/
theorem read_cryptMem_cryptMem {t : State} {a : Nat} (hwt : Memory.wf t.mem = true) (hot : PortOpen t t.bufAddr.toNat n)
    (hb : t.bufAddr = s.bufAddr) (hs : seedOf t = seedOf s) (hr : Mem.read t.mem a = Mem.read (cryptMem s n) a) :
    Mem.read (cryptMem t n) a = Mem.read s.mem a :=
  read_xorBytes_xorBytes openPrims (s := atMessage s) (t := atMessage t) hw ho hwt hot hb (congrArg Prod.fst hs)
    (congrArg Prod.snd hs) rfl hr

end

/-! The lengths of a command's regions. -/

theorem messageLen_le_span (op : BitVec 2) (s : State) : messageLen op s ≤ span op s := by
  unfold messageLen span
  split_ifs <;> omega

theorem messageLen_of_isEnc {op : BitVec 2} {s : State} (he : isEnc op = true) : messageLen op s = s.bufLen.toNat :=
  if_neg (by rintro rfl; cases he)

theorem portOpen_message {op : BitVec 2} {s : State} (ha : RegionsAdmitted op s) :
    PortOpen s s.bufAddr.toNat (messageLen op s) := portOpen_mono ha.1 (messageLen_le_span op s)

@[simp] theorem message_length (op : BitVec 2) (s : State) : (message op s).length = messageLen op s := by simp [message]

@[simp] theorem aadBytes_length (s : State) : (aadBytes s).length = s.aadLen.toNat := by simp [aadBytes]

/-- The tag in terms of the length registers (rule R116). -/
theorem tagOf_eq_macfn (P : Prims) (k : Bytes 32) (n : Bytes 12) {aad c : List Byte} {la lc : BitVec 64}
    (ha : aad.length = la.toNat) (hc : c.length = lc.toNat) :
    tagOf P k n aad c = P.macfn (macKeyOf P k n) (macInput aad c la lc) := by
  rw [tagOf, ha, hc, BitVec.ofNat_toNat, BitVec.ofNat_toNat, BitVec.setWidth_eq, BitVec.setWidth_eq]

theorem isEnc_eq_false_iff (op : BitVec 2) : isEnc op = false ↔ op = opDec ∨ op = opDecc := by decide +revert

/-- The tag that `START` latches is the one the caller supplies (rule R42). -/
theorem startTag_data {s : State} (hd : isEnc s.op = false) : (startTag s).data = suppliedTag s.op s := by
  unfold startTag suppliedTag
  rcases (isEnc_eq_false_iff s.op).mp hd with ho | ho
  · simp [ho]
  · rw [if_pos ho, if_pos ho, Bytes.ofList_data (bytesAt_length _ _ _), messageLen, if_pos ho]

/-! The ends of the runs. -/

section
variable {s : State} {n : Nat} (hr : s.resets = [])
include hr

/-- The end of an `ENC` (rules R138 and R154). -/
theorem untilIdle_tagout_enc (hp : s.phase = uTagout) (ho : s.op = opEnc) :
    untilIdle step (n + 2) s = .next (returnWith (resultLength s) true { s with tag := s.eph.etag }) :=
  (untilIdle_at uTagout hp hr (by decide) rfl (execTagout_enc ho)).trans (untilIdle_retok hr rfl)

/-- The end of an `ENCC` (rules R138 and R154). -/
theorem untilIdle_tagout_combined (hp : s.phase = uTagout) (ho : s.op ≠ opEnc)
    (hb : PortOpen s (s.bufAddr.toNat + s.eph.mlen.toNat) 16) :
    untilIdle step (n + 2) s = .next (returnWith (resultLength s) true
      { s with mem := Mem.writeRange s.mem (s.bufAddr.toNat + s.eph.mlen.toNat) s.eph.etag.data }) :=
  (untilIdle_at uTagout hp hr (by decide) rfl ((execTagout_combined ho).trans (withPort_open hb))).trans
    (untilIdle_retok hr rfl)

/-- The end of a decryption once the tags are found equal (rules R128 and R154). -/
theorem untilIdle_xor_decrypt {m : List Host.Cell} (hp : s.phase = uXor) (hd : isEnc s.op = false)
    (hb : PortOpen s s.bufAddr.toNat s.eph.mlen.toNat) (hm : (xorBytes openPrims s.eph.mlen.toNat s.bufAddr.toNat s).mem = m) :
    untilIdle step (n + 2) s = .next (returnWith s.eph.mlen true { s with mem := m }) := by
  have hlen : resultLength s = s.eph.mlen := if_neg fun ho => by rw [ho] at hd; cases hd
  rw [← hlen, ← hm]
  exact (untilIdle_at uXor hp hr (by decide) rfl (execXor_open hb)).trans (untilIdle_retok hr (if_neg (by simp [hd])))

/-- The end of a decryption whose tags are equal (rule R136). -/
theorem untilIdle_cmp_equal {m : List Host.Cell} (hp : s.phase = uCmp) (hd : isEnc s.op = false) (ht : s.eph.etag = s.eph.ctag)
    (hb : PortOpen s s.bufAddr.toNat s.eph.mlen.toNat) (hm : (xorBytes openPrims s.eph.mlen.toNat s.bufAddr.toNat s).mem = m) :
    untilIdle step (n + 3) s = .next (returnWith s.eph.mlen true { s with mem := m }) := by
  rw [untilIdle_at uCmp hp hr (by decide) rfl (execCmp_equal ht), untilIdle_xor_decrypt]
  · rfl
  · exact hr
  · rfl
  · exact hd
  · exact hb
  · rw [← hm]; exact xorBytes_mem_congr openPrims _ _ rfl rfl rfl rfl

end

/-! The runs. -/

section
variable {s : State} {op : BitVec 2} (h : Ready op s) (ha : RegionsAdmitted op s)
include ha

theorem startOk_accepted (hl : op = opDecc → 16 ≤ s.bufLen.toNat) : StartOk (accepted op s) := by
  intro (ho : op = opDecc)
  subst ho
  have hspan : span opDecc s = s.bufLen.toNat - 16 + 16 := (Nat.sub_add_cancel (hl rfl)).symm
  exact ⟨hl rfl, portOpen_drop (hspan ▸ ha.1)⟩

include h

/-- From the issue to the size check, with micro-operations enough left for either of the ways on. -/
theorem runCommand_to_sizechk (hl : op = opDecc → 16 ≤ s.bufLen.toNat) :
    ∃ k, runCommand (accepted op s) = untilIdle step (k + 8) (atSizechk (accepted op s)) := by
  obtain ⟨m, hm, hrun⟩ := untilIdle_to_sizechk (n := 10) (s := accepted op s) h.noReset rfl (startOk_accepted ha hl)
  obtain ⟨k, rfl⟩ := Nat.exists_eq_add_of_le' (Nat.le_trans (show 8 ≤ 10 by decide) hm)
  exact ⟨k, hrun⟩

/-- An encryption from its issue to the tag output (rules R149 and R152). -/
theorem runCommand_to_tagout (he : isEnc op = true) (hn : nblk s.bufLen.toNat < 2 ^ 32) :
    ∃ k, ∃ e : Eph, e.mlen = s.bufLen ∧
      e.etag = tagOf openPrims (seedOf s).1 (seedOf s).2 (aadBytes s)
        (crypt openPrims (seedOf s).1 (seedOf s).2 (message op s)) ∧
      runCommand (accepted op s) = untilIdle step (k + 2)
        { atSizechk (accepted op s) with mem := cryptMem s s.bufLen.toNat, eph := e, phase := uTagout } := by
  have hd : op ≠ opDecc := by rintro rfl; cases he
  have hlen : startLen (accepted op s) = s.bufLen := if_neg hd
  have hmsg := messageLen_of_isEnc (s := s) he
  have hb : PortOpen s s.bufAddr.toNat s.bufLen.toNat := hmsg ▸ portOpen_message ha
  have hn' : nblk (startLen (accepted op s)).toNat < 2 ^ 32 := hlen.symm ▸ hn
  have hb' : PortOpen s s.bufAddr.toNat (startLen (accepted op s)).toNat := hlen.symm ▸ hb
  obtain ⟨k, hrun⟩ := runCommand_to_sizechk h ha fun ho => absurd ho hd
  obtain ⟨e, hmlen, htag, hrun'⟩ := untilIdle_encrypt (n := k + 2) (s := atSizechk (accepted op s)) h.noReset rfl he
    hn' ha.2 hb' rfl
  have hmem : (xorBytes openPrims (startLen (accepted op s)).toNat s.bufAddr.toNat (atSizechk (accepted op s))).mem =
      cryptMem s s.bufLen.toNat := xorBytes_of_seeded (congrArg BitVec.toNat hlen) rfl rfl rfl rfl rfl
  refine ⟨k, e, hmlen.trans hlen, ?_, hrun.trans (hrun'.trans ?_)⟩
  · rw [message, hmsg, ← bytesAt_cryptMem h.mem hb, tagOf_eq_macfn (la := s.aadLen) (lc := s.bufLen) _ _ _ (by simp) (by simp),
      ← hmem, ← hlen]
    exact htag
  · rw [← hmem]; rfl

/-- Rule R149: what `ENC` leaves. -/
theorem commandRun_enc (hop : op = opEnc) (hn : nblk s.bufLen.toNat < 2 ^ 32) :
    CommandRun .enc s { finished s opEnc s.bufLen true causeNone with
      mem := cryptMem s s.bufLen.toNat
      tag := tagOf openPrims (seedOf s).1 (seedOf s).2 (aadBytes s)
        (crypt openPrims (seedOf s).1 (seedOf s).2 (message opEnc s)) } := by
  subst hop
  obtain ⟨k, e, hmlen, htag, hrun⟩ := runCommand_to_tagout h ha rfl hn
  refine commandRun_of_accepted (op := opEnc) (by simp) h ?_
  rw [hrun, untilIdle_tagout_enc, ← htag, ← hmlen]
  · rfl
  · exact h.noReset
  · rfl
  · rfl

/-- Rule R152: what `ENCC` leaves. -/
theorem commandRun_encc (hop : op = opEncc) (hn : nblk s.bufLen.toNat < 2 ^ 32) :
    CommandRun .encc s { finished s opEncc (s.bufLen + 16) true causeNone with
      mem := Mem.writeRange (cryptMem s s.bufLen.toNat) (s.bufAddr.toNat + s.bufLen.toNat)
        (tagOf openPrims (seedOf s).1 (seedOf s).2 (aadBytes s)
          (crypt openPrims (seedOf s).1 (seedOf s).2 (message opEncc s))).data } := by
  subst hop
  obtain ⟨k, e, hmlen, htag, hrun⟩ := runCommand_to_tagout h ha rfl hn
  have hopen : PortOpen s (s.bufAddr.toNat + e.mlen.toNat) 16 := hmlen ▸ portOpen_drop ha.1
  refine commandRun_of_accepted (op := opEncc) (by simp) h ?_
  rw [hrun, untilIdle_tagout_combined, ← htag, ← hmlen]
  · rfl
  · exact h.noReset
  · rfl
  · exact (by decide : opEncc ≠ opEnc)
  · exact hopen

/-- A decryption from its issue to the comparator (rules R150 and R153). -/
theorem runCommand_to_cmp (hd : isEnc op = false) (hl : op = opDecc → 16 ≤ s.bufLen.toNat)
    (hn : nblk (messageLen op s) < 2 ^ 32) :
    ∃ k msg, runCommand (accepted op s) = untilIdle step (k + 3) { atSizechk (accepted op s) with
      eph := { (atSizechk (accepted op s)).eph with
        macmsg := msg, etag := tagOf openPrims (seedOf s).1 (seedOf s).2 (aadBytes s) (message op s) }
      phase := uCmp } := by
  have hlen : (startLen (accepted op s)).toNat = messageLen op s := startLen_toNat hl
  have hn' : nblk (startLen (accepted op s)).toNat < 2 ^ 32 := hlen.symm ▸ hn
  have hb : PortOpen s s.bufAddr.toNat (startLen (accepted op s)).toNat := hlen.symm ▸ portOpen_message ha
  obtain ⟨k, hrun⟩ := runCommand_to_sizechk h ha hl
  obtain ⟨msg, hrun'⟩ := untilIdle_verify (n := k + 3) (s := atSizechk (accepted op s)) h.noReset rfl hd hn' ha.2 hb rfl
  refine ⟨k, msg, hrun.trans (hrun'.trans ?_)⟩
  rw [tagOf_eq_macfn (la := s.aadLen) (lc := startLen (accepted op s)) _ _ _ (by simp) (by simp [hlen]), message, ← hlen]
  rfl

/-- Rules R150 and R153: what `DEC` and `DECC` leave when the tags are equal. -/
theorem commandRun_decrypt {i : Instr} (hi : (i, op) ∈ [(Instr.dec, opDec), (.decc, opDecc)])
    (hl : op = opDecc → 16 ≤ s.bufLen.toNat) (hn : nblk (messageLen op s) < 2 ^ 32)
    (ht : (tagOf openPrims (seedOf s).1 (seedOf s).2 (aadBytes s) (message op s)).data = suppliedTag op s) :
    CommandRun i s { finished s op (BitVec.ofNat 64 (messageLen op s)) true causeNone with
      mem := cryptMem s (messageLen op s) } := by
  have hd : isEnc op = false := by fin_cases hi <;> rfl
  have hi' : (i, op) ∈ [(Instr.enc, opEnc), (.dec, opDec), (.encc, opEncc), (.decc, opDecc)] := by fin_cases hi <;> simp
  have hlen : (startLen (accepted op s)).toNat = messageLen op s := startLen_toNat hl
  have htag : tagOf openPrims (seedOf s).1 (seedOf s).2 (aadBytes s) (message op s) = startTag (accepted op s) :=
    Bytes.ext_data (ht.trans (startTag_data (s := accepted op s) hd).symm)
  have hb : PortOpen s s.bufAddr.toNat (startLen (accepted op s)).toNat := hlen.symm ▸ portOpen_message ha
  obtain ⟨k, msg, hrun⟩ := runCommand_to_cmp h ha hd hl hn
  refine commandRun_of_accepted hi' h ?_
  rw [hrun, untilIdle_cmp_equal (m := cryptMem s (messageLen op s)), ← hlen, BitVec.ofNat_toNat, BitVec.setWidth_eq]
  · rfl
  · exact h.noReset
  · rfl
  · exact hd
  · exact htag
  · exact hb
  · exact xorBytes_of_seeded hlen rfl rfl rfl rfl rfl

end

end Sys2Proof.Machine
end

section
/-! Proofs of the statements about the round trips of rules R130 and R158: a decryption of what an encryption left, the nonce written
again, restores the message. -/

namespace Sys2Proof.Machine

/-- The state in which the host issues the decryption: what an encryption of `s` under `op` left, with the memory `m`, the tag
register `g` and the result length `l`, the nonce written again and `BUF_LEN` set to the result length. -/
def reissued (s : State) (op : BitVec 2) (l : BitVec 64) (m : List Host.Cell) (g : Bytes 16) : State :=
  { finished s op l true causeNone with mem := m, tag := g, nonce := s.nonce, bufLen := l }

theorem bytesAt_writeRange {m : List Host.Cell} {a : Nat} {b : List Byte} (hw : Memory.wf m = true)
    (hf : a + b.length ≤ Config.addrSpace) : bytesAt (Mem.writeRange m a b) a b.length = b := by
  refine List.ext_getElem (bytesAt_length _ _ _) fun i _ hi => ?_
  simp [bytesAt, read_writeRange hw hf hi, List.getD, hi]

section
variable {s : State} {i : Instr} {op op' : BitVec 2} {l : BitVec 64} {m : List Host.Cell} {g : Bytes 16}
  (hi : (i, op, op') ∈ [(Instr.dec, opEnc, opDec), (.decc, opEncc, opDecc)]) (hl : l.toNat = span op s)
include hi hl

/-- The decryption has the region of the encryption. -/
theorem span_reissued : span op' (reissued s op l m g) = span op s := by
  fin_cases hi <;> exact hl

/-- The decryption has the message of the encryption. -/
theorem messageLen_reissued : messageLen op' (reissued s op l m g) = s.bufLen.toNat := by
  fin_cases hi
  · exact hl
  · exact Nat.sub_eq_of_eq_add hl

theorem ready_reissued (h : Ready op s) (hw : Memory.wf m = true) : Ready op' (reissued s op l m g) := by
  have hspan := span_reissued (m := m) (g := g) hi hl
  obtain ⟨bufFits, aadFits, apart, bufPlain, aadPlain⟩ := h.duties
  rw [← hspan] at bufFits apart bufPlain
  exact ⟨rfl, h.key, h.noReset, hw, bufFits, aadFits, apart, bufPlain, aadPlain⟩

theorem regionsAdmitted_reissued (ha : RegionsAdmitted op s) : RegionsAdmitted op' (reissued s op l m g) := by
  rw [RegionsAdmitted, span_reissued hi hl]
  exact ha

/-- The decryption runs to success when the message and the bytes outside the region stand as `XOR` of the encryption left them, and
the supplied tag is that of the ciphertext (rules R150 and R158). -/
theorem commandRun_decrypt_reissued (h : Ready op s) (ha : RegionsAdmitted op s) (hn : nblk s.bufLen.toNat < 2 ^ 32)
    (hw : Memory.wf m = true)
    (hm : ∀ a, InRange s.bufAddr.toNat s.bufLen.toNat a ∨ ¬ InRange s.bufAddr.toNat (span op s) a →
      Mem.read m a = Mem.read (cryptMem s s.bufLen.toNat) a)
    (ht : suppliedTag op' (reissued s op l m g) = (tagOf openPrims (seedOf s).1 (seedOf s).2 (aadBytes s)
      (crypt openPrims (seedOf s).1 (seedOf s).2 (message op s))).data) :
    CommandRun i (reissued s op l m g) { finished (reissued s op l m g) op' s.bufLen true causeNone with
      mem := cryptMem (reissued s op l m g) s.bufLen.toNat } := by
  have hlen := messageLen_reissued (m := m) (g := g) hi hl
  have hmsg : messageLen op s = s.bufLen.toNat := messageLen_of_isEnc (by fin_cases hi <;> rfl)
  have haad : aadBytes (reissued s op l m g) = aadBytes s := bytesAt_congr fun j hj => by
    have hna : ¬ InRange s.bufAddr.toNat (span op s) (s.aadAddr.toNat + j) :=
      fun hb => h.duties.apart _ hb ⟨Nat.le_add_right _ _, Nat.add_lt_add_left hj _⟩
    refine (hm _ (.inr hna)).trans (read_cryptMem_ne fun hb => hna ⟨hb.1, Nat.lt_of_lt_of_le hb.2 ?_⟩)
    exact Nat.add_le_add_left (hmsg ▸ messageLen_le_span op s) _
  have hcrypt : message op' (reissued s op l m g) = crypt openPrims (seedOf s).1 (seedOf s).2 (message op s) := by
    rw [message, message, hlen, hmsg, ← bytesAt_cryptMem h.mem (hmsg ▸ portOpen_message ha)]
    exact bytesAt_congr fun j hj => hm _ (.inl ⟨Nat.le_add_right _ _, Nat.add_lt_add_left hj _⟩)
  have hrun := commandRun_decrypt (ready_reissued (g := g) hi hl h hw) (regionsAdmitted_reissued hi hl ha) (i := i)
    (by fin_cases hi <;> simp) (fun ho => ?_) (hlen.symm ▸ hn) (by rw [haad, hcrypt, ht]; rfl)
  · rwa [hlen, BitVec.ofNat_toNat, BitVec.setWidth_eq] at hrun
  · fin_cases hi
    · cases ho
    · exact hl ▸ Nat.le_add_left 16 _

end

/-- Settles O57: `ENC` leaves the memory of `cryptMem`, and a second `cryptMem` under the same seed restores it. -/
theorem decUndoesEnc : Obligations.DecUndoesEnc := by
  intro s h ha hn
  have hb : PortOpen s s.bufAddr.toNat s.bufLen.toNat := ha.1
  have hw := cryptMem_wf h.mem hb
  refine ⟨_, _, commandRun_enc h ha rfl hn, commandRun_decrypt_reissued (op := opEnc) (op' := opDec) (by simp) rfl h ha hn hw
    (fun _ _ => rfl) rfl, ?_, rfl, rfl, rfl⟩
  exact mem_ext (cryptMem_wf (s := reissued s opEnc s.bufLen _ _) hw hb) h.mem
    fun a => read_cryptMem_cryptMem h.mem hb hw hb rfl rfl rfl

/-- A message that passes the size check leaves room in `RES_LEN` for the tag (rule R111). -/
theorem toNat_add_16 {v : BitVec 64} (hn : nblk v.toNat < 2 ^ 32) : (v + 16).toNat = v.toNat + 16 := by
  have hle := (nblk_lt_iff _).mp hn
  have h16 : (16 : BitVec 64).toNat = 16 := rfl
  rw [BitVec.toNat_add, h16]
  omega

/-- Settles O58: outside the tag bytes `ENCC` leaves the memory of `cryptMem`, and `DECC` leaves the tag bytes. -/
theorem deccUndoesEncc : Obligations.DeccUndoesEncc := by
  intro s h ha hn
  have hb : PortOpen s s.bufAddr.toNat s.bufLen.toNat := portOpen_mono ha.1 (Nat.le_add_right _ _)
  have hl : (s.bufLen + 16).toNat = span opEncc s := toNat_add_16 hn
  have hspan : span opEncc s = s.bufLen.toNat + 16 := rfl
  have hc := cryptMem_wf h.mem hb
  have hrun := commandRun_encc h ha rfl hn
  generalize htag : tagOf openPrims _ _ _ _ = tag at hrun
  have hfits : s.bufAddr.toNat + s.bufLen.toNat + tag.data.length ≤ Config.addrSpace := by
    rw [tag.len, Nat.add_assoc]; exact h.duties.bufFits
  have hw := writeRange_wf hc hfits
  have hread := fun a (hna : ¬ InRange (s.bufAddr.toNat + s.bufLen.toNat) 16 a) =>
    read_writeRange_ne (m := cryptMem s s.bufLen.toNat) (l := tag.data) (by rwa [tag.len])
  have hsupplied := bytesAt_writeRange hc hfits
  rw [tag.len] at hsupplied
  refine ⟨_, _, hrun, commandRun_decrypt_reissued (g := s.tag) (op := opEncc) (op' := opDecc) (by simp) hl h ha hn hw
    (fun a hr => hread a (by simp only [InRange, hspan] at hr ⊢; omega)) ?_, rfl, rfl, fun a hna => ?_, ?_⟩
  · rw [suppliedTag, if_pos rfl, messageLen_reissued (op := opEncc) (i := .decc) (by simp) hl, htag]
    exact hsupplied
  · exact read_cryptMem_cryptMem h.mem hb hw hb rfl rfl (hread a hna)
  · exact bytesAt_congr fun j _ => read_cryptMem_ne fun hr => absurd hr.2 (Nat.not_lt.mpr (Nat.le_add_right _ j))

end Sys2Proof.Machine
end

section
/-! Proofs of the statements about the tag comparator (43_tag_comparator.md): `CMP` (rule R136) and `TAGOUT` (rule R138). -/

namespace Sys2Proof.Machine

/-- Settles O37: the accumulator is `foldDiff` of the two tags, whose bits `foldDiff_getLsbD` reads. -/
theorem cmpDecidesEqualityOfTheTags : Obligations.CmpDecidesEqualityOfTheTags := by
  refine ⟨rfl, fun s => ⟨foldDiff s.eph.etag.data s.eph.ctag.data, fun b _ => ?_, fun he => ?_, fun hne => ?_⟩⟩
  · exact foldDiff_getLsbD s.eph.etag s.eph.ctag b
  · exact execCmp_equal he
  · exact execCmp_differ hne

/-- Rule R138: with the 16 bytes after the message admitted, `TAGOUT` of a combined command stores the tag there. -/
theorem execTagout_open {s : State} (hop : s.op ≠ opEnc) (ho : PortOpen s (s.bufAddr.toNat + s.eph.mlen.toNat) 16) :
    execTagout s = .next { s with
      mem := Mem.writeRange s.mem (s.bufAddr.toNat + s.eph.mlen.toNat) s.eph.etag.data, phase := uRetok } :=
  (execTagout_combined hop).trans (withPort_open ho)

/-- Settles O38: `execTagout_open` gives the state answered for a combined command, and the rules of a write through the open port
read its memory. -/
theorem tagoutDeliversTheTag : Obligations.TagoutDeliversTheTag := by
  refine ⟨rfl, fun s => ⟨fun hop => execTagout_enc hop, fun hop hw ho => ?_⟩⟩
  refine ⟨_, execTagout_open hop ho, rfl, fun i hi => ?_, fun a ha => ?_⟩
  · rw [← s.eph.etag.len] at ho hi
    exact read_writeRange_of_portOpen hw ho hi
  · rw [← s.eph.etag.len] at ha
    exact read_writeRange_ne ha

end Sys2Proof.Machine
end

section
/-! Proofs of the statements about the AEAD commands (44_aead_commands.md): the micro-operations that open and close one
(rules R148 and R154 to R156), the successor relation (rule R146), verify before decrypt (rule R151), and each command from its issue to its
return (rules R149, R150, R152, R153 and R157). -/

namespace Sys2Proof.Machine

/-! The micro-operations that open and close a command. -/

/-- Settles O22, by what `START` answers in its three cases; the tag of `DECC` is read through the open port. -/
theorem startLatchesTheOperands : Obligations.StartLatchesTheOperands := by
  refine ⟨rfl, fun s => ⟨execStart_undersize, fun ho hl hopen => ?_, execStart_other⟩⟩
  exact ⟨_, (execStart_decc ho hl).trans (withPort_open hopen), rfl, Bytes.ofList_data (bytesAt_length _ _ _)⟩

/-- Settles O39: `RETOK` is the return with success, of the result length of rule R154. -/
theorem retokReportsSuccess : Obligations.RetokReportsSuccess := ⟨rfl, fun _ => rfl⟩

/-- Settles O40: `RETFAIL` is the return with failure, of length 0. -/
theorem retfailReportsFailure : Obligations.RetfailReportsFailure := ⟨rfl, fun _ => rfl⟩

/-! The successor relation (rule R146). -/

theorem execStart_phase {s t : State} (ht : execStart s = .next t) :
    t.phase = if s.op = opDecc ∧ s.bufLen.toNat < 16 then uRetfail else seedPhase s := by
  rcases execStart_next ht with ⟨ho, hl⟩ | hok
  · injection (execStart_undersize ho hl).symm.trans ht with ht
    rw [← ht, if_pos ⟨ho, hl⟩]
  · injection (execStart_ok hok).symm.trans ht with ht
    rw [← ht, if_neg fun ⟨ho, hl⟩ => Nat.not_lt.mpr (hok ho).1 hl]

theorem execSizechk_phase {s t : State} (ht : execSizechk s = .next t) :
    t.phase = if 2 ^ 32 ≤ nblk s.eph.mlen.toNat then uRetfail else uAbsaad := by
  split_ifs with hn
  · injection (execSizechk_fail hn).symm.trans ht with ht
    rw [← ht]
  · injection (execSizechk_pass (Nat.lt_of_not_le hn)).symm.trans ht with ht
    rw [← ht]

theorem execCmp_phase {s t : State} (ht : execCmp s = .next t) :
    t.phase = if s.eph.etag = s.eph.ctag then uXor else uRetfail := by
  split_ifs with he
  · injection (execCmp_equal he).symm.trans ht with ht
    rw [← ht]
  · injection (execCmp_differ he).symm.trans ht with ht
    rw [← ht]

/-- The micro-operation of `PHASE` goes to its successor; only `START`, `SIZECHK` and `CMP` look at more than `OP`. -/
theorem exec_uop_phase {i : Instr} {s t : State} (hi : decodeUop s.phase = .ok i) (ht : exec i s = .next t) :
    t.phase = successor s := by
  have hp := encodeUop_of_decodeUop hi
  cases exec_effect ht with
  | none hm =>
    fin_cases hm
    · cases hp
    · simp [successor, ← Option.some.inj hp]
  | key hm | reject hm | accept hm => fin_cases hm <;> cases hp
  | undersize | start =>
    rw [execStart_phase ht]
    simp [successor, ← Option.some.inj hp, seedPhase]
  | sized | oversize =>
    rw [execSizechk_phase ht]
    simp [successor, ← Option.some.inj hp]
  | equal | differ =>
    rw [execCmp_phase ht]
    simp [successor, ← Option.some.inj hp]
  | ret hm => fin_cases hm <;> simp [successor, ← Option.some.inj hp]
  | seeds | split | derive | seedx | mackey | skip | absaad | xor | absbuf | abslen | final | tag | tagMem =>
    simp [successor, ← Option.some.inj hp]

/-- The edges to `RETFAIL`, each with its cause (rule R203). -/
theorem exec_uop_cause {i : Instr} {s t : State} (hi : decodeUop s.phase = .ok i) (ht : exec i s = .next t)
    (hf : t.phase = uRetfail) :
    s.phase = uStart ∧ t.cause = causeUndersize ∨ s.phase = uSizechk ∧ t.cause = causeOversize ∨
      s.phase = uCmp ∧ t.cause = causeAuthfail := by
  have hp := encodeUop_of_decodeUop hi
  cases exec_effect ht with
  | undersize => exact .inl ⟨(Option.some.inj hp).symm, rfl⟩
  | oversize => exact .inr (.inl ⟨(Option.some.inj hp).symm, rfl⟩)
  | differ => exact .inr (.inr ⟨(Option.some.inj hp).symm, rfl⟩)
  | none hm =>
    rw [hf] at hp
    fin_cases hm <;> exact absurd hp (by decide)
  | key hm | reject hm | accept hm => fin_cases hm <;> cases hp
  | start => cases hx : s.status.xn <;> simp [seedPhase, hx] at hf
  | absaad | xor | final => cases ho : isEnc s.op <;> simp [ho] at hf
  | seeds | split | derive | seedx | mackey | skip | sized | absbuf | abslen | equal | tag | tagMem | ret =>
    simp at hf

/-- A step of the running sequencer is the micro-operation of `PHASE`. -/
theorem step_next_exec {s t : State} (hr : s.resets = []) (hp : s.phase ≠ uIdle) (ht : step s = .next t) :
    ∃ i, decodeUop s.phase = .ok i ∧ exec i s = .next t := by
  cases hi : decodeUop s.phase with
  | ok i => exact ⟨i, rfl, (step_running hr hp hi).symm.trans ht⟩
  | error e =>
    rw [step_eq_microStep hr (.inl hp), microStep_of_decodeUop_error hi] at ht
    cases ht

/-- Settles O45, by the successor of each micro-operation and the three edges to `RETFAIL`. -/
theorem phaseFollowsTheSuccessorRelation : Obligations.PhaseFollowsTheSuccessorRelation := by
  intro s t hr hp hs
  obtain ⟨i, hi, ht⟩ := step_next_exec hr hp hs
  refine ⟨exec_uop_phase hi ht, fun hf => ?_⟩
  rcases exec_uop_cause hi ht hf with ⟨hc, h⟩ | ⟨hc, h⟩ | ⟨hc, h⟩ <;> rw [h, hc] <;> rfl

/-! Verify before decrypt (rule R151). -/

/-- Settles O46: a step that writes the memory is `XOR`, `TAGOUT` or the idle sequencer's, and a decryption runs no `TAGOUT`. -/
theorem decryptionWritesOnlyVerifiedPlaintext : Obligations.DecryptionWritesOnlyVerifiedPlaintext := by
  intro s t h _ hp hd ht
  refine ⟨fun hx => by_contra fun hm => ?_, fun hx => h.running.verified hx hd⟩
  rcases step_mem_ne ht hm with hx' | ⟨hg, -⟩ | ⟨hi, -⟩
  · exact hx hx'
  · exact absurd (h.running.tagoutEnc hg) (by simp [hd])
  · exact hp hi

/-! The commands from issue to return. -/

/-- Settles O52: `ENC` leaves the memory of `cryptMem`. -/
theorem encEncryptsInPlace : Obligations.EncEncryptsInPlace := by
  intro s h ha hn
  exact ⟨_, commandRun_enc h ha rfl hn, rfl, bytesAt_cryptMem h.mem ha.1, fun _ => read_cryptMem_ne⟩

/-- Bytes written right after the first `n` of a range leave those. -/
theorem bytesAt_writeRange_append {m : List Host.Cell} {a n : Nat} {b : List Byte} (hw : Memory.wf m = true)
    (hf : a + n + b.length ≤ Config.addrSpace) :
    bytesAt (Mem.writeRange m (a + n) b) a (n + b.length) = bytesAt m a n ++ b := by
  have hfirst : bytesAt (Mem.writeRange m (a + n) b) a n = bytesAt m a n :=
    bytesAt_congr fun i hi => read_writeRange_ne fun hr => Nat.not_le.mpr hi (Nat.le_of_add_le_add_left hr.1)
  rw [bytesAt_add, hfirst, bytesAt_writeRange hw hf]

/-- The buffer that `ENCC` leaves: the ciphertext and the tag after it (rule R152). -/
theorem bytesAt_encc {s : State} (h : Ready opEncc s) (ha : RegionsAdmitted opEncc s) (tag : Bytes 16) :
    bytesAt (Mem.writeRange (cryptMem s s.bufLen.toNat) (s.bufAddr.toNat + s.bufLen.toNat) tag.data) s.bufAddr.toNat
        (s.bufLen.toNat + 16) =
      crypt openPrims (seedOf s).1 (seedOf s).2 (message opEncc s) ++ tag.data := by
  have hb : PortOpen s s.bufAddr.toNat s.bufLen.toNat := portOpen_message ha
  have hfits : s.bufAddr.toNat + s.bufLen.toNat + tag.data.length ≤ Config.addrSpace := by
    rw [tag.len, Nat.add_assoc]; exact h.duties.bufFits
  have happ := bytesAt_writeRange_append (cryptMem_wf h.mem hb) hfits
  rw [tag.len, bytesAt_cryptMem h.mem hb] at happ
  exact happ

/-- Outside the ciphertext and the tag `ENCC` leaves the memory as it was. -/
theorem read_encc_ne {s : State} {a : Nat} (tag : Bytes 16) (hna : ¬ InRange s.bufAddr.toNat (s.bufLen.toNat + 16) a) :
    Mem.read (Mem.writeRange (cryptMem s s.bufLen.toNat) (s.bufAddr.toNat + s.bufLen.toNat) tag.data) a =
      Mem.read s.mem a := by
  have htag : ¬ InRange (s.bufAddr.toNat + s.bufLen.toNat) tag.data.length a := by
    rw [tag.len]; simp only [InRange] at hna ⊢; omega
  have hmsg : ¬ InRange s.bufAddr.toNat s.bufLen.toNat a := by simp only [InRange] at hna ⊢; omega
  rw [read_writeRange_ne htag, read_cryptMem_ne hmsg]

/-- Settles O53: `ENCC` leaves the memory of `cryptMem` with the tag written after the message. The tag is generalised, or the
unifier runs the write of its bytes. -/
theorem enccAppendsTheTag : Obligations.EnccAppendsTheTag := by
  intro s h ha hn
  have hrun := commandRun_encc h ha rfl hn
  dsimp only
  generalize tagOf openPrims _ _ _ _ = tag at hrun ⊢
  exact ⟨_, hrun, rfl, toNat_add_16 hn, bytesAt_encc h ha tag, fun _ => read_encc_ne tag⟩

/-- The end of a decryption whose tags differ (rules R136 and R156). -/
theorem untilIdle_cmp_differ {s : State} {n : Nat} (hr : s.resets = []) (hp : s.phase = uCmp) (ht : s.eph.etag ≠ s.eph.ctag) :
    untilIdle step (n + 2) s = .next (returnWith 0 false { s with cause := causeAuthfail }) :=
  (untilIdle_at uCmp hp hr (by decide) rfl (execCmp_differ ht)).trans (untilIdle_retfail hr rfl)

section
variable {s : State} {i : Instr} {op : BitVec 2} (h : Ready op s) (ha : RegionsAdmitted op s)
  (hi : (i, op) ∈ [(Instr.dec, opDec), (.decc, opDecc)]) (hl : op = opDecc → 16 ≤ s.bufLen.toNat)
  (hn : nblk (messageLen op s) < 2 ^ 32)
include h ha hi hl hn

/-- Rules R150 and R153: what `DEC` and `DECC` leave when the tags differ. -/
theorem commandRun_authfail
    (ht : (tagOf openPrims (seedOf s).1 (seedOf s).2 (aadBytes s) (message op s)).data ≠ suppliedTag op s) :
    CommandRun i s (finished s op 0 false causeAuthfail) := by
  have hd : isEnc op = false := by fin_cases hi <;> rfl
  have htag : tagOf openPrims (seedOf s).1 (seedOf s).2 (aadBytes s) (message op s) ≠ startTag (accepted op s) :=
    fun he => ht ((congrArg Bytes.data he).trans (startTag_data (s := accepted op s) hd))
  obtain ⟨k, msg, hrun⟩ := runCommand_to_cmp h ha hd hl hn
  refine commandRun_of_accepted (op := op) (by fin_cases hi <;> simp) h ?_
  rw [hrun, untilIdle_cmp_differ]
  · rfl
  · exact h.noReset
  · rfl
  · exact htag

/-- A decryption of a message within both size bounds ends, whatever the tags (rule R157). -/
theorem decryption_terminates : ∃ t, CommandRun i s t ∧ t.phase = uIdle ∧ t.status.done = !t.status.fail := by
  by_cases ht : (tagOf openPrims (seedOf s).1 (seedOf s).2 (aadBytes s) (message op s)).data = suppliedTag op s
  · exact ⟨_, commandRun_decrypt h ha hi hl hn ht, rfl, rfl⟩
  · exact ⟨_, commandRun_authfail h ha hi hl hn ht, rfl, rfl⟩

end

/-- Settles O54: with equal tags the command leaves the memory of `cryptMem`, otherwise it fails at `CMP`. -/
theorem decryptionVerifiesThenDecrypts : Obligations.DecryptionVerifiesThenDecrypts := by
  intro s i op hi h ha hn hl
  refine ⟨fun ht => ⟨_, commandRun_decrypt h ha hi hl hn ht, rfl, ?_, fun _ => read_cryptMem_ne⟩,
    commandRun_authfail h ha hi hl hn⟩
  exact bytesAt_cryptMem h.mem (portOpen_message ha)

/-- Settles O51: a command fails one of the two size checks, or passes both and runs to its end. -/
theorem admittedCommandsTerminate : Obligations.AdmittedCommandsTerminate := by
  intro s i op hi h ha
  obtain ⟨hunder, hover⟩ := sizeFailuresTouchNoMemoryButTheTagOfDecc s i op hi h
  by_cases hl : op = opDecc ∧ s.bufLen.toNat < 16
  · exact ⟨_, hunder hl.1 hl.2, rfl, rfl⟩
  have hlong : op = opDecc → 16 ≤ s.bufLen.toNat := fun ho => Nat.le_of_not_lt fun hlt => hl ⟨ho, hlt⟩
  by_cases hn : nblk (messageLen op s) < 2 ^ 32
  · fin_cases hi
    · exact ⟨_, commandRun_enc h ha rfl hn, rfl, rfl⟩
    · exact decryption_terminates h ha (by simp) hlong hn
    · exact ⟨_, commandRun_encc h ha rfl hn, rfl, rfl⟩
    · exact decryption_terminates h ha (by simp) hlong hn
  · have hstart : op = opDecc → 16 ≤ s.bufLen.toNat ∧ PortOpen s (s.bufAddr.toNat + messageLen op s) 16 := by
      rintro rfl
      exact startOk_accepted ha hlong rfl
    exact ⟨_, hover hstart (Nat.le_of_not_lt hn), rfl, rfl⟩

end Sys2Proof.Machine
end

section
/-! Proofs of the statements about the seed mapper (45_seed_mapper.md): its four micro-operations (rules R165 to R168), the mapper
as one function of `KEY`, `XN` and `NONCE` (rule R169), and a command of the extended form beside one of the standard form. -/

namespace Sys2Proof.Machine

/-! The micro-operations. -/

theorem innerNonce_data (b : Bytes 8) : (innerNonce b).data = [0, 0, 0, 0] ++ b.data :=
  Bytes.ofList_data (by simp)

theorem nonce_short_data (n : Bytes 24) : (n.slice 0 12).data = n.data.take 12 := Bytes.slice_data n 0 12 (by decide)

theorem nonce_inner_data (n : Bytes 24) : (n.slice 16 8).data = n.data.drop 16 := by
  rw [Bytes.slice_data n 16 8 (by decide)]
  exact List.take_of_length_le (by simp)

theorem nonce_split (n : Bytes 24) : (n.slice 0 16).data ++ (n.slice 16 8).data = n.data := by
  rw [nonce_inner_data, Bytes.slice_data n 0 16 (by decide), List.drop_zero, List.take_append_drop]

/-- Settles O23. -/
theorem seedsTakesKeyAndShortNonce : Obligations.SeedsTakesKeyAndShortNonce :=
  ⟨rfl, fun s => ⟨_, rfl, rfl, nonce_short_data s.nonce⟩⟩

/-- Settles O24: the two slices are the whole `NONCE`. -/
theorem splitCutsTheNonce : Obligations.SplitCutsTheNonce :=
  ⟨rfl, fun s => ⟨_, rfl, rfl, nonce_split s.nonce⟩⟩

/-- Settles O25. -/
theorem deriveCallsTheKdf : Obligations.DeriveCallsTheKdf := ⟨rfl, fun _ => rfl⟩

/-- Settles O26. -/
theorem seedxBuildsTheInnerSeed : Obligations.SeedxBuildsTheInnerSeed :=
  ⟨rfl, fun s => ⟨_, rfl, rfl, innerNonce_data s.eph.inner⟩⟩

/-! The mapper as a run of the machine. -/

/-- One micro-operation of a run, the code of `PHASE` given. -/
theorem run_at {k : Nat} {s t : State} {i : Instr} (c : BitVec 5) (hp : s.phase = c) (hr : s.resets = []) (hc : c ≠ uIdle)
    (hi : decodeUop c = .ok i) (ht : exec i s = .next t) :
    Host.Core.run Sys2Proof.core (k + 1) s = Host.Core.run Sys2Proof.core k t :=
  run_next ((step_running hr (hp ▸ hc) (hp ▸ hi)).trans ht)

/-- The standard form: `SEEDS`. -/
theorem run_standard_mapper {s : State} (hr : s.resets = []) (hp : s.phase = uSeeds) :
    Host.Core.run Sys2Proof.core 1 s = .next { s with
      eph := { s.eph with seedKey := s.key, seedNonce := s.nonce.slice 0 12, ctr := 0, off := 0 }
      phase := uMackey } :=
  run_at uSeeds hp hr (by decide) rfl rfl

/-- The extended form: `SPLIT`, `DERIVE` and `SEEDX`. -/
theorem run_extended_mapper {s : State} (hr : s.resets = []) (hp : s.phase = uSplit) :
    Host.Core.run Sys2Proof.core 3 s = .next { s with
      eph :=
        { s.eph with
          seedKey := openPrims.kdf s.key (s.nonce.slice 0 16), seedNonce := innerNonce (s.nonce.slice 16 8), ctr := 0, off := 0
          subkey := Bytes.zero 32, salt := Bytes.zero 16, inner := Bytes.zero 8 }
      phase := uMackey } := by
  refine (run_at uSplit hp hr (by decide) rfl rfl).trans ?_
  refine Eq.trans (run_at uDerive ?_ ?_ (by decide) rfl rfl) ?_ <;> [rfl; exact hr; skip]
  refine run_at uSeedx ?_ ?_ (by decide) rfl rfl <;> [rfl; exact hr]

/-- Settles O27, form by form. -/
theorem seedMapperIsOneFunction : Obligations.SeedMapperIsOneFunction := by
  intro s hr hp
  cases hx : s.status.xn with
  | false =>
    have hseeds : s.phase = uSeeds := by simpa [seedPhase, hx] using hp
    exact ⟨_, run_standard_mapper hr hseeds, rfl, position_eq_zero rfl rfl, rfl, nonce_short_data s.nonce,
      fun h => absurd h (by decide)⟩
  | true =>
    have hsplit : s.phase = uSplit := by simpa [seedPhase, hx] using hp
    have hn : (innerNonce (s.nonce.slice 16 8)).data = [0, 0, 0, 0] ++ s.nonce.data.drop 16 := by
      rw [innerNonce_data, nonce_inner_data]
    exact ⟨_, run_extended_mapper hr hsplit, rfl, position_eq_zero rfl rfl, rfl, hn, fun _ => ⟨rfl, rfl, rfl⟩⟩

/-! After the mapper no micro-operation reads what it read: a command goes on alike in both forms. -/

/-- The state `s` with everything that only the seed mapper reads taken from `v`. -/
def withMapperOf (v s : State) : State :=
  { s with
    key := v.key, nonce := v.nonce, status := { s.status with xn := v.status.xn }
    eph := { s.eph with salt := v.eph.salt, inner := v.eph.inner, subkey := v.eph.subkey } }

/-- The state `s` with the key and the variant of `v`, all of `withMapperOf` that outlives a return. -/
def withKeyOf (v s : State) : State := { s with key := v.key, status := { s.status with xn := v.status.xn } }

theorem xorBytes_withMapperOf (P : Prims) (n a : Nat) (v s : State) :
    xorBytes P n a (withMapperOf v s) = withMapperOf v (xorBytes P n a s) := by
  have hm : (xorBytes P n a (withMapperOf v s)).mem = (xorBytes P n a s).mem := xorBytes_mem_congr P n a rfl rfl rfl rfl
  have hf := xorBytes_frame P n a (withMapperOf v s)
  rw [hm] at hf
  exact hf.trans (congrArg (withMapperOf v) (xorBytes_frame P n a s)).symm

/-- The micro-operations between the seed mapper and the returns. -/
def midInstrs : List Instr := [.mackey, .skip, .sizechk, .absaad, .xor, .absbuf, .abslen, .final, .cmp, .tagout]

theorem exec_withMapperOf {i : Instr} (hi : i ∈ midInstrs) (v s : State) :
    exec i (withMapperOf v s) = mapNext (withMapperOf v) (exec i s) := by
  cases i with
  | nop | keyloadS | keyloadX | zeroize | enc | dec | encc | decc | uIdle | start | seeds | split | derive | seedx | retok
  | retfail => exact absurd hi (by decide)
  | skip | abslen | final => rfl
  | absaad | absbuf => exact withPort_mapNext rfl rfl
  | xor => exact withPort_mapNext rfl (by rw [xorBytes_withMapperOf]; rfl)
  | mackey => exact (mackeyOn_eq openPrims _).trans (congrArg (mapNext (withMapperOf v)) (mackeyOn_eq openPrims s)).symm
  | sizechk =>
    show execSizechk _ = mapNext _ (execSizechk s)
    by_cases hn : nblk s.eph.mlen.toNat < 2 ^ 32
    · rw [execSizechk_pass hn, execSizechk_pass (s := withMapperOf v s) hn]; rfl
    · rw [execSizechk_fail (Nat.le_of_not_lt hn), execSizechk_fail (s := withMapperOf v s) (Nat.le_of_not_lt hn)]; rfl
  | cmp =>
    show execCmp _ = mapNext _ (execCmp s)
    by_cases he : s.eph.etag = s.eph.ctag
    · rw [execCmp_equal he, execCmp_equal (s := withMapperOf v s) he]; rfl
    · rw [execCmp_differ he, execCmp_differ (s := withMapperOf v s) he]; rfl
  | tagout =>
    show execTagout _ = mapNext _ (execTagout s)
    by_cases ho : s.op = opEnc
    · rw [execTagout_enc ho, execTagout_enc (s := withMapperOf v s) ho]; rfl
    · rw [execTagout_combined ho, execTagout_combined (s := withMapperOf v s) ho]
      exact withPort_mapNext rfl rfl

/-- The returns clear `NONCE` and the ephemeral state (rule R155). -/
theorem exec_return_withMapperOf {i : Instr} (hi : i ∈ [Instr.retok, .retfail]) (v s : State) :
    exec i (withMapperOf v s) = mapNext (withKeyOf v) (exec i s) := by
  fin_cases hi <;> rfl

/-- A return leaves the sequencer idle. -/
theorem phase_of_exec_return {i : Instr} {s t : State} (hi : i ∈ [Instr.retok, .retfail]) (ht : exec i s = .next t) :
    t.phase = uIdle := by
  fin_cases hi <;> (injection ht with ht; subst ht; rfl)

/-- The path of a command past the seed mapper holds the codes of `midInstrs` and of the returns. -/
theorem decodeUop_of_standardPath {enc : Bool} {c : BitVec 5} (h : c ∈ standardPath enc)
    (h2 : 2 ≤ (standardPath enc).idxOf c) :
    ∃ i, decodeUop c = .ok i ∧ (i ∈ midInstrs ∨ i ∈ [Instr.retok, .retfail]) := by
  have hall : ∀ enc, ∀ c ∈ standardPath enc, 2 ≤ (standardPath enc).idxOf c →
      ∃ i ∈ midInstrs ++ [Instr.retok, .retfail], decodeUop c = .ok i := by decide
  obtain ⟨i, hi, hc⟩ := hall enc c h h2
  exact ⟨i, hc, List.mem_append.mp hi⟩

/-- The sequencer is past the seed mapper, and no more than `k` micro-operations from its return. -/
structure PastMapper (s : State) (k : Nat) : Prop where
  onPath : s.phase ∈ standardPath (isEnc s.op)
  past : 2 ≤ (standardPath (isEnc s.op)).idxOf s.phase
  near : (standardPath (isEnc s.op)).length ≤ (standardPath (isEnc s.op)).idxOf s.phase + k

section
variable {s t : State} {k : Nat}

theorem PastMapper.fuel (h : PastMapper s k) : ∃ j, k = j + 1 := by
  have hlt := List.idxOf_lt_length_iff.mpr h.onPath
  have hnear := h.near
  exact ⟨k - 1, by omega⟩

/-- The size check has nine micro-operations of the path's 13 from it on, itself among them. -/
theorem pastMapper_of_sizechk (hp : s.phase = uSizechk) (hk : 9 ≤ k) : PastMapper s k := by
  have hpath : ∀ enc, uSizechk ∈ standardPath enc ∧ (standardPath enc).idxOf uSizechk = 4 ∧
      (standardPath enc).length = 13 := by decide
  obtain ⟨hmem, hidx, hlen⟩ := hpath (isEnc s.op)
  constructor
  · rw [hp]; exact hmem
  · rw [hp, hidx]; decide
  · rw [hp, hidx, hlen]; omega

/-- One micro-operation nearer. `Effect.onPath` asks for the standard form, so it is applied to the step with the key and the
variant of the reset state, which goes to the same place. -/
theorem PastMapper.next {i : Instr} (h : PastMapper s (k + 1)) (hi : decodeUop s.phase = .ok i) (hm : i ∈ midInstrs)
    (ht : exec i s = .next t) : PastMapper t k := by
  have hx : exec i (withMapperOf State.reset s) = .next (withMapperOf State.reset t) := by
    rw [exec_withMapperOf hm, ht]; rfl
  have hret : i ∉ [Instr.retok, .retfail] := (by decide : ∀ i ∈ midInstrs, i ∉ [Instr.retok, .retfail]) i hm
  have hop : t.op = s.op := ((exec_effect ht).uop_frame (decodeUop_format hi)).1
  have hnext : t.phase ∈ standardPath (isEnc s.op) ∧
      (standardPath (isEnc s.op)).idxOf s.phase < (standardPath (isEnc s.op)).idxOf t.phase :=
    (exec_effect hx).onPath (encodeUop_of_decodeUop hi) rfl h.onPath hret
  have hpast := h.past
  have hnear := h.near
  rw [← hop] at hnext hpast hnear
  exact ⟨hnext.1, by omega, by omega⟩

/-- From any micro-operation past the seed mapper to its end a command goes the same way with what the mapper reads taken from `v`;
the fuel need not be the same. -/
theorem untilIdle_withMapperOf {k' : Nat} {v : State} (hr : s.resets = []) (hk : PastMapper s k) (hk' : PastMapper s k')
    (ht : untilIdle step k s = .next t) : untilIdle step k' (withMapperOf v s) = .next (withKeyOf v t) := by
  induction k generalizing k' s with
  | zero => obtain ⟨j, hj⟩ := hk.fuel; cases hj
  | succ k ih =>
    obtain ⟨k', rfl⟩ := hk'.fuel
    have hp := (standardPath_running hk.onPath).1
    obtain ⟨u, hu, ht⟩ := untilIdle_step hp ht
    obtain ⟨i, hi, hmid | hret⟩ := decodeUop_of_standardPath hk.onPath hk.past <;> rw [step_running hr hp hi] at hu
    · have hx : exec i (withMapperOf v s) = .next (withMapperOf v u) := by rw [exec_withMapperOf hmid, hu]; rfl
      obtain ⟨-, -, hres⟩ := (exec_effect hu).uop_frame (decodeUop_format hi)
      rw [untilIdle_next (s := withMapperOf v s) hr hp hi hx]
      exact ih (hres.trans hr) (hk.next hi hmid hu) (hk'.next hi hmid hu) ht
    · have hx : exec i (withMapperOf v s) = .next (withKeyOf v u) := by rw [exec_return_withMapperOf hret, hu]; rfl
      have hidle := phase_of_exec_return hret hu
      rw [untilIdle_idle hidle] at ht
      injection ht with ht
      subst ht
      rw [untilIdle_next (s := withMapperOf v s) hr hp hi hx]
      exact untilIdle_idle hidle

end

/-! A command of the extended form beside the same command of the standard form (rule R169). -/

/-- The state `s` in the standard form, under the derived key and the inner nonce. -/
def underSubkey (s : State) : State :=
  { s with
    key := openPrims.kdf s.key (s.nonce.slice 0 16), nonce := Bytes.ofList 24 (innerNonce (s.nonce.slice 16 8)).data
    status := { s.status with xn := false } }

theorem slice_ofList_innerNonce (b : Bytes 8) : (Bytes.ofList 24 (innerNonce b).data).slice 0 12 = innerNonce b := by
  refine Bytes.ext_data ?_
  rw [nonce_short_data, Bytes.ofList, List.take_take, List.take_append_of_le_length (by simp)]
  exact List.take_of_length_le (by simp)

/-- Both forms run under one seed. -/
theorem seedOf_underSubkey {s : State} (hx : s.status.xn = true) : seedOf (underSubkey s) = seedOf s := by
  simp [seedOf, seedKeyOf, seedNonceOf, underSubkey, hx, slice_ofList_innerNonce]

/-- At the size check the two forms differ in what only the seed mapper reads. -/
theorem atSizechk_underSubkey {s : State} (hx : s.status.xn = true) :
    atSizechk (underSubkey s) = withMapperOf (atSizechk (underSubkey s)) (atSizechk s) := by
  have hs := seedOf_underSubkey hx
  simp only [atSizechk, withMapperOf, hs]
  rfl

/-- A `DECC` region shorter than a tag, from `START` (rule R148). -/
theorem runCommand_start_undersize {s : State} (hr : s.resets = []) (hp : s.phase = uStart) (ho : s.op = opDecc)
    (hl : s.bufLen.toNat < 16) :
    runCommand s = .next (returnWith 0 false (raiseFail causeUndersize (clearOutcome s))) :=
  (untilIdle_at uStart hp hr (by decide) rfl (execStart_undersize ho hl)).trans (untilIdle_retfail hr rfl)

/-- A sequence that starts either fails `UNDERSIZE` at once or has what it needs to reach the size check. -/
theorem runCommand_start_cases {s t : State} (hr : s.resets = []) (hp : s.phase = uStart) (ht : runCommand s = .next t) :
    (s.op = opDecc ∧ s.bufLen.toNat < 16) ∨ StartOk s := by
  have hidle : s.phase ≠ uIdle := by rw [hp]; decide
  have hi : decodeUop s.phase = .ok .start := by rw [hp]; rfl
  obtain ⟨u, hu, -⟩ := untilIdle_step hidle ht
  rw [step_running hr hidle hi] at hu
  exact execStart_next hu

/-- The sequence of an accepted command, in both forms (rules R146 and R169). -/
theorem runCommand_underSubkey {s t : State} (hr : s.resets = []) (hp : s.phase = uStart) (hx : s.status.xn = true)
    (ht : runCommand s = .next t) : runCommand (underSubkey s) = .next (withKeyOf (underSubkey s) t) := by
  rcases runCommand_start_cases hr hp ht with ⟨ho, hl⟩ | hok
  · injection (runCommand_start_undersize hr hp ho hl).symm.trans ht with ht
    subst ht
    exact runCommand_start_undersize (s := underSubkey s) hr hp ho hl
  · obtain ⟨m, hm, hrun⟩ := untilIdle_to_sizechk (n := 10) hr hp hok
    obtain ⟨m', hm', hrun'⟩ := untilIdle_to_sizechk (n := 10) (s := underSubkey s) hr hp hok
    refine hrun'.trans ?_
    rw [atSizechk_underSubkey hx]
    exact untilIdle_withMapperOf (s := atSizechk s) hr (pastMapper_of_sizechk rfl (by omega))
      (pastMapper_of_sizechk rfl (by omega)) (hrun.symm.trans ht)

/-- Settles O59: both commands are accepted alike, and their sequences agree. -/
theorem extendedFormIsStandardUnderTheSubkey : Obligations.ExtendedFormIsStandardUnderTheSubkey := by
  intro s t i hi hp hk hx hr ⟨s1, h1, ht⟩
  obtain ⟨op, hop⟩ : ∃ op, (i, op) ∈ [(Instr.enc, opEnc), (.dec, opDec), (.encc, opEncc), (.decc, opDecc)] := by
    fin_cases hi <;> simp
  rw [exec_aead hop] at h1
  rcases acceptAead_next h1 with ⟨hk', -⟩ | ⟨-, hd, rfl⟩
  · rw [hk] at hk'; cases hk'
  · refine ⟨underSubkey (accepted op s), ?_, ?_⟩
    · rw [exec_aead hop]
      exact acceptAead_ok (s := underSubkey s) hk ⟨hd.bufFits, hd.aadFits, hd.apart, hd.bufPlain, hd.aadPlain⟩
    · exact runCommand_underSubkey (s := accepted op s) hr rfl hx ht

end Sys2Proof.Machine
end

section
/-! Proofs of the statements about the key commands (46_key_commands.md): what each of the four leaves (rules R175 to R178), and who
writes `KEY` (rule R179). -/

namespace Sys2Proof.Machine

/-- Settles O17: `NOP` answers its own state, and the other three finish with the key and the flags of their rule. -/
theorem keyCommandsSetKeyAndStatus : Obligations.KeyCommandsSetKeyAndStatus := by
  intro s
  refine ⟨?nop, ?keyloadS, ?keyloadX, ?zeroize⟩
  case nop => exact (rfl : exec .nop s = .next s)
  case keyloadS => exact (rfl : exec .keyloadS s = .next (finishKeyCommand s.keyin true false s))
  case keyloadX => exact (rfl : exec .keyloadX s = .next (finishKeyCommand s.keyin true true s))
  case zeroize => exact (rfl : exec .zeroize s = .next (finishKeyCommand (Bytes.zero 32) false false s))

/-- No instruction writes `KEY` but the three key commands. -/
theorem exec_key_ne {i : Instr} {s t : State} (ht : exec i s = .next t) (hk : t.key ≠ s.key) :
    i ∈ [Instr.keyloadS, .keyloadX, .zeroize] := by
  cases exec_effect ht with
  | key hi => exact hi
  | none | reject | accept | undersize | start | seeds | split | derive | seedx | mackey | skip | sized | oversize | absaad | xor
  | absbuf | abslen | final | equal | differ | tag | tagMem | ret => exact absurd rfl hk

/-- The micro-operation that `PHASE` names is none of the key commands. -/
theorem exec_uop_key {c : BitVec 5} {i : Instr} {s t : State} (hi : decodeUop c = .ok i) (ht : exec i s = .next t) :
    t.key = s.key := by
  by_contra hk
  have hf := decodeUop_format hi
  have hkey := exec_key_ne ht hk
  fin_cases hkey <;> cases hf

/-- The words of the key commands (rule R81). -/
theorem word_of_keyCommand {w : BitVec 32} {i : Instr} (hw : decodeCmd w = .ok i)
    (hi : i ∈ [Instr.keyloadS, .keyloadX, .zeroize]) : w = 0x00000001 ∨ w = 0x00000002 ∨ w = 0x00000003 := by
  have henc : encodeCmd i = some w := (decodeCmd_eq_ok_iff_encodeCmd w i).mp hw
  fin_cases hi
  · exact .inl (Option.some.inj henc).symm
  · exact .inr (.inl (Option.some.inj henc).symm)
  · exact .inr (.inr (Option.some.inj henc).symm)

/-- A host action that changes `KEY` is the issue of a key command. -/
theorem hostAct_key_ne {a : HostAct} {s t : State} (ht : hostAct exec a s = .next t) (hk : t.key ≠ s.key) :
    ∃ w, a = .write .word 0x00 w ∧ (w = 0x00000001 ∨ w = 0x00000002 ∨ w = 0x00000003) := by
  rcases hostAct_cases ht with
    ⟨w, ha, i, hw, hx⟩ | ⟨w, e, -, -, rfl⟩ | ⟨o, w, -, rfl⟩ | ⟨o, -, rfl⟩ | ⟨addr, bytes, -, -, -, rfl⟩
  · exact ⟨w, ha, word_of_keyCommand hw (exec_key_ne hx hk)⟩
  · exact absurd rfl hk
  · exact absurd (by rw [writeReg_frame]) hk
  · exact absurd rfl hk
  · exact absurd rfl hk

/-- Settles O18: the reset is one of the two writers, no micro-operation is one, and a host action only by a key command's word. -/
theorem keyChangesOnlyByKeyCommandOrReset : Obligations.KeyChangesOnlyByKeyCommandOrReset := by
  intro s t ht hk
  rcases step_cases ht with ⟨hr, -⟩ | ⟨-, -, i, hi, hx⟩ | ⟨-, hp, a, rest, hq, ha⟩
  · exact .inl hr
  · rw [resetTick_eq] at hx
    exact absurd (exec_uop_key hi hx) hk
  · rw [resetTick_eq] at ha
    obtain ⟨w, rfl, hw⟩ := hostAct_key_ne ha hk
    exact .inr ⟨hp, w, rest, hq, hw⟩

end Sys2Proof.Machine
end

section
/-! Proofs of the statements about the exceptions (60_exceptions.md): a command that fails has written nothing but its own working
state, so what it leaves does not tell why (rules R204 and R206). -/

namespace Sys2Proof.Machine

/-! Where a command past the seed mapper can still fail, and where it can no longer (the table of rule R146). -/

/-- The codes from the size check on from which `RETFAIL` can be reached, itself among them. -/
def mayFailPhases (enc : Bool) : List (BitVec 5) :=
  if enc then [uSizechk, uRetfail] else [uSizechk, uAbsaad, uAbsbuf, uAbslen, uFinal, uCmp, uRetfail]

/-- The codes from the size check on from which only `RETOK` can be reached, itself among them. -/
def surePhases (enc : Bool) : List (BitVec 5) :=
  if enc then [uAbsaad, uXor, uAbsbuf, uAbslen, uFinal, uTagout, uRetok] else [uXor, uRetok]

/-- The instructions a command runs from the size check on before it is sure to succeed. -/
def mayFailInstrs : List Instr := [.sizechk, .absaad, .absbuf, .abslen, .final, .cmp]

/-- The instructions a command runs from there to its `RETOK`. -/
def sureInstrs : List Instr := [.absaad, .xor, .absbuf, .abslen, .final, .tagout]

theorem decodeUop_of_mayFailPhases {enc : Bool} {c : BitVec 5} (h : c ∈ mayFailPhases enc) (hc : c ≠ uRetfail) :
    c ≠ uIdle ∧ ∃ i ∈ mayFailInstrs, decodeUop c = .ok i := by
  have hall : ∀ enc, ∀ c ∈ mayFailPhases enc, c ≠ uRetfail → c ≠ uIdle ∧ ∃ i ∈ mayFailInstrs, decodeUop c = .ok i := by
    decide
  exact hall enc c h hc

theorem decodeUop_of_surePhases {enc : Bool} {c : BitVec 5} (h : c ∈ surePhases enc) (hc : c ≠ uRetok) :
    c ≠ uIdle ∧ ∃ i ∈ sureInstrs, decodeUop c = .ok i := by
  have hall : ∀ enc, ∀ c ∈ surePhases enc, c ≠ uRetok → c ≠ uIdle ∧ ∃ i ∈ sureInstrs, decodeUop c = .ok i := by decide
  exact hall enc c h hc

/-! One micro-operation on the way. -/

/-- While a command may fail it writes the ephemeral state, `PHASE` and `CAUSE` alone, and goes on to where it may fail or is sure. -/
theorem Effect.mayFail {i : Instr} {s t : State} (h : Effect i s t) (hi : i ∈ mayFailInstrs) (hc : encodeUop i = some s.phase)
    (hs : s.phase ∈ mayFailPhases (isEnc s.op)) :
    t = { s with eph := t.eph, phase := t.phase, cause := t.cause } ∧
      (t.phase ∈ mayFailPhases (isEnc s.op) ∨ t.phase ∈ surePhases (isEnc s.op)) := by
  cases h with
  | none hm | key hm | reject hm | accept hm | ret hm => fin_cases hm <;> exact absurd hi (by decide)
  | undersize | start | seeds | split | derive | seedx | mackey | skip | xor | tag | tagMem => exact absurd hi (by decide)
  | sized | oversize | absaad | absbuf | abslen | final | equal | differ =>
    refine ⟨rfl, ?_⟩
    injection hc with hc
    rw [← hc] at hs
    dsimp only [raiseFail]
    generalize isEnc s.op = enc at hs ⊢
    revert enc; decide

/-- Once a command is sure to succeed it writes no flag before the return, and stays sure. -/
theorem Effect.sure {i : Instr} {s t : State} (h : Effect i s t) (hi : i ∈ sureInstrs) (hc : encodeUop i = some s.phase)
    (hs : s.phase ∈ surePhases (isEnc s.op)) : t.status = s.status ∧ t.phase ∈ surePhases (isEnc s.op) := by
  cases h with
  | none hm | key hm | reject hm | accept hm | ret hm => fin_cases hm <;> exact absurd hi (by decide)
  | undersize | start | seeds | split | derive | seedx | mackey | skip | sized | oversize | equal | differ =>
    exact absurd hi (by decide)
  | absaad | xor | absbuf | abslen | final | tag | tagMem =>
    refine ⟨rfl, ?_⟩
    injection hc with hc
    rw [← hc] at hs
    dsimp only
    generalize isEnc s.op = enc at hs ⊢
    revert enc; decide

/-! The runs. -/

section
variable {k : Nat} {s t : State} (hr : s.resets = []) (hf : s.status.fail = false) (ht : untilIdle step k s = .next t)
include hr hf ht

/-- A command that is sure to succeed does not fail. -/
theorem untilIdle_sure (hp : s.phase ∈ surePhases (isEnc s.op)) : t.status.fail = false := by
  induction k generalizing s with
  | zero => injection ht with ht; rw [← ht]; exact hf
  | succ k ih =>
    by_cases hret : s.phase = uRetok
    · injection (untilIdle_retok hr hret).symm.trans ht with ht
      rw [← ht]; rfl
    · obtain ⟨hidle, i, hm, hi⟩ := decodeUop_of_surePhases hp hret
      obtain ⟨u, hu, ht⟩ := untilIdle_step hidle ht
      rw [step_running hr hidle hi] at hu
      obtain ⟨hop, -, hres⟩ := (exec_effect hu).uop_frame (decodeUop_format hi)
      obtain ⟨hstatus, hnext⟩ := (exec_effect hu).sure hm (encodeUop_of_decodeUop hi) hp
      rw [← hop] at hnext
      exact ih (hres.trans hr) (by rw [hstatus]; exact hf) ht hnext

/-- A command that fails from the size check on leaves, but for the cause, what `RETFAIL` at once would leave. -/
theorem untilIdle_failed (hp : s.phase ∈ mayFailPhases (isEnc s.op)) (hc : s.phase = uRetfail → s.cause ≠ causeNone)
    (hfail : t.status.fail = true) : t = returnWith 0 false { s with cause := t.cause } ∧ t.cause ≠ causeNone := by
  induction k generalizing s with
  | zero => injection ht with ht; rw [← ht, hf] at hfail; cases hfail
  | succ k ih =>
    by_cases hret : s.phase = uRetfail
    · injection (untilIdle_retfail hr hret).symm.trans ht with ht
      subst ht
      exact ⟨rfl, hc hret⟩
    · obtain ⟨hidle, i, hm, hi⟩ := decodeUop_of_mayFailPhases hp hret
      obtain ⟨u, hu, ht⟩ := untilIdle_step hidle ht
      rw [step_running hr hidle hi] at hu
      obtain ⟨hframe, hnext⟩ := (exec_effect hu).mayFail hm (encodeUop_of_decodeUop hi) hp
      have hop : u.op = s.op := by rw [hframe]
      have hres : u.resets = [] := by rw [hframe]; exact hr
      have huf : u.status.fail = false := by rw [hframe]; exact hf
      rw [← hop] at hnext
      rcases hnext with hmay | hsure
      · have hcause : u.phase = uRetfail → u.cause ≠ causeNone := fun he => by
          rcases exec_uop_cause hi hu he with ⟨-, h⟩ | ⟨-, h⟩ | ⟨-, h⟩ <;> rw [h] <;> decide
        obtain ⟨hend, hne⟩ := ih hres huf ht hmay hcause
        refine ⟨hend.trans ?_, hne⟩
        rw [hframe]; rfl
      · rw [untilIdle_sure hres huf ht hsure] at hfail; cases hfail

end

/-- The sequence of an accepted command that fails. -/
theorem runCommand_failed {s t : State} {op : BitVec 2} (hr : s.resets = []) (ht : runCommand (accepted op s) = .next t)
    (hfail : t.status.fail = true) : t = finished s op 0 false t.cause ∧ t.cause ≠ causeNone := by
  rcases runCommand_start_cases (s := accepted op s) hr rfl ht with ⟨ho, hl⟩ | hok
  · injection (runCommand_start_undersize (s := accepted op s) hr rfl ho hl).symm.trans ht with ht
    subst ht
    exact ⟨rfl, (by decide : causeUndersize ≠ causeNone)⟩
  · obtain ⟨m, -, hrun⟩ := untilIdle_to_sizechk (n := 10) (s := accepted op s) hr rfl hok
    have hmem : ∀ enc, uSizechk ∈ mayFailPhases enc := by decide
    exact untilIdle_failed (s := atSizechk (accepted op s)) hr rfl (hrun.symm.trans ht) (hmem _)
      (fun h => absurd (a := uSizechk = uRetfail) h (by decide)) hfail

/-- The host does not see the cause (rule R204). -/
theorem sameView_finished (s : State) (op : BitVec 2) (len : BitVec 64) (ok : Bool) (c c' : BitVec 2) :
    SameView (finished s op len ok c) (finished s op len ok c') :=
  ⟨hostReadsIgnoreHiddenState _ _ rfl rfl rfl rfl rfl rfl rfl rfl, rfl⟩

/-- Settles O56: with a key the command is accepted, and its sequence fails before it has written memory or `TAG`. -/
theorem failuresAreOpaqueAndHarmless : Obligations.FailuresAreOpaqueAndHarmless := by
  intro s t i op hi _ hk hr ⟨s1, h1, ht⟩ hfail
  rw [exec_aead hi] at h1
  rcases acceptAead_next h1 with ⟨hk', -⟩ | ⟨-, -, rfl⟩
  · rw [hk] at hk'; cases hk'
  · obtain ⟨hend, hne⟩ := runCommand_failed hr ht hfail
    refine ⟨hend, hne, fun c => ?_⟩
    rw [hend]
    exact sameView_finished s op 0 false t.cause c

end Sys2Proof.Machine
end
